-- ==== Sys2Proof/Word.lean ====
section
/-! DEFINITION. The word type of the engine and its plainest arithmetic (spec/00_scope.md R6, R7). -/

namespace Sys2Proof

/-- One byte of a memory as the host port sees it (spec/20_memory.md R38). -/
abbrev Byte := BitVec 8

/-- A 32-bit pattern: every register, every memory word, every host datum and the command word
(spec/00_scope.md R6). -/
abbrev Word := BitVec 32

/-- A channel index: the `CH` field of the command word is an unsigned 4-bit index
(spec/30_encoding.md R58). -/
abbrev Chan := Fin 16

/-- `u(v)`: the unsigned value of a word (R7). -/
abbrev u32 (v : Word) : Nat := v.toNat

/-- `s(v)`: the two's complement value of a word (R7). -/
abbrev s32 (v : Word) : Int := v.toInt

/-- `w32(i)`: the 32-bit pattern of the integer `i` taken modulo 2^32 (R7). -/
abbrev w32 (i : Int) : Word := BitVec.ofInt 32 i

/-- `w32` of a natural number. -/
abbrev w32n (n : Nat) : Word := BitVec.ofNat 32 n

end Sys2Proof
end

