-- ==== Sys2Proof/Config.lean ====
section
/-! DEFINITION. What one implementation of the engine fixes (spec/00_scope.md R5) and the free values
the spec leaves open (spec/93_implementation_defined.md U1). -/

namespace Sys2Proof

/-- The three word memories local to the engine (spec/20_memory.md R35): DMEM, WMEM, OVMEM. -/
inductive Space where
  | dm
  | wm
  | ov
  deriving DecidableEq, Repr

/-- The implementation parameters of spec/00_scope.md R5, one configuration record. -/
structure Config where
  /-- `NCH`: number of channel contexts. -/
  nch : Nat
  /-- `TL_MAX`: largest transform length any context may declare. -/
  tlMax : Nat
  /-- `DM_WORDS`: size of DMEM in words. -/
  dmWords : Nat
  /-- `WM_WORDS`: size of WMEM in words. -/
  wmWords : Nat
  /-- `OV_WORDS`: size of OVMEM in words. -/
  ovWords : Nat
  /-- `OUTGAIN_E`: exponent of the output gain folded in by `GAIN`. -/
  outGainE : Int
  deriving DecidableEq, Repr

/-- The constraints of R5 on the parameters. -/
abbrev Config.Valid (c : Config) : Prop :=
  (1 ≤ c.nch ∧ c.nch ≤ 16) ∧
  (c.tlMax % 2 = 0 ∧ 2 ≤ c.tlMax ∧ c.tlMax ≤ 32768) ∧
  (1 ≤ c.dmWords ∧ c.dmWords ≤ 2 ^ 18) ∧
  (1 ≤ c.wmWords ∧ c.wmWords ≤ 2 ^ 18) ∧
  (1 ≤ c.ovWords ∧ c.ovWords ≤ 2 ^ 18) ∧
  (-64 ≤ c.outGainE ∧ c.outGainE ≤ 64)

/-- The default column of R5, the spec's own choice "for a model that wants one instance"
(spec/92_eei_decisions.md D42). -/
def Config.default : Config where
  nch := 2
  tlMax := 1024
  dmWords := 8192
  wmWords := 4096
  ovWords := 2048
  outGainE := 0

/-- Number of words of a memory. -/
def Config.words (c : Config) : Space → Nat
  | .dm => c.dmWords
  | .wm => c.wmWords
  | .ov => c.ovWords

/-- FREE VALUE (assumption log 2). The byte that a memory holds at byte offset `b` (word address
`b / 4`, byte `b % 4`) after the `epoch`-th hard reset and before anything is written there: the spec
leaves it unspecified, "independently per word" (spec/70_reset_and_hazards.md R160,
spec/93_implementation_defined.md U1). It has no body, so a claim holds whatever it is. -/
opaque Config.freeByte (sp : Space) (epoch b : Nat) : Byte

end Sys2Proof
end

