-- ==== Sys2Proof/Syntax.lean ====
section
/-! DEFINITION. The 13 commands of the engine (spec/30_encoding.md R57), one constructor for each row of
spec/opcode_table.json. Operands other than the channel and the modifier are not part of a command: they
are read from the argument registers when it completes (R55, R61). -/

namespace Sys2Proof

/-- A command. `ch` is the `CH` field (R58), `m` the modifier bit (R59). -/
inductive Instr where
  /-- `NOP`, spec/41_context_commands.md R85. -/
  | nop
  /-- `INIT`, R86: bind an overlap region to a context. -/
  | init (ch : Chan)
  /-- `FREE`, R87: unbind a context. -/
  | free (ch : Chan)
  /-- `CTXLD`, R88: load a complete context image. -/
  | ctxld (ch : Chan)
  /-- `FWD`, spec/42_forward_transform.md R95: one forward block. -/
  | fwd (ch : Chan)
  /-- `ADAPT`, spec/43_inverse_transform.md R105. -/
  | adapt (ch : Chan)
  /-- `GAIN`, spec/41_context_commands.md R89. -/
  | gain
  /-- `INV`, spec/43_inverse_transform.md R109. -/
  | inv (ch : Chan)
  /-- `DRAIN`, R118. -/
  | drain (ch : Chan)
  /-- `PEEK`, R119. -/
  | peek (ch : Chan)
  /-- `RCINIT`, spec/44_rate_control.md R125. -/
  | rcinit
  /-- `RCALLOW`, R126. -/
  | rcallow (m : Bool)
  /-- `RCUPD`, R127. -/
  | rcupd (m : Bool)
  deriving DecidableEq, Repr

/-- The channel a command takes, if it takes one (column "takes CH" of R57). -/
def Instr.chan? : Instr → Option Chan
  | .nop => none
  | .init ch => some ch
  | .free ch => some ch
  | .ctxld ch => some ch
  | .fwd ch => some ch
  | .adapt ch => some ch
  | .gain => none
  | .inv ch => some ch
  | .drain ch => some ch
  | .peek ch => some ch
  | .rcinit => none
  | .rcallow _ => none
  | .rcupd _ => none

/-- The modifier bit of a command, where it is defined (column "M" of R57). -/
def Instr.modifier? : Instr → Option Bool
  | .nop => none
  | .init _ => none
  | .free _ => none
  | .ctxld _ => none
  | .fwd _ => none
  | .adapt _ => none
  | .gain => none
  | .inv _ => none
  | .drain _ => none
  | .peek _ => none
  | .rcinit => none
  | .rcallow m => some m
  | .rcupd m => some m

end Sys2Proof
end

