-- ==== Sys2Proof/Machine/State.lean ====
section
/-! DEFINITION. The state of the engine (spec/10_state.md R11), as plain data, and the state after reset
(spec/70_reset_and_hazards.md R160). -/

namespace Sys2Proof.Machine

/-- The status codes of spec/60_exceptions.md R135: "`STATUS.CODE` never holds any other value". A
refusal code is NOT a stop of the machine: the command completes with that code and the engine goes on
(R137, R138). -/
inductive Code where
  | ok
  | eIllop
  | eIllfld
  | eFatal
  | eNoctx
  | eDir
  | eTl
  | eGeom
  | eAdapt
  | eDmem
  | eWmem
  | eOvmem
  | eOvsize
  | eOvfull
  | eCount
  | eExp
  | eCtxld
  | eRcNotinit
  | eRcCfg
  | eRcParam
  | wResUf
  | wResOf
  | eInternal
  deriving DecidableEq, Repr

/-- `STATUS` (R15), one entry for each field; the word the host reads is `Status.word`. -/
structure Status where
  /-- `CODE`, bits 7:0: status code of the last completed command. -/
  code : Code
  /-- `LASTOP`, bits 15:8: bits 31:24 of the last completed command word. -/
  lastOp : BitVec 8
  /-- `LASTCH`, bits 19:16: bits 11:8 of the last completed command word. -/
  lastCh : BitVec 4
  /-- `FATAL`, bit 30. -/
  fatal : Bool
  /-- `BUSY`, bit 31. -/
  busy : Bool
  deriving DecidableEq, Repr

/-- `FLAGS` (R16), the sticky flags. -/
structure Flags where
  /-- `SAT`, bit 0. -/
  sat : Bool
  /-- `RC_UF`, bit 1. -/
  rcUf : Bool
  /-- `RC_OF`, bit 2. -/
  rcOf : Bool
  deriving DecidableEq, Repr

/-- The two interrupt bits of `IRQEN` and of `IRQSTAT` (R17). -/
structure IrqBits where
  /-- `DONE`, bit 0. -/
  done : Bool
  /-- `ERR`, bit 1. -/
  err : Bool
  deriving DecidableEq, Repr

/-- The direction tag `DIR` of a context (R20), bits 2:1 of `CTX_CTL`: 0, 1, 2, and the value 3, which
"never occurs" and which item 3 of R21 excludes. -/
inductive Dir where
  | none
  | fwd
  | inv
  | illegal
  deriving DecidableEq, Repr

/-- A context record, the source's `TransformState` (R20). -/
structure Ctx where
  /-- `VALID`, bit 0 of `CTX_CTL`. -/
  valid : Bool
  /-- `DIR`, bits 2:1 of `CTX_CTL`. -/
  dir : Dir
  /-- `OVBASE`: first OVMEM word of the overlap region. -/
  ovBase : Word
  /-- `OVSIZE`: number of OVMEM words of the region. -/
  ovSize : Word
  /-- `TLMAX`: largest transform length declared for this context. -/
  tlMax : Word
  /-- `FILL`: logical fill level of the overlap region. -/
  fill : Word
  /-- `PREV_WRS`: WMEM word address of the previous block's right slope table. -/
  prevWrs : Word
  /-- `PREV_TL`: previous transform length. -/
  prevTl : Word
  /-- `PREV_NR`: previous right offset. -/
  prevNr : Word
  /-- `PREV_FR`: previous right slope length. -/
  prevFr : Word
  deriving DecidableEq, Repr

/-- The rate-control record `RC`, the source's `Bit Reservoir` (R24). -/
structure RateCtl where
  /-- `RC_CTL.VALID`. -/
  valid : Bool
  /-- `RC_LEVEL`: bits currently banked. -/
  level : Word
  /-- `RC_SIZE`: configured reservoir size. -/
  size : Word
  /-- `RC_MIN`. -/
  min : Word
  /-- `RC_MAX`. -/
  max : Word
  /-- `RC_AVG`: nominal per-frame budget. -/
  avg : Word
  /-- `RC_BORROW`: largest number of banked bits one frame may draw. -/
  borrow : Word
  deriving DecidableEq, Repr

/-- A memory: the bytes written since the last hard reset, by byte offset, in one canonical form (offsets
strictly rising). Word `a` of the memory is the bytes `4a … 4a+3`, bits 7:0 at `4a`
(spec/20_memory.md R36, R38). An unlisted offset has no known value: what it reads as is said once, in
`State.byteAt`. -/
abbrev Memory := List Host.Cell

/-- The canonical form of a memory. -/
abbrev Memory.wf (m : Memory) : Prop := m.Pairwise (fun x y => x.1 < y.1)

/-- One access the host makes on the port (spec/20_memory.md R36). `bytes` is its width; R37 serves
only 4. -/
inductive HostAccess where
  | read (addr : Word) (bytes : Nat)
  | write (addr : Word) (bytes : Nat) (data : Word)
  deriving DecidableEq, Repr

/-- What the port answers: `OKAY` of a write, `OKAY(data)` of a read, `ERROR` (R36). -/
inductive HostResponse where
  | okay
  | okayData (data : Word)
  | error
  deriving DecidableEq, Repr

/-- What moves next (R10): the host makes an access, the engine takes its complete step (if it is busy),
or the reset input `rst` is asserted (R160). -/
inductive Turn where
  | host (a : HostAccess)
  | engine
  | rst
  deriving DecidableEq, Repr

/-- Why the machine stops. -/
inductive Fault where
  /-- Raised by `memRead` and `memWrite` (Machine/Ops.lean) when a command is about to touch the words
  `[base, base + count)` of a memory that does not have them all. SAFE: the range checks of
  spec/20_memory.md R44 and the invariant check of spec/30_encoding.md R56 step 5 come first, so that "a
  command that is not refused makes no out-of-range access" and no command raises it. -/
  | outOfRange (sp : Space) (base count : Nat)
  deriving DecidableEq, Repr

/-- Why an instruction has no outcome. -/
inductive Refusal where
  /-- The instruction has no meaning in the model. SAFE. No arm of `exec` raises it: all 13 commands have
  their meaning. (The spec's own refusals are status codes, not this.) -/
  | notModelled (mnemonic : String)
  deriving DecidableEq, Repr

/-- The machine. Fields up to `ovmem` are the architectural state of R11; the last five are the model's
own (configuration, free-value counter, input and output of the host port). -/
structure State where
  /-- The argument registers `A0 … A15` (R12). -/
  args : Vector Word 16
  /-- `RET` (R13). -/
  ret : Word
  /-- `STATUS` (R15). -/
  status : Status
  /-- `FLAGS` (R16). -/
  flags : Flags
  /-- `IRQEN` (R17). -/
  irqEn : IrqBits
  /-- `IRQSTAT` (R17). -/
  irqStat : IrqBits
  /-- `CMDCNT` (R18). -/
  cmdCnt : Word
  /-- The command latch (R14), hidden; a command is pending exactly when `status.busy`. -/
  latch : Word
  /-- The context file (R20); entry `c` is `CTX[c]` for `c < NCH`, the others are no state of the
  engine and stay blank. -/
  ctxs : Vector Ctx 16
  /-- The rate-control record (R24). -/
  rc : RateCtl
  /-- DMEM (R26). -/
  dmem : Memory
  /-- WMEM (R26). -/
  wmem : Memory
  /-- OVMEM (R26). -/
  ovmem : Memory
  /-- The configuration record (spec/00_scope.md R5): constant, no step changes it. -/
  cfg : Config
  /-- How many hard resets there have been; it selects the free contents of the memories. -/
  epoch : Nat
  /-- The turns still to come, oldest first: the host's program and the time the engine takes. -/
  turns : List Turn
  /-- The answer to the last host access. -/
  resp : Option HostResponse
  deriving DecidableEq, Repr

/-- A context with all fields 0 (R20, R87): not bound, `DIR = NONE`. -/
def Ctx.blank : Ctx where
  valid := false
  dir := .none
  ovBase := 0#32
  ovSize := 0#32
  tlMax := 0#32
  fill := 0#32
  prevWrs := 0#32
  prevTl := 0#32
  prevNr := 0#32
  prevFr := 0#32

/-- `RC` with all fields 0 (R24). -/
def RateCtl.blank : RateCtl where
  valid := false
  level := 0#32
  size := 0#32
  min := 0#32
  max := 0#32
  avg := 0#32
  borrow := 0#32

/-- The state after hard reset of an engine of configuration `c` (R160, spec/10_state.md R29): every
register 0, no context bound, no command pending, nothing known of the memories. -/
def State.resetWith (c : Config) : State where
  args := Vector.replicate 16 0#32
  ret := 0#32
  status := { code := .ok, lastOp := 0#8, lastCh := 0#4, fatal := false, busy := false }
  flags := { sat := false, rcUf := false, rcOf := false }
  irqEn := { done := false, err := false }
  irqStat := { done := false, err := false }
  cmdCnt := 0#32
  latch := 0#32
  ctxs := Vector.replicate 16 Ctx.blank
  rc := RateCtl.blank
  dmem := []
  wmem := []
  ovmem := []
  cfg := c
  epoch := 0
  turns := []
  resp := none

/-- The state after reset of an engine with the default parameters of R5. -/
def State.reset : State := State.resetWith Config.default

end Sys2Proof.Machine
end

