-- ==== Sys2Proof/Machine/Numeric.lean ====
section
/-! DEFINITION. The arithmetic of the engine (spec/40_numeric.md): rounding shift, saturation, integer
logarithms, the coefficient ROM and the transform kernel. -/

namespace Sys2Proof.Machine

/-- The greatest element of `I32` (spec/00_scope.md R7). -/
abbrev i32Max : Int := 2147483647

/-- The least element of `I32` (R7). -/
abbrev i32Min : Int := -2147483648

/-- `clamp(v, lo, hi)` of R7. -/
def clamp (v lo hi : Int) : Int := if v < lo then lo else if v > hi then hi else v

/-- `rshr(v, s)` of R71: round to nearest, ties toward plus infinity, for `s > 0`; an exact left shift
for `s ≤ 0`. -/
def rshr (v s : Int) : Int :=
  if 0 < s then (v + 2 ^ (s.toNat - 1)) / 2 ^ s.toNat else v * 2 ^ (-s).toNat

/-- The value of `sat32(v)` (R72). -/
def sat32 (v : Int) : Int := clamp v i32Min i32Max

/-- Whether `sat32(v)` clamps, and so sets `FLAGS.SAT` (R72). -/
def saturates (v : Int) : Bool := decide (v < i32Min) || decide (i32Max < v)

/-- `sat32(v)` with the flag it raises. -/
def satPair (v : Int) : Int × Bool := (sat32 v, saturates v)

/-- `sat32(rshr(v, s))` with the flag it raises, evaluated without building the huge powers of two that
extreme shift counts call for: R73 allows it ("an implementation clamps as soon as the magnitude passes
2^31") and R71 gives the result 0 for large `s`. `satShift_eq` (Laws/Numeric.lean) proves it equal to
`satPair (rshr v s)`. -/
def satShift (v s : Int) : Int × Bool :=
  if s ≤ -32 then
    (if v = 0 then (0, false) else if v < 0 then (i32Min, true) else (i32Max, true))
  else if (v.natAbs.log2 : Int) + 1 < s then (0, false)
  else satPair (rshr v s)

/-- `flog2(n)` of R77: the greatest `c` with `2^c ≤ n`. -/
def flog2 (n : Nat) : Nat := n.log2

/-- `clog2(n)` of R77: the least `c` with `2^c ≥ n`. -/
def clog2 (n : Nat) : Nat := if n ≤ 1 then 0 else (n - 1).log2 + 1

/-- `hs(tl)` of R77, the forward scale growth. -/
def hs (tl : Nat) : Nat := clog2 tl + 1

/-- `HR = 2`, the carry headroom (R78). -/
abbrev HR : Nat := 2

/-- `floor(π × 2^128)`. -/
def piScaled : Nat := 0x3243F6A8885A308D313198A2E03707344

/-- The number 1 in the fixed-point format of the ROM's evaluation: 128 fraction bits. -/
def fixOne : Nat := 2 ^ 128

/-- The cosine series in Horner form on `x2 = x²`, `n` terms from term `k` on, 128 fraction bits. -/
def cosSeries (x2 : Nat) : Nat → Nat → Nat
  | 0, _ => fixOne
  | n + 1, k => fixOne - x2 * cosSeries x2 n (k + 1) / (fixOne * ((2 * k + 1) * (2 * k + 2)))

/-- `cos(π r / (4N))` for `0 ≤ r ≤ 2N`, 128 fraction bits. -/
def quarterCos (N r : Nat) : Nat :=
  cosSeries ((piScaled * r / (4 * N)) ^ 2 / fixOne) 24 0

/-- `COSQ(N, r)` in the first quadrant, `0 ≤ r ≤ 2N`: scaled by 2^31, rounded to nearest, clamped (R75). -/
def cosqQuarter (N r : Nat) : Int :=
  min (2 ^ 31 - 1) (((quarterCos N r * 2 ^ 31 + 2 ^ 127) / fixOne : Nat) : Int)

/-- `COSQ(N, m)` of R75, the coefficient ROM. It depends only on `m mod 8N`; the other quadrants follow
from `COSQ(N, −m) = COSQ(N, m)` and `COSQ(N, 4N − m) = −COSQ(N, m)`. -/
def cosq (N : Nat) (m : Int) : Int :=
  let r := (m % (8 * N : Nat)).toNat
  let q := if 4 * N < r then 8 * N - r else r
  if 2 * N < q then -cosqQuarter N (4 * N - q) else cosqQuarter N q

/-- `K(N, a)` of R76, the type-IV kernel, evaluated exactly. -/
def kernel (N : Nat) (a : List Int) : List Int :=
  (List.range N).map fun k =>
    (List.zipWith (fun x n => x * cosq N ((2 * n + 1) * (2 * k + 1) : Nat)) a (List.range N)).sum

end Sys2Proof.Machine
end

