-- ==== Sys2Proof/Decode.lean ====
section
/-! DEFINITION. Command word decoding, and the encoder written from the same table
(spec/30_encoding.md R55, R57, R60; spec/opcode_table.json). -/

namespace Sys2Proof

/-- Why a word is no command (R60): an unassigned opcode, or a legal opcode with an illegal field. -/
inductive DecodeError where
  | illegalOpcode
  | illegalField
  deriving DecidableEq, Repr

/-- `OPC`, bits 31:24 of the command word (R55). -/
def opcField (w : Word) : BitVec 8 := w.extractLsb' 24 8

/-- `RSV1`, bits 23:12 (R55). -/
def rsv1Field (w : Word) : BitVec 12 := w.extractLsb' 12 12

/-- `CH`, bits 11:8 (R55). -/
def chField (w : Word) : BitVec 4 := w.extractLsb' 8 4

/-- `RSV0`, bits 7:1 (R55). -/
def rsv0Field (w : Word) : BitVec 7 := w.extractLsb' 1 7

/-- `M`, bit 0 (R55). -/
def mField (w : Word) : BitVec 1 := w.extractLsb' 0 1

/-- A command that takes neither channel nor modifier: all other fields 0 (R56 step 3). -/
def decodePlain (w : Word) (i : Instr) : Except DecodeError Instr :=
  if rsv1Field w = 0 ∧ rsv0Field w = 0 ∧ mField w = 0 ∧ chField w = 0 then .ok i
  else .error .illegalField

/-- A command that takes a channel and no modifier (R56 step 3). The check `CH < NCH` "is on top of the
mask" (R57) and is made when the command completes. -/
def decodeChan (w : Word) (f : Chan → Instr) : Except DecodeError Instr :=
  if rsv1Field w = 0 ∧ rsv0Field w = 0 ∧ mField w = 0 then .ok (f (chField w).toFin)
  else .error .illegalField

/-- A command that takes the modifier and no channel (R56 step 3, R59). -/
def decodeMod (w : Word) (f : Bool → Instr) : Except DecodeError Instr :=
  if rsv1Field w = 0 ∧ rsv0Field w = 0 ∧ chField w = 0 then .ok (f (decide (mField w = 1)))
  else .error .illegalField

/-- Decode a command word (R56 steps 2 and 3, R57, R60): total on all 2^32 words. The opcode is looked
at before the fields. -/
def decode (w : Word) : Except DecodeError Instr :=
  match (opcField w).toNat with
  | 0x00 => decodePlain w .nop
  | 0x10 => decodeChan w .init
  | 0x11 => decodeChan w .free
  | 0x12 => decodeChan w .ctxld
  | 0x14 => decodeChan w .fwd
  | 0x18 => decodeChan w .adapt
  | 0x19 => decodePlain w .gain
  | 0x1A => decodeChan w .inv
  | 0x1B => decodeChan w .drain
  | 0x1C => decodeChan w .peek
  | 0x20 => decodePlain w .rcinit
  | 0x21 => decodeMod w .rcallow
  | 0x22 => decodeMod w .rcupd
  | _ => .error .illegalOpcode

/-- Column `OPC` of R57. -/
def opcode : Instr → BitVec 8
  | .nop => 0x00#8
  | .init _ => 0x10#8
  | .free _ => 0x11#8
  | .ctxld _ => 0x12#8
  | .fwd _ => 0x14#8
  | .adapt _ => 0x18#8
  | .gain => 0x19#8
  | .inv _ => 0x1A#8
  | .drain _ => 0x1B#8
  | .peek _ => 0x1C#8
  | .rcinit => 0x20#8
  | .rcallow _ => 0x21#8
  | .rcupd _ => 0x22#8

/-- The `CH` field of a command: its channel, or 0 where it takes none (R55). -/
def chanBits (i : Instr) : BitVec 4 :=
  match i.chan? with
  | some ch => BitVec.ofFin ch
  | none => 0#4

/-- The `M` field of a command: its modifier, or 0 where none is defined (R55, R59). -/
def modBits (i : Instr) : BitVec 1 :=
  match i.modifier? with
  | some m => BitVec.ofBool m
  | none => 0#1

/-- The command word of a command (R55): `OPC`, `RSV1 = 0`, `CH`, `RSV0 = 0`, `M`. -/
def encode (i : Instr) : Word :=
  opcode i ++ 0#12 ++ chanBits i ++ 0#7 ++ modBits i

/-- The instruction the decoder reads from an instruction of `nbits` bits whose bits are `w`, numbered as
spec/opcode_table.json numbers them. A command is one 32-bit word (R55); bits above `nbits` are 0. -/
def decodeTableWord (nbits w : Nat) : Option Instr :=
  match decode (w32n (w % 2 ^ nbits)) with
  | .ok i => some i
  | .error _ => none

end Sys2Proof
end

