-- ==== Sys2Proof/Machine/Flags.lean ====
section
/-! DEFINITION. Status codes, sticky flags and the interrupt: their bits and how they change
(spec/10_state.md R15 to R17, spec/60_exceptions.md R135, R141). -/

namespace Sys2Proof.Machine

/-- Column "code" of R135. -/
def Code.byte : Code → BitVec 8
  | .ok => 0x00#8
  | .eIllop => 0x20#8
  | .eIllfld => 0x21#8
  | .eFatal => 0x22#8
  | .eNoctx => 0x23#8
  | .eDir => 0x24#8
  | .eTl => 0x25#8
  | .eGeom => 0x26#8
  | .eAdapt => 0x27#8
  | .eDmem => 0x28#8
  | .eWmem => 0x29#8
  | .eOvmem => 0x2A#8
  | .eOvsize => 0x2B#8
  | .eOvfull => 0x2C#8
  | .eCount => 0x2D#8
  | .eExp => 0x2E#8
  | .eCtxld => 0x2F#8
  | .eRcNotinit => 0x30#8
  | .eRcCfg => 0x31#8
  | .eRcParam => 0x32#8
  | .wResUf => 0x41#8
  | .wResOf => 0x42#8
  | .eInternal => 0x7F#8

/-- The class "refusal" of R135: codes `0x20 … 0x3F`, nothing committed. -/
def Code.isRefusal (c : Code) : Bool := decide (0x20 ≤ c.byte.toNat) && decide (c.byte.toNat ≤ 0x3F)

/-- The class "event" of R135: codes `0x40 … 0x5F`, result committed. -/
def Code.isEvent (c : Code) : Bool := decide (0x40 ≤ c.byte.toNat) && decide (c.byte.toNat ≤ 0x5F)

/-- Whether the complete step of a command with this code writes `RET <- 0` (spec/30_encoding.md R56):
a refusal or `E_INTERNAL`. -/
def Code.zeroesRet (c : Code) : Bool := c.isRefusal || decide (c = .eInternal)

/-- Whether a command with this code sets `IRQSTAT.DONE` (R17): `0x00` or `0x40 … 0x5F`. -/
def Code.setsDone (c : Code) : Bool := decide (c = .ok) || c.isEvent

/-- Whether a command with this code sets `IRQSTAT.ERR` (R17): any code but `0x00`. -/
def Code.setsErr (c : Code) : Bool := decide (c ≠ .ok)

/-- The update of `IRQSTAT` at a complete step (R17, R141): the bits are sticky. -/
def IrqBits.raise (q : IrqBits) (c : Code) : IrqBits where
  done := q.done || c.setsDone
  err := q.err || c.setsErr

/-- Bit `i` of a word. -/
def bitOf (w : Word) (i : Nat) : Bool := w.getLsbD i

/-- The word of `IRQEN` or `IRQSTAT` as the host reads it (R17): unlisted bits read 0. -/
def IrqBits.word (q : IrqBits) : Word := 0#30 ++ BitVec.ofBool q.err ++ BitVec.ofBool q.done

/-- A host write of `IRQEN` (R17): bits 1:0 are stored, the others ignored. -/
def IrqBits.ofWord (w : Word) : IrqBits where
  done := bitOf w 0
  err := bitOf w 1

/-- A host write of `IRQSTAT` (R17): write one to clear. -/
def IrqBits.clear (q : IrqBits) (w : Word) : IrqBits where
  done := q.done && !bitOf w 0
  err := q.err && !bitOf w 1

/-- The word of `FLAGS` as the host reads it (R16). -/
def Flags.word (f : Flags) : Word :=
  0#29 ++ BitVec.ofBool f.rcOf ++ BitVec.ofBool f.rcUf ++ BitVec.ofBool f.sat

/-- A host write of `FLAGS` (R16): write one to clear. -/
def Flags.clear (f : Flags) (w : Word) : Flags where
  sat := f.sat && !bitOf w 0
  rcUf := f.rcUf && !bitOf w 1
  rcOf := f.rcOf && !bitOf w 2

/-- The sticky `SAT` flag after evaluations of `sat32` of which some clamped iff `b` (R72). -/
def Flags.raiseSat (f : Flags) (b : Bool) : Flags := { f with sat := f.sat || b }

/-- `FLAGS.RC_UF <- 1` (spec/44_rate_control.md R127). -/
def Flags.raiseUf (f : Flags) : Flags := { f with rcUf := true }

/-- `FLAGS.RC_OF <- 1` (R127). -/
def Flags.raiseOf (f : Flags) : Flags := { f with rcOf := true }

/-- The word of `STATUS` as the host reads it (R15). -/
def Status.word (t : Status) : Word :=
  BitVec.ofBool t.busy ++ BitVec.ofBool t.fatal ++ 0#10 ++ t.lastCh ++ t.lastOp ++ t.code.byte

/-- The interrupt output `irq` (R17, R141): the level `(IRQSTAT & IRQEN) ≠ 0`. -/
def State.irq (s : State) : Bool := (s.irqStat.done && s.irqEn.done) || (s.irqStat.err && s.irqEn.err)

end Sys2Proof.Machine
end

