-- ==== Sys2Proof/Machine/Ops.lean ====
section
/-! DEFINITION. The named operations over registers and memories, the context invariant the engine
re-checks, and how a command completes: normally, refused, or fatally (spec/20_memory.md R42 to R45,
spec/10_state.md R21, spec/30_encoding.md R56, spec/60_exceptions.md R137, R146). -/

namespace Sys2Proof.Machine

/-! ## Memories -/

/-- The byte listed at an offset, if there is one. -/
def Memory.find? (m : Memory) (b : Nat) : Option Byte := m.lookup b

/-- Store one byte, keeping the offsets strictly rising. -/
def Memory.putByte : Memory → Nat → Byte → Memory
  | [], b, v => [(b, v)]
  | (k, x) :: m, b, v =>
    if b < k then (b, v) :: (k, x) :: m
    else if b = k then (b, v) :: m
    else (k, x) :: Memory.putByte m b v

/-- Store one word: bits 7:0 at the lowest byte offset (R38). -/
def Memory.putWord (m : Memory) (a : Nat) (v : Word) : Memory :=
  (((m.putByte (4 * a + 3) (v.extractLsb' 24 8)).putByte (4 * a + 2) (v.extractLsb' 16 8)).putByte
    (4 * a + 1) (v.extractLsb' 8 8)).putByte (4 * a) (v.extractLsb' 0 8)

/-- Store words at consecutive word addresses from `a` on. -/
def Memory.putWords (m : Memory) (a : Nat) : List Word → Memory
  | [] => m
  | v :: vs => (Memory.putWords m (a + 1) vs).putWord a v

/-- One of the three memories of a state. -/
def State.mem (s : State) : Space → Memory
  | .dm => s.dmem
  | .wm => s.wmem
  | .ov => s.ovmem

/-- Replace one of the three memories. -/
def State.setMem (s : State) (sp : Space) (m : Memory) : State :=
  match sp with
  | .dm => { s with dmem := m }
  | .wm => { s with wmem := m }
  | .ov => { s with ovmem := m }

/-- The byte at offset `b` of a memory: what was last written there, or, where nothing has been written
since hard reset, the free value of R160 and U1 (assumption log 2). The ONE definition of what an
unlisted offset reads as. -/
def State.byteAt (s : State) (sp : Space) (b : Nat) : Byte :=
  ((s.mem sp).find? b).getD (Config.freeByte sp s.epoch b)

/-- `S[a]` (R42): the 32-bit pattern stored at word address `a`. -/
def State.wordAt (s : State) (sp : Space) (a : Nat) : Word :=
  s.byteAt sp (4 * a + 3) ++ s.byteAt sp (4 * a + 2) ++ s.byteAt sp (4 * a + 1) ++ s.byteAt sp (4 * a)

/-- `S[a] <- v` (R42). -/
def State.setWord (s : State) (sp : Space) (a : Nat) (v : Word) : State :=
  s.setMem sp ((s.mem sp).putWord a v)

/-- `MemRead(S, a, n)` (spec/00_scope.md R7, R42): `n` words at consecutive addresses. Address arithmetic
is on unbounded integers and never wraps (R43); a region that does not lie inside the memory is a
fault. -/
def memRead (sp : Space) (a n : Nat) (s : State) : Except Fault (List Word) :=
  if a + n ≤ s.cfg.words sp then .ok ((List.range n).map fun i => s.wordAt sp (a + i))
  else .error (.outOfRange sp a n)

/-- `MemWrite(S, a, n, vs)` (R7, R42) with `n` the length of `vs`. -/
def memWrite (sp : Space) (a : Nat) (vs : List Word) (s : State) : Except Fault State :=
  if a + vs.length ≤ s.cfg.words sp then .ok (s.setMem sp ((s.mem sp).putWords a vs))
  else .error (.outOfRange sp a vs.length)

/-! ## Registers -/

/-- `A[i]` (R7). -/
def State.arg (s : State) (i : Fin 16) : Word := s.args[i]

/-- `A[i] <- v` (R7). -/
def State.setArg (s : State) (i : Fin 16) (v : Word) : State := { s with args := s.args.set i v }

/-- `RET <- v` (R7, R13). -/
def State.setRet (s : State) (v : Word) : State := { s with ret := v }

/-- `CTX[c]` (R20). -/
def State.ctx (s : State) (c : Chan) : Ctx := s.ctxs[c]

/-- `CTX[c] <- x`. -/
def State.setCtx (s : State) (c : Chan) (x : Ctx) : State := { s with ctxs := s.ctxs.set c x }

/-- Replace the rate-control record. -/
def State.setRc (s : State) (r : RateCtl) : State := { s with rc := r }

/-- Replace the sticky flags. -/
def State.setFlags (s : State) (f : Flags) : State := { s with flags := f }

/-! ## The context invariant -/

/-- `DIR` from a whole word (R88: "`A[3]` is compared as a whole word: any value above 2 is an illegal
`DIR`"). -/
def Dir.ofWord (w : Word) : Dir :=
  match w.toNat with
  | 0 => .none
  | 1 => .fwd
  | 2 => .inv
  | _ => .illegal

/-- The two bits of `DIR` (R20). -/
def Dir.bits : Dir → BitVec 2
  | .none => 0#2
  | .fwd => 1#2
  | .inv => 2#2
  | .illegal => 3#2

/-- Whether the region `[base, base + size)` intersects the region of a context (R86 check 4). -/
abbrev Ctx.Meets (o : Ctx) (base size : Nat) : Prop :=
  base < o.ovBase.toNat + o.ovSize.toNat ∧ o.ovBase.toNat < base + size

/-- The region `[base, base + size)` is disjoint from the region of every valid context of a channel
other than `c` (R21 item 2, R86 check 4). -/
abbrev State.RegionFree (s : State) (c : Chan) (base size : Nat) : Prop :=
  ∀ o : Chan, o.val < s.cfg.nch → o ≠ c → (s.ctx o).valid = true → ¬ (s.ctx o).Meets base size

/-- Items 1 to 7 of `CtxInv` (spec/10_state.md R21) for the context image `x` placed in channel `c`, with
the other channels as they are. -/
abbrev State.CtxInv (s : State) (c : Chan) (x : Ctx) : Prop :=
  (x.tlMax.toNat % 2 = 0 ∧ 2 ≤ x.tlMax.toNat ∧ x.tlMax.toNat ≤ s.cfg.tlMax) ∧
  (x.tlMax.toNat ≤ x.ovSize.toNat ∧ x.ovBase.toNat + x.ovSize.toNat ≤ s.cfg.ovWords ∧
    s.RegionFree c x.ovBase.toNat x.ovSize.toNat) ∧
  x.dir ≠ .illegal ∧
  (x.dir = .none → x.fill = 0 ∧ x.prevWrs = 0 ∧ x.prevTl = 0 ∧ x.prevNr = 0 ∧ x.prevFr = 0) ∧
  (x.dir ≠ .none →
    (x.prevTl.toNat % 2 = 0 ∧ 2 ≤ x.prevTl.toNat ∧ x.prevTl.toNat ≤ x.tlMax.toNat) ∧
    (x.prevFr.toNat % 2 = 0 ∧ x.prevFr.toNat ≤ x.prevTl.toNat) ∧
    x.prevNr.toNat = (x.prevTl.toNat - x.prevFr.toNat) / 2 ∧
    x.prevWrs.toNat + x.prevFr.toNat ≤ s.cfg.wmWords) ∧
  (x.dir = .fwd → x.fill.toNat = x.prevFr.toNat / 2 + x.tlMax.toNat / 2) ∧
  (x.dir = .inv → x.fill.toNat + x.prevTl.toNat / 2 ≤ x.ovSize.toNat)

/-! ## Completing a command -/

/-- What every complete step does last (R56): `CODE`, `LASTOP`, `LASTCH`, `RET <- 0` for a refusal or
`E_INTERNAL`, `IRQSTAT`, `BUSY <- 0`. -/
def finish (op : BitVec 8) (ch : BitVec 4) (c : Code) (s : State) : State :=
  { s with
    status := { s.status with code := c, lastOp := op, lastCh := ch, busy := false }
    ret := if c.zeroesRet then 0#32 else s.ret
    irqStat := s.irqStat.raise c }

/-- TAKING AN EXCEPTION: a command that is refused changes what R137 lists and nothing else. -/
def refuse (op : BitVec 8) (ch : BitVec 4) (c : Code) (s : State) : State := finish op ch c s

/-- Entering the fatal state (R146): as a refusal, with code `E_INTERNAL` and `FATAL <- 1`. It is left
only by a reset (Machine/HostPort.lean); a refusal needs no return (R138). -/
def enterFatal (op : BitVec 8) (ch : BitVec 4) (s : State) : State :=
  finish op ch .eInternal { s with status := { s.status with fatal := true } }

/-- One check of a command's rule: whether it fails, and the code it then refuses with. -/
abbrev Check := Bool × Code

/-- "all checks of the command are made first, in the order the command's rule lists them … the first
failing check refuses the command" (spec/00_scope.md R8). -/
def firstFailure : List Check → Option Code
  | [] => none
  | (fails, c) :: rest => if fails then some c else firstFailure rest

/-- R56 step 6: run a command's own rule. `checks` and `effect` are given the state before the command;
`effect` answers the state after it and its code. -/
def runRule (op : BitVec 8) (ch : BitVec 4) (checks : State → List Check)
    (effect : State → Except Fault (State × Code)) (s : State) : Host.Outcome State Fault Refusal :=
  match firstFailure (checks s) with
  | some c => .next (refuse op ch c s)
  | none =>
    match effect s with
    | .ok (t, c) => .next (finish op ch c t)
    | .error f => .fault f

/-- A command that takes no channel: R56 step 1, then its rule. -/
def runGlobal (op : BitVec 8) (checks : State → List Check)
    (effect : State → Except Fault (State × Code)) (s : State) : Host.Outcome State Fault Refusal :=
  if s.status.fatal then .next (refuse op 0#4 .eFatal s) else runRule op 0#4 checks effect s

/-- A command that takes a channel: R56 steps 1 and 3 (`CH ≥ NCH`), then its rule. -/
def runChannel (op : BitVec 8) (ch : Chan) (checks : State → List Check)
    (effect : State → Except Fault (State × Code)) (s : State) : Host.Outcome State Fault Refusal :=
  if s.status.fatal then .next (refuse op (BitVec.ofFin ch) .eFatal s)
  else if s.cfg.nch ≤ ch.val then .next (refuse op (BitVec.ofFin ch) .eIllfld s)
  else runRule op (BitVec.ofFin ch) checks effect s

/-- A command on a bound context (`FWD`, `ADAPT`, `INV`, `DRAIN`, `PEEK`): R56 steps 1, 3, 4
(`E_NOCTX`), 5 (the re-check of `CtxInv`), then its rule. -/
def runContext (op : BitVec 8) (ch : Chan) (checks : State → List Check)
    (effect : State → Except Fault (State × Code)) (s : State) : Host.Outcome State Fault Refusal :=
  if s.status.fatal then .next (refuse op (BitVec.ofFin ch) .eFatal s)
  else if s.cfg.nch ≤ ch.val then .next (refuse op (BitVec.ofFin ch) .eIllfld s)
  else if (s.ctx ch).valid = false then .next (refuse op (BitVec.ofFin ch) .eNoctx s)
  else if ¬ s.CtxInv ch (s.ctx ch) then .next (enterFatal op (BitVec.ofFin ch) s)
  else runRule op (BitVec.ofFin ch) checks effect s

/-- The code a word that is no command is refused with (R56 steps 2 and 3, R60). -/
def illegalCode : DecodeError → Code
  | .illegalOpcode => .eIllop
  | .illegalField => .eIllfld

/-- Completing a latched word that is no command: `E_FATAL` first, then `E_ILLOP` or `E_ILLFLD`
(R56 steps 1 to 3, R140). `LASTOP` and `LASTCH` come from the word. -/
def completeIllegal (e : DecodeError) (s : State) : State :=
  refuse (opcField s.latch) (chField s.latch) (if s.status.fatal then .eFatal else illegalCode e) s

end Sys2Proof.Machine
end

