-- ==== Sys2Proof/Machine/Operands.lean ====
section
/-! DEFINITION. The operands of every command (spec/30_encoding.md R61, R62): which argument register
carries which operand, and whether it is taken as `u( )` (addresses, counts, lengths, bit counts) or as
`s( )` (exponents and mantissas). -/

namespace Sys2Proof.Machine

/-- `u(A[i])`. -/
def State.uarg (s : State) (i : Fin 16) : Nat := u32 (s.arg i)

/-- `s(A[i])`. -/
def State.sarg (s : State) (i : Fin 16) : Int := s32 (s.arg i)

/-- Operands of `INIT`: `OVB`, `OVS`, `TLM` in A0 to A2. -/
structure InitOperands where
  base : Nat
  size : Nat
  tlmax : Nat

/-- Read the operands of `INIT`. -/
def initOperands (s : State) : InitOperands where
  base := s.uarg 0
  size := s.uarg 1
  tlmax := s.uarg 2

/-- Operands of `CTXLD` in A0 to A8: the fields of a context in the order of R20, with `VALID = 1`
(R88). -/
def ctxldImage (s : State) : Ctx where
  valid := true
  dir := Dir.ofWord (s.arg 3)
  ovBase := s.arg 0
  ovSize := s.arg 1
  tlMax := s.arg 2
  fill := s.arg 4
  prevWrs := s.arg 5
  prevTl := s.arg 6
  prevNr := s.arg 7
  prevFr := s.arg 8

/-- Operands of `FWD`: `IN`, `SCALE`, `TL`, `NR`, `FR`, `WRS`, `OUT` in A0 to A6. -/
structure FwdOperands where
  inp : Nat
  eIn : Int
  tl : Nat
  nr : Nat
  fr : Nat
  wrs : Nat
  out : Nat

/-- Read the operands of `FWD`. -/
def fwdOperands (s : State) : FwdOperands where
  inp := s.uarg 0
  eIn := s.sarg 1
  tl := s.uarg 2
  nr := s.uarg 3
  fr := s.uarg 4
  wrs := s.uarg 5
  out := s.uarg 6

/-- Operands of `ADAPT`: `FL` in A0, `TL`, `WLS`, `NOUT` in A2 to A4 (A1 is an output only). -/
structure AdaptOperands where
  fl : Nat
  tl : Nat
  wls : Nat
  nout : Nat

/-- Read the operands of `ADAPT`. -/
def adaptOperands (s : State) : AdaptOperands where
  fl := s.uarg 0
  tl := s.uarg 2
  wls := s.uarg 3
  nout := s.uarg 4

/-- The operand of `GAIN`: `TL` in A2 (A0 and A1 are outputs only). -/
def gainOperand (s : State) : Nat := s.uarg 2

/-- Operands of `INV` in A0 to A11. A5 (`WLS`) "is not read, not checked and not used"
(spec/43_inverse_transform.md R110). -/
structure InvOperands where
  spec : Nat
  scl : Nat
  nspec : Nat
  nout : Nat
  tl : Nat
  fl : Nat
  wrs : Nat
  fr : Nat
  gm : Int
  ge : Int
  out : Nat

/-- Read the operands of `INV`. -/
def invOperands (s : State) : InvOperands where
  spec := s.uarg 0
  scl := s.uarg 1
  nspec := s.uarg 2
  nout := s.uarg 3
  tl := s.uarg 4
  fl := s.uarg 6
  wrs := s.uarg 7
  fr := s.uarg 8
  gm := s.sarg 9
  ge := s.sarg 10
  out := s.uarg 11

/-- Operands of `DRAIN` (`OUT`, `ROOM`) and of `PEEK` (`OUT`, `COUNT`) in A0 and A1. -/
structure CopyOperands where
  out : Nat
  count : Nat

/-- Read the operands of `DRAIN` or `PEEK`. -/
def copyOperands (s : State) : CopyOperands where
  out := s.uarg 0
  count := s.uarg 1

/-- Operands of `RCINIT` in A0 to A5. -/
structure RcinitOperands where
  size : Nat
  mn : Nat
  mx : Nat
  avg : Nat
  borrow : Nat
  level0 : Nat

/-- Read the operands of `RCINIT`. -/
def rcinitOperands (s : State) : RcinitOperands where
  size := s.uarg 0
  mn := s.uarg 1
  mx := s.uarg 2
  avg := s.uarg 3
  borrow := s.uarg 4
  level0 := s.uarg 5

/-- The budget of `RCALLOW` and `RCUPD` (R59): `u(A[0])` for `M = 0`, `RC_AVG` for `M = 1`. -/
def budgetOperand (m : Bool) (s : State) : Nat := if m then u32 s.rc.avg else s.uarg 0

/-- `ACTUAL` of `RCUPD`, in A1. -/
def actualOperand (s : State) : Nat := s.uarg 1

/-- The limit on count operands (R62) and on the quantities of the rate commands: 2^31. -/
abbrev countLimit : Nat := 2147483648

/-- A transform length is refused with `E_TL` when it is odd, below 2, or above the bound
(spec/60_exceptions.md R135). -/
def badTl (tl bound : Nat) : Bool := decide (tl % 2 = 1 ∨ tl < 2 ∨ bound < tl)

end Sys2Proof.Machine
end

