-- ==== Sys2Proof/Machine/Context.lean ====
section
/-! DEFINITION. The commands `NOP`, `INIT`, `FREE`, `CTXLD`, `GAIN` (spec/41_context_commands.md). -/

namespace Sys2Proof.Machine

/-! ## NOP (R85) -/

/-- Effect of `NOP`: `RET <- 0`. -/
def nopEffect (s : State) : Except Fault (State × Code) := .ok (s.setRet 0#32, .ok)

/-- `NOP` (R85): no checks. -/
def execNop (s : State) : Host.Outcome State Fault Refusal :=
  runGlobal 0x00#8 (fun _ => []) nopEffect s

/-! ## INIT (R86) -/

/-- The checks of R86, in order. -/
def initChecks (ch : Chan) (s : State) : List Check :=
  let o := initOperands s
  [ (badTl o.tlmax s.cfg.tlMax, .eTl),
    (decide (o.size < o.tlmax), .eOvsize),
    (decide (s.cfg.ovWords < o.base + o.size), .eOvmem),
    (decide (¬ s.RegionFree ch o.base o.size), .eOvmem) ]

/-- The context that `INIT` binds (R86): fresh, with the region and the declared largest length. -/
def initContext (s : State) : Ctx :=
  { Ctx.blank with valid := true, ovBase := s.arg 0, ovSize := s.arg 1, tlMax := s.arg 2 }

/-- Effect of `INIT` (R86): bind the context and zero its region. -/
def initEffect (ch : Chan) (s : State) : Except Fault (State × Code) := do
  let o := initOperands s
  let t ← memWrite .ov o.base (List.replicate o.size 0#32) s
  .ok ((t.setCtx ch (initContext s)).setRet 0#32, .ok)

/-- `INIT` (R86). -/
def execInit (ch : Chan) (s : State) : Host.Outcome State Fault Refusal :=
  runChannel 0x10#8 ch (initChecks ch) (initEffect ch) s

/-! ## FREE (R87) -/

/-- Effect of `FREE` (R87): all fields of the context become 0. -/
def freeEffect (ch : Chan) (s : State) : Except Fault (State × Code) :=
  .ok ((s.setCtx ch Ctx.blank).setRet 0#32, .ok)

/-- `FREE` (R87): no checks; idempotent. -/
def execFree (ch : Chan) (s : State) : Host.Outcome State Fault Refusal :=
  runChannel 0x11#8 ch (fun _ => []) (freeEffect ch) s

/-! ## CTXLD (R88) -/

/-- The check of R88: the image satisfies `CtxInv` placed in channel `ch`. -/
def ctxldChecks (ch : Chan) (s : State) : List Check :=
  [ (decide (¬ s.CtxInv ch (ctxldImage s)), .eCtxld) ]

/-- Effect of `CTXLD` (R88): `CTX[N] <- img`. -/
def ctxldEffect (ch : Chan) (s : State) : Except Fault (State × Code) :=
  .ok ((s.setCtx ch (ctxldImage s)).setRet 0#32, .ok)

/-- `CTXLD` (R88). -/
def execCtxld (ch : Chan) (s : State) : Host.Outcome State Fault Refusal :=
  runChannel 0x12#8 ch (ctxldChecks ch) (ctxldEffect ch) s

/-! ## GAIN (R89) -/

/-- The mantissa of R89: `2^30` for a power of two, else `floor(2^(31+L) / tl + 1/2)`. -/
def gainMantissa (tl : Nat) : Nat :=
  if tl = 2 ^ flog2 tl then 2 ^ 30 else (2 ^ (32 + flog2 tl) / tl + 1) / 2

/-- The exponent of R89. -/
def gainExponent (tl : Nat) (outGainE : Int) : Int :=
  if tl = 2 ^ flog2 tl then 2 - (flog2 tl : Int) - outGainE else 1 - (flog2 tl : Int) - outGainE

/-- The check of R89. -/
def gainChecks (s : State) : List Check := [ (badTl (gainOperand s) s.cfg.tlMax, .eTl) ]

/-- Effect of `GAIN` (R89): the pair in A0 and A1. -/
def gainEffect (s : State) : Except Fault (State × Code) :=
  let tl := gainOperand s
  .ok (((s.setArg 0 (w32n (gainMantissa tl))).setArg 1 (w32 (gainExponent tl s.cfg.outGainE))).setRet 0#32,
    .ok)

/-- `GAIN` (R89). -/
def execGain (s : State) : Host.Outcome State Fault Refusal :=
  runGlobal 0x19#8 gainChecks gainEffect s

end Sys2Proof.Machine
end

