-- ==== Sys2Proof/Machine/Forward.lean ====
section
/-! DEFINITION. The command `FWD`, one windowed forward block (spec/42_forward_transform.md). -/

namespace Sys2Proof.Machine

/-- The checks of R95, in order. -/
def fwdChecks (ch : Chan) (s : State) : List Check :=
  let o := fwdOperands s
  let x := s.ctx ch
  [ (decide (x.dir = .inv), .eDir),
    (badTl o.tl x.tlMax.toNat, .eTl),
    (decide (o.fr % 2 = 1 ∨ o.tl < o.fr ∨ o.nr ≠ (o.tl - o.fr) / 2 ∨ o.tl < x.prevFr.toNat), .eGeom),
    (decide (i32Max < o.eIn + hs o.tl), .eExp),
    (decide (s.cfg.wmWords < o.wrs + o.fr), .eWmem),
    (decide (s.cfg.dmWords < o.inp + o.tl ∨ s.cfg.dmWords < o.out + o.tl), .eDmem) ]

/-- How many samples the overlap region holds for the next block (R96): `FILL` of a forward context, the
look-ahead `LA = TLMAX/2` of a fresh one. -/
def fwdFill (x : Ctx) : Nat := if x.dir = .fwd then x.fill.toNat else x.tlMax.toNat / 2

/-- The window product `Pz(n)` (R97) at block position `n`: `T` is the sample line (`S(d) = T[d + pfr/2]`,
`d = n − tl/2`, R96), `lt` the left slope table (length `pfr`), `rt` the right one (length `fr`). -/
def windowProduct (tl pfr fr nr : Nat) (T lt rt : List Int) (n : Nat) : Int :=
  let nl := (tl - pfr) / 2
  let sample := T.getD (n + pfr / 2 - tl / 2) 0
  if n < nl then 0
  else if n < nl + pfr then sample * lt.getD (n - nl) 0
  else if n < tl + nr then sample * 2 ^ 31
  else if n < tl + nr + fr then sample * rt.getD (fr - 1 - (n - tl - nr)) 0
  else 0

/-- The folded block `P[n]` (R98). -/
def foldBlock (N : Nat) (pz : Nat → Int) (n : Nat) : Int :=
  if n < N / 2 then -pz (3 * N / 2 - 1 - n) - pz (3 * N / 2 + n)
  else pz (n - N / 2) - pz (3 * N / 2 - 1 - n)

/-- `U` of R98: the folded block after the first rounding. -/
def foldedBlock (tl pfr fr nr : Nat) (T lt rt : List Int) : List Int :=
  (List.range tl).map fun n => rshr (foldBlock tl (windowProduct tl pfr fr nr T lt rt) n) 31

/-- `X` of R98 with the flags of its `sat32`: kernel and second rounding. -/
def spectrum (tl : Nat) (U : List Int) : List (Int × Bool) :=
  (kernel tl U).map fun y => satPair (rshr y (31 + hs tl))

/-- The context after `FWD` (R100). -/
def fwdContext (s : State) (x : Ctx) : Ctx :=
  let o := fwdOperands s
  { x with
    dir := .fwd
    fill := w32n (o.fr / 2 + x.tlMax.toNat / 2)
    prevWrs := s.arg 5
    prevTl := s.arg 2
    prevNr := s.arg 3
    prevFr := s.arg 4 }

/-- Effect of `FWD` (R95 to R100): every read is of the state before the command, then the spectrum, the
kept samples (R99), the context, `A[1]` and `RET` are written. -/
def fwdEffect (ch : Chan) (s : State) : Except Fault (State × Code) := do
  let o := fwdOperands s
  let x := s.ctx ch
  let b := x.ovBase.toNat
  let pfr := x.prevFr.toNat
  let line ← memRead .ov b (fwdFill x) s
  let new ← memRead .dm o.inp o.tl s
  let lt ← memRead .wm x.prevWrs.toNat pfr s
  let rt ← memRead .wm o.wrs o.fr s
  let T := line ++ new
  let X := spectrum o.tl
    (foldedBlock o.tl pfr o.fr o.nr (T.map s32) (lt.map s32) (rt.map s32))
  let keep := (T.drop (o.tl + pfr / 2 - o.fr / 2)).take (o.fr / 2 + x.tlMax.toNat / 2)
  let t ← memWrite .dm o.out (X.map fun p => w32 p.1) s
  let t ← memWrite .ov b keep t
  let t := t.setCtx ch (fwdContext s x)
  let t := t.setArg 1 (w32 (o.eIn + hs o.tl))
  let t := t.setFlags (s.flags.raiseSat (X.any fun p => p.2))
  .ok (t.setRet (w32n o.tl), .ok)

/-- `FWD` (R95). -/
def execFwd (ch : Chan) (s : State) : Host.Outcome State Fault Refusal :=
  runContext 0x14#8 ch (fwdChecks ch) (fwdEffect ch) s

end Sys2Proof.Machine
end

