-- ==== Sys2Proof/Machine/Inverse.lean ====
section
/-! DEFINITION. The commands of the inverse direction: `ADAPT`, `INV`, `DRAIN`, `PEEK`
(spec/43_inverse_transform.md). -/

namespace Sys2Proof.Machine

/-! ## ADAPT (R105, R106) -/

/-- The checks of R105, in order. -/
def adaptChecks (ch : Chan) (s : State) : List Check :=
  let o := adaptOperands s
  let x := s.ctx ch
  [ (decide (x.dir = .fwd), .eDir),
    (badTl o.tl x.tlMax.toNat, .eTl),
    (decide (o.fl % 2 = 1 ∨ o.tl < o.fl), .eGeom),
    (decide (x.dir = .none ∧ (o.nout % 2 = 1 ∨ o.nout < 2 ∨ x.tlMax.toNat < o.nout)), .eCount),
    (decide (x.dir = .none ∧ o.nout < o.fl), .eGeom),
    (decide (s.cfg.wmWords < o.wls + o.fl), .eWmem) ]

/-- The context after `ADAPT`, the left slope length `fl'` it answers, and the case number `how`
(R106). -/
def adaptCase (s : State) (x : Ctx) : Ctx × Nat × Nat :=
  let o := adaptOperands s
  if x.dir = .none then
    ({ x with
       dir := .inv
       fill := 0#32
       prevTl := s.arg 4
       prevFr := s.arg 0
       prevNr := w32n ((o.nout - o.fl) / 2)
       prevWrs := s.arg 3 }, o.fl, 3)
  else if o.fl = x.prevFr.toNat then (x, o.fl, 0)
  else if o.fl < x.prevFr.toNat then
    ({ x with
       prevFr := s.arg 0
       prevNr := w32n ((x.prevTl.toNat - o.fl) / 2)
       prevWrs := s.arg 3 }, o.fl, 1)
  else (x, x.prevFr.toNat, 2)

/-- Effect of `ADAPT` (R106). -/
def adaptEffect (ch : Chan) (s : State) : Except Fault (State × Code) :=
  let o := adaptOperands s
  let r := adaptCase s (s.ctx ch)
  let t := s.setCtx ch r.1
  let t := t.setArg 0 (w32n r.2.1)
  let t := t.setArg 1 (w32n ((o.tl - r.2.1) / 2))
  .ok (t.setRet (w32n r.2.2), .ok)

/-- `ADAPT` (R105). -/
def execAdapt (ch : Chan) (s : State) : Host.Outcome State Fault Refusal :=
  runContext 0x18#8 ch (adaptChecks ch) (adaptEffect ch) s

/-! ## INV (R109 to R116) -/

/-- `total` of R109 check 8: all the samples there are once the blocks of the call have been
transformed. -/
def invTotal (o : InvOperands) (x : Ctx) : Nat :=
  x.fill.toNat + x.prevTl.toNat / 2 + o.tl / 2 + (o.nspec - 1) * o.tl

/-- `ndel` of R109 check 8: how many of them are delivered. -/
def invDelivered (o : InvOperands) (x : Ctx) : Nat := min o.nout (invTotal o x)

/-- The checks of R109, in order. -/
def invChecks (ch : Chan) (s : State) : List Check :=
  let o := invOperands s
  let x := s.ctx ch
  let total := invTotal o x
  let ndel := invDelivered o x
  [ (decide (x.dir ≠ .inv), .eDir),
    (badTl o.tl x.tlMax.toNat, .eTl),
    (decide (o.fl ≠ x.prevFr.toNat), .eAdapt),
    (decide (o.tl < o.fl ∨ o.fr % 2 = 1 ∨ o.tl < o.fr), .eGeom),
    (decide (o.nspec < 1 ∨ countLimit ≤ o.nspec ∨ countLimit ≤ o.nout), .eCount),
    (decide (s.cfg.wmWords < o.wrs + o.fr), .eWmem),
    (decide (s.cfg.dmWords < o.spec + o.nspec * o.tl ∨ s.cfg.dmWords < o.scl + o.nspec), .eDmem),
    (decide (s.cfg.dmWords < o.out + ndel), .eDmem),
    (decide (x.ovSize.toNat < (total - ndel) + o.tl / 2), .eOvfull) ]

/-- `Tc` of R113 with the flags of its `sat32`: kernel, gain and the block's exponent, with `HR` bits of
headroom. -/
def scaledKernel (tl : Nat) (gm ge : Int) (X : List Int) (sw : Int) : List (Int × Bool) :=
  (kernel tl X).map fun y => satShift (y * gm) (62 - sw - ge + HR)

/-- R114: the samples block `w` adds, with the flags of their `sat32`. `r` and `f` are the previous right
offset and slope length, `ptl` the previous transform length (`P`), `tab` the previous right slope table,
`C` the carry, `Tc` the scaled kernel of the block. -/
def blockSamples (tl ptl f r : Nat) (tab C Tc : List Int) : List (Int × Bool) :=
  (List.range r).map (fun i => satPair (-C.getD (ptl / 2 - 1 - i) 0 * 2 ^ HR)) ++
  (List.range (f / 2)).map (fun i =>
    satPair (rshr (-C.getD (f / 2 - 1 - i) 0 * tab.getD (f - 1 - i) 0
      + Tc.getD (tl - f / 2 + i) 0 * tab.getD i 0) (31 - HR))) ++
  (List.range (f / 2)).map (fun j =>
    satPair (rshr (-C.getD j 0 * tab.getD (f / 2 - 1 - j) 0
      - Tc.getD (tl - 1 - j) 0 * tab.getD (f / 2 + j) 0) (31 - HR))) ++
  (List.range (tl / 2 - f / 2)).map (fun k => satPair (-Tc.getD (tl - 1 - (f / 2 + k)) 0 * 2 ^ HR))

/-- The working variables of the block loop (R111, R112): the samples so far `q`, the carry `c`, the
previous block's geometry and slope table, and whether any `sat32` has clamped. -/
structure InvWork where
  q : List Int
  c : List Int
  ptl : Nat
  f : Nat
  r : Nat
  tab : List Int
  sat : Bool

/-- One turn of the block loop (R112): R113, R114, then the carry and the geometry of this block become
those of the previous one. -/
def invBlock (tl fr : Nat) (gm ge : Int) (rt : List Int) (k : InvWork) (blk : List Int × Int) : InvWork :=
  let tcs := scaledKernel tl gm ge blk.1 blk.2
  let tc := tcs.map Prod.fst
  let news := blockSamples tl k.ptl k.f k.r k.tab k.c tc
  { q := k.q ++ news.map Prod.fst
    c := tc.take (tl / 2)
    ptl := tl
    f := fr
    r := (tl - fr) / 2
    tab := rt
    sat := k.sat || tcs.any Prod.snd || news.any Prod.snd }

/-- The blocks of a call (R111): block `w` is the `tl` mantissas from `w·tl` on with scale word `w`. -/
def invBlocks (nspec tl : Nat) (mants scales : List Int) : List (List Int × Int) :=
  (List.range nspec).map fun w => ((mants.drop (w * tl)).take tl, scales.getD w 0)

/-- The context after `INV` (R116). -/
def invContext (s : State) (x : Ctx) : Ctx :=
  let o := invOperands s
  { x with
    fill := w32n (invTotal o x - invDelivered o x)
    prevTl := s.arg 4
    prevFr := s.arg 8
    prevNr := w32n ((o.tl - o.fr) / 2)
    prevWrs := s.arg 7 }

/-- Effect of `INV` (R111 to R116): all reads are of the state before the command; then the delivered
samples, the new pending part, the new carry, the context and `RET`. -/
def invEffect (ch : Chan) (s : State) : Except Fault (State × Code) := do
  let o := invOperands s
  let x := s.ctx ch
  let b := x.ovBase.toNat
  let z := x.ovSize.toNat
  let ptl := x.prevTl.toNat
  let pend ← memRead .ov b x.fill.toNat s
  let carry ← memRead .ov (b + z - ptl / 2) (ptl / 2) s
  let mants ← memRead .dm o.spec (o.nspec * o.tl) s
  let scales ← memRead .dm o.scl o.nspec s
  let lt ← memRead .wm x.prevWrs.toNat x.prevFr.toNat s
  let rt ← memRead .wm o.wrs o.fr s
  let work := (invBlocks o.nspec o.tl (mants.map s32) (scales.map s32)).foldl
    (invBlock o.tl o.fr o.gm o.ge (rt.map s32))
    { q := pend.map s32
      c := carry.map s32
      ptl := ptl
      f := x.prevFr.toNat
      r := x.prevNr.toNat
      tab := lt.map s32
      sat := false }
  let ndel := invDelivered o x
  let t ← memWrite .dm o.out ((work.q.take ndel).map w32) s
  let t ← memWrite .ov b ((work.q.drop ndel).map w32) t
  let t ← memWrite .ov (b + z - o.tl / 2) (work.c.map w32) t
  let t := t.setCtx ch (invContext s x)
  let t := t.setFlags (s.flags.raiseSat work.sat)
  .ok (t.setRet (w32n ndel), .ok)

/-- `INV` (R109). -/
def execInv (ch : Chan) (s : State) : Host.Outcome State Fault Refusal :=
  runContext 0x1A#8 ch (invChecks ch) (invEffect ch) s

/-! ## DRAIN (R118) -/

/-- How many samples `DRAIN` takes: `min(fill, room)`. -/
def drainCount (ch : Chan) (s : State) : Nat := min (s.ctx ch).fill.toNat (copyOperands s).count

/-- The checks of R118, in order. -/
def drainChecks (ch : Chan) (s : State) : List Check :=
  let o := copyOperands s
  [ (decide ((s.ctx ch).dir ≠ .inv), .eDir),
    (decide (countLimit ≤ o.count), .eCount),
    (decide (s.cfg.dmWords < o.out + drainCount ch s), .eDmem) ]

/-- Effect of `DRAIN` (R118): the oldest samples leave, the rest moves down. -/
def drainEffect (ch : Chan) (s : State) : Except Fault (State × Code) := do
  let o := copyOperands s
  let x := s.ctx ch
  let n := drainCount ch s
  let old ← memRead .ov x.ovBase.toNat x.fill.toNat s
  let t ← memWrite .dm o.out (old.take n) s
  let t ← memWrite .ov x.ovBase.toNat (old.drop n) t
  let t := t.setCtx ch { x with fill := w32n (x.fill.toNat - n) }
  .ok (t.setRet (w32n n), .ok)

/-- `DRAIN` (R118). -/
def execDrain (ch : Chan) (s : State) : Host.Outcome State Fault Refusal :=
  runContext 0x1B#8 ch (drainChecks ch) (drainEffect ch) s

/-! ## PEEK (R119) -/

/-- How many samples `PEEK` shows: `min(cnt, fill + pnr)`. -/
def peekCount (ch : Chan) (s : State) : Nat :=
  min (copyOperands s).count ((s.ctx ch).fill.toNat + (s.ctx ch).prevNr.toNat)

/-- The checks of R119, in order. -/
def peekChecks (ch : Chan) (s : State) : List Check :=
  let o := copyOperands s
  [ (decide ((s.ctx ch).dir ≠ .inv), .eDir),
    (decide (countLimit ≤ o.count), .eCount),
    (decide (s.cfg.dmWords < o.out + peekCount ch s), .eDmem) ]

/-- The flat tail of the last block (R119): entry `i` is `sat32(−s(OV[b + z − 1 − i]) × 2^HR)`, from the
last `n` words of the region, `top` being those words lowest address first. -/
def flatTail (top : List Int) : List (Int × Bool) := top.reverse.map fun c => satPair (-c * 2 ^ HR)

/-- Effect of `PEEK` (R119): pending samples, then the flat tail; no context field and no OVMEM word
changes. -/
def peekEffect (ch : Chan) (s : State) : Except Fault (State × Code) := do
  let o := copyOperands s
  let x := s.ctx ch
  let n := peekCount ch s
  let extra := n - x.fill.toNat
  let pend ← memRead .ov x.ovBase.toNat (min n x.fill.toNat) s
  let top ← memRead .ov (x.ovBase.toNat + x.ovSize.toNat - extra) extra s
  let tail := flatTail (top.map s32)
  let t ← memWrite .dm o.out (pend ++ tail.map fun p => w32 p.1) s
  let t := t.setFlags (s.flags.raiseSat (tail.any Prod.snd))
  .ok (t.setRet (w32n n), .ok)

/-- `PEEK` (R119). -/
def execPeek (ch : Chan) (s : State) : Host.Outcome State Fault Refusal :=
  runContext 0x1C#8 ch (peekChecks ch) (peekEffect ch) s

end Sys2Proof.Machine
end

