-- ==== Sys2Proof/Machine/Rate.lean ====
section
/-! DEFINITION. The bit-reservoir counter: `RCINIT`, `RCALLOW`, `RCUPD` (spec/44_rate_control.md). -/

namespace Sys2Proof.Machine

/-! ## RCINIT (R125) -/

/-- The checks of R125, in order. -/
def rcinitChecks (s : State) : List Check :=
  let o := rcinitOperands s
  [ (decide (countLimit ≤ o.size ∨ countLimit ≤ o.mn ∨ countLimit ≤ o.mx ∨ countLimit ≤ o.avg ∨
      countLimit ≤ o.borrow ∨ countLimit ≤ o.level0), .eRcCfg),
    (decide (¬ (o.mn ≤ o.avg ∧ o.avg ≤ o.mx)), .eRcCfg),
    (decide (o.size < o.level0), .eRcCfg) ]

/-- Effect of `RCINIT` (R125): replace the whole record. -/
def rcinitEffect (s : State) : Except Fault (State × Code) :=
  let t := s.setRc
    { valid := true
      level := s.arg 5
      size := s.arg 0
      min := s.arg 1
      max := s.arg 2
      avg := s.arg 3
      borrow := s.arg 4 }
  .ok (t.setRet (s.arg 5), .ok)

/-- `RCINIT` (R125). -/
def execRcinit (s : State) : Host.Outcome State Fault Refusal :=
  runGlobal 0x20#8 rcinitChecks rcinitEffect s

/-! ## RCALLOW (R126) -/

/-- The checks of R126, in order. -/
def rcallowChecks (m : Bool) (s : State) : List Check :=
  [ (decide (s.rc.valid = false), .eRcNotinit),
    (decide (countLimit ≤ budgetOperand m s), .eRcParam) ]

/-- The allowed bit count (R126): the budget and what may be borrowed, within `RC_MIN` and `RC_MAX`. -/
def allowedBits (r : RateCtl) (budget : Nat) : Int :=
  clamp (budget + min (u32 r.level) (u32 r.borrow) : Nat) (u32 r.min) (u32 r.max)

/-- Effect of `RCALLOW` (R126): a pure query. -/
def rcallowEffect (m : Bool) (s : State) : Except Fault (State × Code) :=
  .ok (s.setRet (w32 (allowedBits s.rc (budgetOperand m s))), .ok)

/-- `RCALLOW` (R126). -/
def execRcallow (m : Bool) (s : State) : Host.Outcome State Fault Refusal :=
  runGlobal 0x21#8 (rcallowChecks m) (rcallowEffect m) s

/-! ## RCUPD (R127) -/

/-- The checks of R127, in order. -/
def rcupdChecks (m : Bool) (s : State) : List Check :=
  [ (decide (s.rc.valid = false), .eRcNotinit),
    (decide (countLimit ≤ budgetOperand m s ∨ countLimit ≤ actualOperand s), .eRcParam) ]

/-- The unclamped new level `v` (R127). -/
def rcupdLevel (m : Bool) (s : State) : Int :=
  (u32 s.rc.level : Int) + budgetOperand m s - actualOperand s

/-- The three outcomes of R127: the committed level, the flags, the indicator of `A[2]`, the code. -/
def rcupdOutcome (v : Int) (r : RateCtl) (f : Flags) : Word × Flags × Nat × Code :=
  if v < 0 then (0#32, f.raiseUf, 1, .wResUf)
  else if (u32 r.size : Int) < v then (r.size, f.raiseOf, 2, .wResOf)
  else (w32 v, f, 0, .ok)

/-- Effect of `RCUPD` (R127, R139): the clamped level is committed also when the code is an event. -/
def rcupdEffect (m : Bool) (s : State) : Except Fault (State × Code) :=
  let r := rcupdOutcome (rcupdLevel m s) s.rc s.flags
  let t := s.setRc { s.rc with level := r.1 }
  let t := t.setFlags r.2.1
  let t := t.setArg 2 (w32n r.2.2.1)
  .ok (t.setRet r.1, r.2.2.2)

/-- `RCUPD` (R127). -/
def execRcupd (m : Bool) (s : State) : Host.Outcome State Fault Refusal :=
  runGlobal 0x22#8 (rcupdChecks m) (rcupdEffect m) s

end Sys2Proof.Machine
end

