-- ==== Sys2Proof/Machine/Dispatch.lean ====
section
/-! DEFINITION. The meaning of a command, chosen by its constructor: the complete step of spec/30_encoding.md
R56 for a word that decodes to it. -/

namespace Sys2Proof.Machine

def exec (i : Instr) (s : State) : Host.Outcome State Fault Refusal :=
  match i with
  | .nop => Sys2Proof.Machine.execNop s
  | .init ch => Sys2Proof.Machine.execInit ch s
  | .free ch => Sys2Proof.Machine.execFree ch s
  | .ctxld ch => Sys2Proof.Machine.execCtxld ch s
  | .fwd ch => Sys2Proof.Machine.execFwd ch s
  | .adapt ch => Sys2Proof.Machine.execAdapt ch s
  | .gain => Sys2Proof.Machine.execGain s
  | .inv ch => Sys2Proof.Machine.execInv ch s
  | .drain ch => Sys2Proof.Machine.execDrain ch s
  | .peek ch => Sys2Proof.Machine.execPeek ch s
  | .rcinit => Sys2Proof.Machine.execRcinit s
  | .rcallow m => Sys2Proof.Machine.execRcallow m s
  | .rcupd m => Sys2Proof.Machine.execRcupd m s

end Sys2Proof.Machine
end

