-- ==== Sys2Proof/Machine/HostPort.lean ====
section
/-! DEFINITION. The host port (spec/20_memory.md R36 to R40): the address map, what a read answers, what a
write does, accesses while busy; issuing a command (spec/30_encoding.md R56); soft and hard reset
(spec/70_reset_and_hazards.md R160, R161). -/

namespace Sys2Proof.Machine

/-- The `RC_*` registers, in the order of their addresses (spec/10_state.md R24). -/
inductive RcReg where
  | ctl
  | level
  | size
  | min
  | max
  | avg
  | borrow
  deriving DecidableEq, Repr

/-- The registers of a context, in the order of their offsets (R20). -/
inductive CtxReg where
  | ctl
  | ovBase
  | ovSize
  | tlMax
  | fill
  | prevWrs
  | prevTl
  | prevNr
  | prevFr
  /-- Offsets `0x24 … 0x3C`: read 0. -/
  | unused
  deriving DecidableEq, Repr

/-- What stands at an address of the map of R36. -/
inductive Loc where
  /-- A constant register (R19) and the hole at `0x001C`: read-only. -/
  | constant (v : Word)
  | cmd
  | status
  | ret
  | flags
  | irqEn
  | irqStat
  | cmdCnt
  | ctrl
  | arg (i : Fin 16)
  | rc (r : RcReg)
  | ctx (c : Chan) (r : CtxReg)
  | mem (sp : Space) (a : Nat)
  deriving DecidableEq, Repr

/-- `ID` (R19): bytes `'M'`, `'D'`, interface version 1.0. -/
def idWord : Word := 0x4D440100#32

/-- First byte address of a memory window (R36). -/
def windowBase : Space → Nat
  | .dm => 0x00100000
  | .wm => 0x00200000
  | .ov => 0x00300000

/-- The registers `0x0000 … 0x009B`, by word index (R12 to R19, R24, R36). -/
def lowRegister (c : Config) (k : Nat) : Loc :=
  match k with
  | 0 => .constant idWord
  | 1 => .constant (w32n c.nch)
  | 2 => .constant (w32n c.tlMax)
  | 3 => .constant (w32n c.dmWords)
  | 4 => .constant (w32n c.wmWords)
  | 5 => .constant (w32n c.ovWords)
  | 6 => .constant (w32 c.outGainE)
  | 7 => .constant 0#32
  | 8 => .cmd
  | 9 => .status
  | 10 => .ret
  | 11 => .flags
  | 12 => .irqEn
  | 13 => .irqStat
  | 14 => .cmdCnt
  | 15 => .ctrl
  | 32 => .rc .ctl
  | 33 => .rc .level
  | 34 => .rc .size
  | 35 => .rc .min
  | 36 => .rc .max
  | 37 => .rc .avg
  | 38 => .rc .borrow
  | k => .arg (Fin.ofNat 16 k)

/-- The register of a context at word offset `k` (R20). -/
def contextRegister (k : Nat) : CtxReg :=
  match k with
  | 0 => .ctl
  | 1 => .ovBase
  | 2 => .ovSize
  | 3 => .tlMax
  | 4 => .fill
  | 5 => .prevWrs
  | 6 => .prevTl
  | 7 => .prevNr
  | 8 => .prevFr
  | _ => .unused

/-- The memory word at a byte address, if it lies in the window of `sp` (R36). -/
def windowLoc (c : Config) (sp : Space) (addr : Nat) : Option Loc :=
  if windowBase sp ≤ addr ∧ addr < windowBase sp + 4 * c.words sp then
    some (.mem sp ((addr - windowBase sp) / 4))
  else none

/-- The address map of R36; `none` is a reserved address or a misaligned one (R37). -/
def locate (c : Config) (addr : Nat) : Option Loc :=
  if addr % 4 ≠ 0 then none
  else if addr < 0x9C then some (lowRegister c (addr / 4))
  else if 0x400 ≤ addr ∧ addr < 0x400 + 0x40 * c.nch then
    some (.ctx (Fin.ofNat 16 ((addr - 0x400) / 0x40)) (contextRegister (addr % 0x40 / 4)))
  else (windowLoc c .dm addr).or ((windowLoc c .wm addr).or (windowLoc c .ov addr))

/-- `CTX_CTL` (R20): `DIR` in bits 2:1, `VALID` in bit 0. -/
def Ctx.ctlWord (x : Ctx) : Word := 0#29 ++ x.dir.bits ++ BitVec.ofBool x.valid

/-- The register of a context as the host reads it (R20). -/
def readContext (x : Ctx) : CtxReg → Word
  | .ctl => x.ctlWord
  | .ovBase => x.ovBase
  | .ovSize => x.ovSize
  | .tlMax => x.tlMax
  | .fill => x.fill
  | .prevWrs => x.prevWrs
  | .prevTl => x.prevTl
  | .prevNr => x.prevNr
  | .prevFr => x.prevFr
  | .unused => 0#32

/-- The register of the rate-control record as the host reads it (R24). -/
def readRate (r : RateCtl) : RcReg → Word
  | .ctl => 0#31 ++ BitVec.ofBool r.valid
  | .level => r.level
  | .size => r.size
  | .min => r.min
  | .max => r.max
  | .avg => r.avg
  | .borrow => r.borrow

/-- What a host read answers (R39): a write-only register reads 0; no read has a side effect. -/
def readLoc (s : State) : Loc → Word
  | .constant v => v
  | .cmd => 0#32
  | .status => s.status.word
  | .ret => s.ret
  | .flags => s.flags.word
  | .irqEn => s.irqEn.word
  | .irqStat => s.irqStat.word
  | .cmdCnt => s.cmdCnt
  | .ctrl => 0#32
  | .arg i => s.arg i
  | .rc r => readRate s.rc r
  | .ctx c r => readContext (s.ctx c) r
  | .mem sp a => s.wordAt sp a

/-- Issue (R56, R14, R18): the word is latched, the engine becomes busy, `CMDCNT` counts it modulo
2^32. -/
def issue (cw : Word) (s : State) : State :=
  { s with
    latch := cw
    status := { s.status with busy := true }
    cmdCnt := s.cmdCnt + 1#32 }

/-- Soft reset (R161): every register to its hard-reset value, the memories word for word as they were.
The turns still to come and the port's last answer are no registers. -/
def softReset (s : State) : State :=
  { State.resetWith s.cfg with
    dmem := s.dmem
    wmem := s.wmem
    ovmem := s.ovmem
    epoch := s.epoch
    turns := s.turns
    resp := s.resp }

/-- Hard reset (R160): every register to its reset value; every memory word unspecified again, so nothing
is listed and the free values are those of the next epoch. -/
def hardReset (s : State) : State :=
  { State.resetWith s.cfg with
    epoch := s.epoch + 1
    turns := s.turns
    resp := s.resp }

/-- What a host write does while the engine is idle (R39): the side effects of `CMD`, `CTRL`, `FLAGS`,
`IRQSTAT`; plain stores to `IRQEN`, the argument registers and the memories; a write to a read-only
register is ignored. -/
def writeLoc (s : State) (l : Loc) (v : Word) : State :=
  match l with
  | .constant _ => s
  | .cmd => issue v s
  | .status => s
  | .ret => s
  | .flags => s.setFlags (s.flags.clear v)
  | .irqEn => { s with irqEn := IrqBits.ofWord v }
  | .irqStat => { s with irqStat := s.irqStat.clear v }
  | .cmdCnt => s
  | .ctrl => if bitOf v 0 then softReset s else s
  | .arg i => s.setArg i v
  | .rc _ => s
  | .ctx _ _ => s
  | .mem sp a => s.setWord sp a v

/-- The location an access of `bytes` bytes at `addr` reaches: only aligned words are served (R37), and
while the engine is busy only a read of `STATUS` (R40). -/
def reach (s : State) (isRead : Bool) (addr : Word) (bytes : Nat) : Option Loc :=
  if bytes = 4 then
    match locate s.cfg addr.toNat with
    | some l => if s.status.busy ∧ ¬ (isRead ∧ l = .status) then none else some l
    | none => none
  else none

/-- One host access (R36 to R40): its effect and its answer. `ERROR` changes nothing. -/
def serve (a : HostAccess) (s : State) : State :=
  match a with
  | .read addr bytes =>
    match reach s true addr bytes with
    | some l => { s with resp := some (.okayData (readLoc s l)) }
    | none => { s with resp := some .error }
  | .write addr bytes v =>
    match reach s false addr bytes with
    | some l => { writeLoc s l v with resp := some .okay }
    | none => { s with resp := some .error }

/-- The command the engine completes: the decoded command latch (R14, R56). -/
def latched (s : State) : Except DecodeError Instr := decode s.latch

/-- `s` with the command word `w` in the latch and the engine's complete step as the next turn: where the
engine takes its next command from (R14, R27). -/
def armLatch (s : State) (w : Word) : State :=
  { s with
    latch := w
    status := { s.status with busy := true }
    turns := .engine :: s.turns }

end Sys2Proof.Machine
end

