-- ==== Sys2Proof/Machine/Step.lean ====
section
/-! DEFINITION. One step of the machine (spec/10_state.md R10): one host access, one complete step of the
engine, or one assertion of the reset input. -/

namespace Sys2Proof.Machine

/-- The complete step (spec/30_encoding.md R56): run the command in the latch. -/
def complete (s : State) : Host.Outcome State Fault Refusal :=
  match latched s with
  | .ok i => exec i s
  | .error e => .next (completeIllegal e s)

/-- The engine's turn: its complete step is "enabled exactly when `BUSY = 1`" (R56); an idle engine "simply
waits" (spec/60_exceptions.md R150). -/
def engineTurn (s : State) : Host.Outcome State Fault Refusal :=
  if s.status.busy then complete s else .next s

/-- One step. The turns are any interleaving of whole host accesses and whole commands
(spec/20_memory.md R46); when none is left, a pending command still completes
(spec/70_reset_and_hazards.md R170). -/
def step (s : State) : Host.Outcome State Fault Refusal :=
  match s.turns with
  | .host a :: rest => .next (serve a { s with turns := rest })
  | .rst :: rest => .next (hardReset { s with turns := rest })
  | .engine :: rest => engineTurn { s with turns := rest }
  | [] => engineTurn s

/-- `s` with the instruction of `nbits` bits `w` as the command the very next step completes. -/
def State.withFetchWord (s : State) (nbits w : Nat) : State := armLatch s (w32n (w % 2 ^ nbits))

end Sys2Proof.Machine
end

