-- ==== Sys2Proof/Machine/HostProgram.lean ====
section
/-! DEFINITION. The notation for host programs and its pseudo-instructions (spec/30_encoding.md R63, R64), as
lists of turns of the machine. -/

namespace Sys2Proof.Machine

/-- Byte address of `CMD` (spec/10_state.md R14). -/
def cmdAddr : Word := 0x20#32

/-- Byte address of `STATUS` (R15). -/
def statusAddr : Word := 0x24#32

/-- Byte address of `A[i]` (R12). -/
def argAddr (i : Fin 16) : Word := w32n (0x40 + 4 * i.val)

/-- Byte address of a register of `CTX[c]` at offset `off` (R20). -/
def ctxAddr (c : Chan) (off : Nat) : Word := w32n (0x400 + 0x40 * c.val + off)

/-- Byte address of a memory word: `DM[a]`, `WM[a]`, `OV[a]` of R63. -/
def memAddr (sp : Space) (a : Nat) : Word := w32n (windowBase sp + 4 * a)

/-- One line of a host program (R63), or the point between two lines where a command completes. -/
inductive HostLine where
  /-- `wr reg, value`. -/
  | wr (addr value : Word)
  /-- `rd reg`. -/
  | rd (addr : Word)
  /-- `<mnemonic> [chN] [, m]`: the write of its command word to `CMD`. -/
  | cmd (i : Instr)
  /-- `wait`: reads of `STATUS` until bit 31 reads 0; `polls` of them come before the complete step. The spec
  leaves that number open (R56, R170), so every line carries its own: DESIGN CHOICE (assumption log 20). -/
  | wait (polls : Nat)
  /-- No line of R63: the complete step of the pending command, before the `wait` that would meet it. The spec
  leaves open where among the lines it falls (R56, R170): DESIGN CHOICE (assumption log 20). -/
  | complete
  deriving DecidableEq, Repr

/-- The turns a line stands for (R63). DESIGN CHOICE (assumption log 20): when a command completes is open in
the spec (R56, R170, U8), and the model lets the writer of a program place it. A command is complete at the
`complete` after it or, where none stands before, within the next `wait`, after its `polls`; lines in between
meet a busy engine. With nothing pending, the engine's turn changes nothing and `wait 0` is one read. -/
def HostLine.turns : HostLine → List Turn
  | .wr addr v => [.host (.write addr 4 v)]
  | .rd addr => [.host (.read addr 4)]
  | .cmd i => [.host (.write cmdAddr 4 (encode i))]
  | .wait polls =>
    List.replicate polls (.host (.read statusAddr 4)) ++ [.engine, .host (.read statusAddr 4)]
  | .complete => [.engine]

/-- The turns of a program. -/
def programTurns (p : List HostLine) : List Turn := p.flatMap HostLine.turns

/-- Writes of argument registers, in the order listed. -/
def argWrites (vs : List (Fin 16 × Word)) : List HostLine := vs.map fun p => .wr (argAddr p.1) p.2

/-- A pseudo-instruction (R64): "argument writes in ascending register order, the command, and `wait`". How
many reads of `STATUS` the `wait` makes before the complete step is open (R56, R170): `polls` stands for any
number, an argument that R64's notation does not write. DESIGN CHOICE (assumption log 20). -/
def pseudo (vs : List (Fin 16 × Word)) (i : Instr) (polls : Nat) : List HostLine :=
  argWrites vs ++ [.cmd i, .wait polls]

/-- `call.init chN, ovb, ovs, tlm`. -/
def callInit (ch : Chan) (ovb ovs tlm : Word) (polls : Nat) : List HostLine :=
  pseudo [(0, ovb), (1, ovs), (2, tlm)] (.init ch) polls

/-- The value `call.fwd` writes to `A3`: `(tl − fr)/2` (R64), a negative one as its `w32` (R63). DESIGN CHOICE
(assumption log 19): R64 gives no rounding for an odd `tl − fr` and does not speak of `fr > tl`; the model
takes the integer quotient rounded down. `FWD` refuses every such operand pair, whatever `A3` holds. -/
def callFwdOffset (tl fr : Word) : Word := w32 (((u32 tl : Int) - (u32 fr : Int)) / 2)

/-- `call.fwd chN, in, scale, tl, fr, wrs, out`: computes `NR` from `tl` and `fr`. -/
def callFwd (ch : Chan) (inp scale tl fr wrs out : Word) (polls : Nat) : List HostLine :=
  pseudo [(0, inp), (1, scale), (2, tl), (3, callFwdOffset tl fr), (4, fr), (5, wrs), (6, out)] (.fwd ch) polls

/-- `call.adapt chN, fl, tl, wls, nout`. -/
def callAdapt (ch : Chan) (fl tl wls nout : Word) (polls : Nat) : List HostLine :=
  pseudo [(0, fl), (2, tl), (3, wls), (4, nout)] (.adapt ch) polls

/-- `call.gain tl`. -/
def callGain (tl : Word) (polls : Nat) : List HostLine := pseudo [(2, tl)] .gain polls

/-- `call.inv chN, spec, scl, nspec, nout, tl, wls, fl, wrs, fr, gm, ge, out`. -/
def callInv (ch : Chan) (spec scl nspec nout tl wls fl wrs fr gm ge out : Word) (polls : Nat) : List HostLine :=
  pseudo [(0, spec), (1, scl), (2, nspec), (3, nout), (4, tl), (5, wls), (6, fl), (7, wrs), (8, fr), (9, gm),
    (10, ge), (11, out)] (.inv ch) polls

/-- `call.drain chN, out, room`. -/
def callDrain (ch : Chan) (out room : Word) (polls : Nat) : List HostLine :=
  pseudo [(0, out), (1, room)] (.drain ch) polls

/-- `call.peek chN, out, count`. -/
def callPeek (ch : Chan) (out count : Word) (polls : Nat) : List HostLine :=
  pseudo [(0, out), (1, count)] (.peek ch) polls

/-- `call.rcinit size, min, max, avg, borrow, level0`. -/
def callRcinit (size mn mx avg borrow level0 : Word) (polls : Nat) : List HostLine :=
  pseudo [(0, size), (1, mn), (2, mx), (3, avg), (4, borrow), (5, level0)] .rcinit polls

/-- `call.rcallow budget`. -/
def callRcallow (budget : Word) (polls : Nat) : List HostLine := pseudo [(0, budget)] (.rcallow false) polls

/-- `call.rcupd budget, actual`. -/
def callRcupd (budget actual : Word) (polls : Nat) : List HostLine :=
  pseudo [(0, budget), (1, actual)] (.rcupd false) polls

/-- `call.rcupd.avg actual`. -/
def callRcupdAvg (actual : Word) (polls : Nat) : List HostLine := pseudo [(1, actual)] (.rcupd true) polls

end Sys2Proof.Machine
end

