-- ==== Sys2Proof/WellFormed.lean ====
section
/-! DEFINITION. The one check on a command beyond its encoding: the channel exists
(spec/30_encoding.md R57, R58). -/

namespace Sys2Proof

/-- "`CH ≥ NCH` is refused with `E_ILLFLD`" (R58): a command is well formed for a configuration when the
channel it takes, if any, is one of the `NCH` contexts. -/
def WellFormed (c : Config) (i : Instr) : Bool :=
  match i.chan? with
  | some ch => decide (ch.val < c.nch)
  | none => true

end Sys2Proof
end

