-- ==== Sys2Proof/Safety.lean ====
section
/-! DEFINITION. What counts as a good state and a safe run, and the terms the statements are written in:
the invariants of spec/10_state.md, frames, and the formulas of the transform rules written pointwise over
the state before a command. -/

namespace Sys2Proof.Machine

/-! ## Invariants -/

/-- The context file is as R21 says: a valid context satisfies `CtxInv`, "a context with `VALID = 0` has
all fields 0", and there are no contexts beyond `NCH`. -/
abbrev State.ContextsOk (s : State) : Prop :=
  (∀ c : Chan, c.val < s.cfg.nch → (s.ctx c).valid = true → s.CtxInv c (s.ctx c)) ∧
  (∀ c : Chan, (s.ctx c).valid = false → s.ctx c = Ctx.blank) ∧
  (∀ c : Chan, s.cfg.nch ≤ c.val → s.ctx c = Ctx.blank)

/-- `RcInv` (R25). -/
abbrev RateCtl.Ok (r : RateCtl) : Prop :=
  r.valid = true →
    (r.level.toNat < countLimit ∧ r.size.toNat < countLimit ∧ r.min.toNat < countLimit ∧
      r.max.toNat < countLimit ∧ r.avg.toNat < countLimit ∧ r.borrow.toNat < countLimit) ∧
    (r.min.toNat ≤ r.avg.toNat ∧ r.avg.toNat ≤ r.max.toNat) ∧ r.level.toNat ≤ r.size.toNat

/-- A memory is in canonical form and lists only bytes of words that exist (spec/20_memory.md R35). -/
abbrev Memory.Ok (m : Memory) (words : Nat) : Prop := m.wf ∧ ∀ c ∈ m, c.1 < 4 * words

/-- The three memories of a state. -/
def State.MemoriesOk (s : State) : Prop := ∀ sp, (s.mem sp).Ok (s.cfg.words sp)

/-- The invariant of the engine: a legal configuration, R21, R25 and the memories. -/
def State.Inv (s : State) : Prop :=
  s.cfg.Valid ∧ s.ContextsOk ∧ s.rc.Ok ∧ s.MemoriesOk

/-! ## Frames -/

/-- What no command writes (spec/60_exceptions.md R151): `IRQEN`, `CMDCNT`, the latch, and the model's own
fields. -/
def SameHostSide (s t : State) : Prop :=
  t.irqEn = s.irqEn ∧ t.cmdCnt = s.cmdCnt ∧ t.latch = s.latch ∧ t.cfg = s.cfg ∧ t.epoch = s.epoch ∧
    t.turns = s.turns ∧ t.resp = s.resp

/-- The bookkeeping of a complete step that ends with code `c` (spec/30_encoding.md R56): `STATUS` and
`IRQSTAT`; and what no command writes stays. -/
def Completes (i : Instr) (c : Code) (s t : State) : Prop :=
  t.status = { s.status with code := c, lastOp := opcode i, lastCh := chanBits i, busy := false } ∧
  t.irqStat = s.irqStat.raise c ∧ SameHostSide s t

/-- Every byte of a memory reads as before. -/
def SameBytes (sp : Space) (s t : State) : Prop := ∀ b, t.byteAt sp b = s.byteAt sp b

/-- Every byte of a memory outside the `n` words from `a` on reads as before. -/
def SameBytesOutside (sp : Space) (a n : Nat) (s t : State) : Prop :=
  ∀ b, (b < 4 * a ∨ 4 * (a + n) ≤ b) → t.byteAt sp b = s.byteAt sp b

/-- Every argument register but those listed is as before. -/
def SameArgsBut (is : List (Fin 16)) (s t : State) : Prop := ∀ i, i ∉ is → t.arg i = s.arg i

/-- Every context but `CTX[ch]` is as before. -/
def SameContextsBut (ch : Chan) (s t : State) : Prop := ∀ c, c ≠ ch → t.ctx c = s.ctx c

/-- Every context is as before. -/
def SameContexts (s t : State) : Prop := ∀ c, t.ctx c = s.ctx c

/-- No memory changes. -/
def SameMemories (s t : State) : Prop := ∀ sp, SameBytes sp s t

/-! ## When a command runs its own rule -/

/-- A channel command passes R56 steps 1 to 3. -/
abbrev ChannelReady (ch : Chan) (s : State) : Prop := s.status.fatal = false ∧ ch.val < s.cfg.nch

/-- A command on a bound context passes R56 steps 1 to 5. -/
abbrev ContextReady (ch : Chan) (s : State) : Prop :=
  ChannelReady ch s ∧ (s.ctx ch).valid = true ∧ s.CtxInv ch (s.ctx ch)

/-- A legal transform length (R135, code `E_TL`). -/
abbrev LegalTl (tl bound : Nat) : Prop := tl % 2 = 0 ∧ 2 ≤ tl ∧ tl ≤ bound

/-- The codes a command can end with (table of spec/60_exceptions.md R140). -/
def possibleCodes : Instr → List Code
  | .nop => [.ok, .eFatal, .eIllfld]
  | .init _ => [.ok, .eFatal, .eIllfld, .eTl, .eOvsize, .eOvmem]
  | .free _ => [.ok, .eFatal, .eIllfld]
  | .ctxld _ => [.ok, .eFatal, .eIllfld, .eCtxld]
  | .fwd _ =>
    [.ok, .eFatal, .eIllfld, .eNoctx, .eInternal, .eDir, .eTl, .eGeom, .eExp, .eWmem, .eDmem]
  | .adapt _ => [.ok, .eFatal, .eIllfld, .eNoctx, .eInternal, .eDir, .eTl, .eGeom, .eCount, .eWmem]
  | .gain => [.ok, .eFatal, .eIllfld, .eTl]
  | .inv _ =>
    [.ok, .eFatal, .eIllfld, .eNoctx, .eInternal, .eDir, .eTl, .eAdapt, .eGeom, .eCount, .eWmem, .eDmem,
      .eOvfull]
  | .drain _ => [.ok, .eFatal, .eIllfld, .eNoctx, .eInternal, .eDir, .eCount, .eDmem]
  | .peek _ => [.ok, .eFatal, .eIllfld, .eNoctx, .eInternal, .eDir, .eCount, .eDmem]
  | .rcinit => [.ok, .eFatal, .eIllfld, .eRcCfg]
  | .rcallow _ => [.ok, .eFatal, .eIllfld, .eRcNotinit, .eRcParam]
  | .rcupd _ => [.ok, .eFatal, .eIllfld, .eRcNotinit, .eRcParam, .wResUf, .wResOf]

/-! ## The formulas of `FWD`, pointwise -/

/-- `Σ_{n < N} a n × COSQ(N, (2n + 1)(2k + 1))`: entry `k` of the kernel (spec/40_numeric.md R76). -/
def kernelSum (N : Nat) (a : Nat → Int) (k : Nat) : Int :=
  ∑ n ∈ Finset.range N, a n * cosq N ((2 * n + 1) * (2 * k + 1) : Nat)

/-- `T[j]` of spec/42_forward_transform.md R96. -/
def fwdLine (s : State) (ch : Chan) (j : Nat) : Int :=
  if j < fwdFill (s.ctx ch) then s32 (s.wordAt .ov ((s.ctx ch).ovBase.toNat + j))
  else s32 (s.wordAt .dm ((fwdOperands s).inp + (j - fwdFill (s.ctx ch))))

/-- `S(d)` of R96. -/
def fwdSample (s : State) (ch : Chan) (d : Int) : Int :=
  fwdLine s ch (d + ((s.ctx ch).prevFr.toNat / 2 : Nat)).toNat

/-- `Pz(n)` of R97. -/
def fwdPz (s : State) (ch : Chan) (n : Nat) : Int :=
  let o := fwdOperands s
  let pfr := (s.ctx ch).prevFr.toNat
  let pwrs := (s.ctx ch).prevWrs.toNat
  let nl := (o.tl - pfr) / 2
  let S := fwdSample s ch ((n : Int) - (o.tl / 2 : Nat))
  if n < nl then 0
  else if n < nl + pfr then S * s32 (s.wordAt .wm (pwrs + (n - nl)))
  else if n < o.tl + o.nr then S * 2 ^ 31
  else if n < o.tl + o.nr + o.fr then S * s32 (s.wordAt .wm (o.wrs + (o.fr - 1 - (n - o.tl - o.nr))))
  else 0

/-- `P[n]` of R98. -/
def fwdP (s : State) (ch : Chan) (n : Nat) : Int :=
  let N := (fwdOperands s).tl
  if n < N / 2 then -fwdPz s ch (3 * N / 2 - 1 - n) - fwdPz s ch (3 * N / 2 + n)
  else fwdPz s ch (n - N / 2) - fwdPz s ch (3 * N / 2 - 1 - n)

/-- `Y[k]` of R98: the kernel of the folded block `U[n] = rshr(P[n], 31)`. -/
def fwdY (s : State) (ch : Chan) (k : Nat) : Int :=
  kernelSum (fwdOperands s).tl (fun n => rshr (fwdP s ch n) 31) k

/-- The checks of R95 all pass. -/
abbrev FwdOk (ch : Chan) (s : State) : Prop :=
  let o := fwdOperands s
  let x := s.ctx ch
  x.dir ≠ .inv ∧ LegalTl o.tl x.tlMax.toNat ∧
  (o.fr % 2 = 0 ∧ o.fr ≤ o.tl ∧ o.nr = (o.tl - o.fr) / 2 ∧ x.prevFr.toNat ≤ o.tl) ∧
  o.eIn + hs o.tl ≤ i32Max ∧ o.wrs + o.fr ≤ s.cfg.wmWords ∧
  (o.inp + o.tl ≤ s.cfg.dmWords ∧ o.out + o.tl ≤ s.cfg.dmWords)

/-! ## The formulas of `INV`, pointwise -/

/-- `X_w[k]` of spec/43_inverse_transform.md R111. -/
def invX (s : State) (w k : Nat) : Int :=
  s32 (s.wordAt .dm ((invOperands s).spec + w * (invOperands s).tl + k))

/-- The shift count `sh + HR` of block `w` (R113). -/
def invShift (s : State) (w : Nat) : Int :=
  62 - s32 (s.wordAt .dm ((invOperands s).scl + w)) - (invOperands s).ge + HR

/-- `Tc[k]` of block `w` before its `sat32` (R113). -/
def invTcRaw (s : State) (w k : Nat) : Int :=
  rshr (kernelSum (invOperands s).tl (invX s w) k * (invOperands s).gm) (invShift s w)

/-- `Tc[k]` of block `w` (R113). -/
def invTc (s : State) (w k : Nat) : Int := sat32 (invTcRaw s w k)

/-- The carry that block `w` meets (R111, R112): the words of the region for the first block, `Tc` of the
block before for the others. -/
def invCarry (s : State) (ch : Chan) (w i : Nat) : Int :=
  let x := s.ctx ch
  if w = 0 then s32 (s.wordAt .ov (x.ovBase.toNat + x.ovSize.toNat - x.prevTl.toNat / 2 + i))
  else invTc s (w - 1) i

/-- The slope table that block `w` meets (R111, R112), entry `i`. -/
def invTable (s : State) (ch : Chan) (w i : Nat) : Int :=
  if w = 0 then s32 (s.wordAt .wm ((s.ctx ch).prevWrs.toNat + i))
  else s32 (s.wordAt .wm ((invOperands s).wrs + i))

/-- `(P, f, r)` that block `w` meets (R111, R112). -/
def invPrev (s : State) (ch : Chan) (w : Nat) : Nat × Nat × Nat :=
  let o := invOperands s
  let x := s.ctx ch
  if w = 0 then (x.prevTl.toNat, x.prevFr.toNat, x.prevNr.toNat) else (o.tl, o.fr, (o.tl - o.fr) / 2)

/-- Sample `i` of those that block `w` adds, before its `sat32` (R114, items (a) to (d) in order). -/
def invSampleRaw (s : State) (ch : Chan) (w i : Nat) : Int :=
  let tl := (invOperands s).tl
  let g := invPrev s ch w
  let P := g.1
  let f := g.2.1
  let r := g.2.2
  let C := invCarry s ch w
  let Tc := invTc s w
  let t := invTable s ch w
  if i < r then -C (P / 2 - 1 - i) * 2 ^ HR
  else if i < r + f / 2 then
    let j := i - r
    rshr (-C (f / 2 - 1 - j) * t (f - 1 - j) + Tc (tl - f / 2 + j) * t j) (31 - HR)
  else if i < r + f / 2 + f / 2 then
    let j := i - r - f / 2
    rshr (-C j * t (f / 2 - 1 - j) - Tc (tl - 1 - j) * t (f / 2 + j)) (31 - HR)
  else
    (-Tc (tl - 1 - (i - r - f / 2))) * 2 ^ HR

/-- How many samples block `w` adds (R114): `P/2 + tl/2`. -/
def invCount (s : State) (ch : Chan) (w : Nat) : Nat :=
  (invPrev s ch w).1 / 2 + (invOperands s).tl / 2

/-- Which block the `j`-th new sample comes from, and which of its samples it is. -/
def invPlace (s : State) (ch : Chan) (j : Nat) : Nat × Nat :=
  let first := invCount s ch 0
  if j < first then (0, j)
  else (1 + (j - first) / (invOperands s).tl, (j - first) % (invOperands s).tl)

/-- Entry `j` of the list `Q` at the end of the block loop (R111 to R114): pending samples first. -/
def invQ (s : State) (ch : Chan) (j : Nat) : Int :=
  let fill := (s.ctx ch).fill.toNat
  if j < fill then s32 (s.wordAt .ov ((s.ctx ch).ovBase.toNat + j))
  else
    let p := invPlace s ch (j - fill)
    sat32 (invSampleRaw s ch p.1 p.2)

/-- Some `sat32` of R113 or R114 clamps in this command. -/
def InvClamps (s : State) (ch : Chan) : Prop :=
  ∃ w < (invOperands s).nspec,
    (∃ k < (invOperands s).tl, saturates (invTcRaw s w k) = true) ∨
    (∃ i < invCount s ch w, saturates (invSampleRaw s ch w i) = true)

/-- The checks of R109 all pass. -/
abbrev InvOk (ch : Chan) (s : State) : Prop :=
  let o := invOperands s
  let x := s.ctx ch
  x.dir = .inv ∧ LegalTl o.tl x.tlMax.toNat ∧ o.fl = x.prevFr.toNat ∧
  (o.fl ≤ o.tl ∧ o.fr % 2 = 0 ∧ o.fr ≤ o.tl) ∧
  (1 ≤ o.nspec ∧ o.nspec < countLimit ∧ o.nout < countLimit) ∧
  o.wrs + o.fr ≤ s.cfg.wmWords ∧
  (o.spec + o.nspec * o.tl ≤ s.cfg.dmWords ∧ o.scl + o.nspec ≤ s.cfg.dmWords) ∧
  o.out + invDelivered o x ≤ s.cfg.dmWords ∧
  (invTotal o x - invDelivered o x) + o.tl / 2 ≤ x.ovSize.toNat

/-! ## The other commands -/

/-- The checks of R105 all pass. -/
abbrev AdaptOk (ch : Chan) (s : State) : Prop :=
  let o := adaptOperands s
  let x := s.ctx ch
  x.dir ≠ .fwd ∧ LegalTl o.tl x.tlMax.toNat ∧ (o.fl % 2 = 0 ∧ o.fl ≤ o.tl) ∧
  (x.dir = .none → LegalTl o.nout x.tlMax.toNat ∧ o.fl ≤ o.nout) ∧
  o.wls + o.fl ≤ s.cfg.wmWords

/-- The checks of R118 all pass. -/
abbrev DrainOk (ch : Chan) (s : State) : Prop :=
  (s.ctx ch).dir = .inv ∧ (copyOperands s).count < countLimit ∧
  (copyOperands s).out + drainCount ch s ≤ s.cfg.dmWords

/-- The checks of R119 all pass. -/
abbrev PeekOk (ch : Chan) (s : State) : Prop :=
  (s.ctx ch).dir = .inv ∧ (copyOperands s).count < countLimit ∧
  (copyOperands s).out + peekCount ch s ≤ s.cfg.dmWords

/-- The checks of R86 all pass. -/
abbrev InitOk (ch : Chan) (s : State) : Prop :=
  let o := initOperands s
  LegalTl o.tlmax s.cfg.tlMax ∧ o.tlmax ≤ o.size ∧ o.base + o.size ≤ s.cfg.ovWords ∧
  s.RegionFree ch o.base o.size

/-- The checks of R125 all pass. -/
abbrev RcinitOk (s : State) : Prop :=
  let o := rcinitOperands s
  (o.size < countLimit ∧ o.mn < countLimit ∧ o.mx < countLimit ∧ o.avg < countLimit ∧
    o.borrow < countLimit ∧ o.level0 < countLimit) ∧
  (o.mn ≤ o.avg ∧ o.avg ≤ o.mx) ∧ o.level0 ≤ o.size

end Sys2Proof.Machine
end

