-- ==== Sys2Proof/Certificates/Slice0/Obligations.lean ====
section
/-! DEFINITION. The statements about the model, each from a rule of the spec. -/

open Sys2Proof Sys2Proof.Machine

/-! ## Encoding -/

/-- spec/30_encoding.md R55, R57, R60: decoding and encoding agree in both directions, so a word decodes
to at most one command with its fields and no bit is dropped; and the words refused as illegal opcodes are
exactly those whose `OPC` is not one of the 13. -/
def Obligations.DecodeInvertsEncode : Prop :=
  (∀ (w : Word) (i : Instr), decode w = .ok i ↔ w = encode i) ∧
  (∀ w : Word, decode w = .error .illegalOpcode ↔
    (opcField w).toNat ∉ [0x00, 0x10, 0x11, 0x12, 0x14, 0x18, 0x19, 0x1A, 0x1B, 0x1C, 0x20, 0x21, 0x22])

/-- R57: "A command word selects a command when `CW & mask = match`", for each of the 13 rows. -/
def Obligations.MaskAndMatchSelectCommand : Prop :=
  ∀ w : Word,
    (decode w = .ok .nop ↔ w &&& 0xFFFFFFFF#32 = 0x00000000#32) ∧
    ((∃ ch, decode w = .ok (.init ch)) ↔ w &&& 0xFFFFF0FF#32 = 0x10000000#32) ∧
    ((∃ ch, decode w = .ok (.free ch)) ↔ w &&& 0xFFFFF0FF#32 = 0x11000000#32) ∧
    ((∃ ch, decode w = .ok (.ctxld ch)) ↔ w &&& 0xFFFFF0FF#32 = 0x12000000#32) ∧
    ((∃ ch, decode w = .ok (.fwd ch)) ↔ w &&& 0xFFFFF0FF#32 = 0x14000000#32) ∧
    ((∃ ch, decode w = .ok (.adapt ch)) ↔ w &&& 0xFFFFF0FF#32 = 0x18000000#32) ∧
    (decode w = .ok .gain ↔ w &&& 0xFFFFFFFF#32 = 0x19000000#32) ∧
    ((∃ ch, decode w = .ok (.inv ch)) ↔ w &&& 0xFFFFF0FF#32 = 0x1A000000#32) ∧
    ((∃ ch, decode w = .ok (.drain ch)) ↔ w &&& 0xFFFFF0FF#32 = 0x1B000000#32) ∧
    ((∃ ch, decode w = .ok (.peek ch)) ↔ w &&& 0xFFFFF0FF#32 = 0x1C000000#32) ∧
    (decode w = .ok .rcinit ↔ w &&& 0xFFFFFFFF#32 = 0x20000000#32) ∧
    ((∃ m, decode w = .ok (.rcallow m)) ↔ w &&& 0xFFFFFFFE#32 = 0x21000000#32) ∧
    ((∃ m, decode w = .ok (.rcupd m)) ↔ w &&& 0xFFFFFFFE#32 = 0x22000000#32)

/-- Words written out from R55 and R57 decode to the commands they stand for; illegal ones are refused by
name. -/
def Obligations.SpecWordsDecode : Prop :=
  decode 0x00000000#32 = .ok .nop ∧ decode 0x14000100#32 = .ok (.fwd 1) ∧
  decode 0x1A000F00#32 = .ok (.inv 15) ∧ decode 0x22000001#32 = .ok (.rcupd true) ∧
  decode 0x14001000#32 = .error .illegalField ∧ decode 0x15000002#32 = .error .illegalOpcode

/-! ## The step -/

/-- spec/10_state.md R10, spec/30_encoding.md R56: the engine's turn, when a command is pending and its word
decodes to `i`, runs `i`; only the turn itself is taken from the list. The list of turns, and that a pending
command also completes when none is left, are the model's choice (assumption log 3). -/
def Obligations.StepRunsLatchedCommand : Prop :=
  ∀ (s : State) (i : Instr) (rest : List Turn), s.status.busy = true → decode s.latch = .ok i →
    (s.turns = .engine :: rest → step s = exec i { s with turns := rest }) ∧
    (s.turns = [] → step s = exec i s)

/-- The other turns: a host access is served; `rst` is the hard reset (spec/70_reset_and_hazards.md R160); an
engine with nothing pending waits (R10, spec/60_exceptions.md R150). The list of turns is the model's choice
(assumption log 3), and so is one turn `rst` for one assertion of the reset input with its release
(assumption log 15). -/
def Obligations.StepTakesNextTurn : Prop :=
  ∀ (s : State) (rest : List Turn),
    (∀ a, s.turns = .host a :: rest → step s = .next (serve a { s with turns := rest })) ∧
    (s.turns = .rst :: rest → step s = .next (hardReset { s with turns := rest })) ∧
    (s.status.busy = false → s.turns = .engine :: rest → step s = .next { s with turns := rest }) ∧
    (s.status.busy = false → s.turns = [] → step s = .next s)

/-- A word placed with `withFetchWord` is the command the very next step completes (the model's own
interface, assumption log 4). -/
def Obligations.FetchWordRunsNext : Prop :=
  ∀ (s : State) (w : Word) (i : Instr), decode w = .ok i →
    step (s.withFetchWord 32 w.toNat) =
      exec i { s with latch := w, status := { s.status with busy := true } }

/-- R56 steps 1 to 3, R60, spec/60_exceptions.md R135, R137: a word that is no command is refused with
`E_FATAL`, `E_ILLOP` or `E_ILLFLD`; what it changes is exactly the bookkeeping. -/
def Obligations.IllegalWordRefused : Prop :=
  ∀ (s : State) (e : DecodeError), decode s.latch = .error e →
    complete s = .next { s with
      status :=
        { code := if s.status.fatal then .eFatal else
            match e with
            | .illegalOpcode => .eIllop
            | .illegalField => .eIllfld
          lastOp := s.latch.extractLsb' 24 8
          lastCh := s.latch.extractLsb' 8 4
          fatal := s.status.fatal
          busy := false }
      ret := 0#32
      irqStat := { done := s.irqStat.done, err := true } }

/-! ## Refusals, codes, the fatal state -/

/-- R137: a command that ends with a code in `0x20 … 0x3F` changes exactly `CODE`, `LASTOP`, `LASTCH`,
`BUSY`, `RET` and `IRQSTAT.ERR`, and nothing else; `CMDCNT` was incremented at issue. -/
def Obligations.RefusalChangesNothingElse : Prop :=
  (∀ s t : State, complete s = .next t → t.status.code.isRefusal = true →
    t = { s with
      status :=
        { code := t.status.code
          lastOp := s.latch.extractLsb' 24 8
          lastCh := s.latch.extractLsb' 8 4
          fatal := s.status.fatal
          busy := false }
      ret := 0#32
      irqStat := { done := s.irqStat.done, err := true } }) ∧
  (∀ (s : State) (w : Word), (issue w s).cmdCnt = s.cmdCnt + 1#32)

/-- R56 steps 1, 3, 4, 5 in their order, for every command that takes a channel: the code, and the fatal
state entered only at step 5. -/
def Obligations.CommonChecksInOrder : Prop :=
  ∀ (i : Instr) (ch : Chan) (s : State), i.chan? = some ch →
    ∃ t, exec i s = .next t ∧
      (s.status.fatal = true → t.status.code = .eFatal) ∧
      (s.status.fatal = false → s.cfg.nch ≤ ch.val → t.status.code = .eIllfld) ∧
      (i ∈ [.fwd ch, .adapt ch, .inv ch, .drain ch, .peek ch] → ChannelReady ch s →
        ((s.ctx ch).valid = false → t.status.code = .eNoctx) ∧
        ((s.ctx ch).valid = true → ¬ s.CtxInv ch (s.ctx ch) →
          t.status.code = .eInternal ∧ t.status.fatal = true))

/-- The checks of `INIT` and `CTXLD` in order (spec/41_context_commands.md R86, R88). -/
def Obligations.ContextCommandChecksInOrder : Prop :=
  ∀ (ch : Chan) (s : State), ChannelReady ch s →
    (∃ t, exec (.init ch) s = .next t ∧
      t.status.code =
        if ¬ LegalTl (initOperands s).tlmax s.cfg.tlMax then .eTl
        else if (initOperands s).size < (initOperands s).tlmax then .eOvsize
        else if s.cfg.ovWords < (initOperands s).base + (initOperands s).size then .eOvmem
        else if ¬ s.RegionFree ch (initOperands s).base (initOperands s).size then .eOvmem
        else .ok) ∧
    (∃ t, exec (.ctxld ch) s = .next t ∧
      t.status.code = if s.CtxInv ch (ctxldImage s) then .ok else .eCtxld)

/-- The checks of `FWD` in order (spec/42_forward_transform.md R95, spec/60_exceptions.md R140). -/
def Obligations.ForwardChecksInOrder : Prop :=
  ∀ (ch : Chan) (s : State), ContextReady ch s →
    ∃ t, exec (.fwd ch) s = .next t ∧
      t.status.code =
        if (s.ctx ch).dir = .inv then .eDir
        else if ¬ LegalTl (fwdOperands s).tl (s.ctx ch).tlMax.toNat then .eTl
        else if (fwdOperands s).fr % 2 = 1 ∨ (fwdOperands s).tl < (fwdOperands s).fr ∨
            (fwdOperands s).nr ≠ ((fwdOperands s).tl - (fwdOperands s).fr) / 2 ∨
            (fwdOperands s).tl < (s.ctx ch).prevFr.toNat then .eGeom
        else if (2 : Int) ^ 31 - 1 < (fwdOperands s).eIn + hs (fwdOperands s).tl then .eExp
        else if s.cfg.wmWords < (fwdOperands s).wrs + (fwdOperands s).fr then .eWmem
        else if s.cfg.dmWords < (fwdOperands s).inp + (fwdOperands s).tl ∨
            s.cfg.dmWords < (fwdOperands s).out + (fwdOperands s).tl then .eDmem
        else .ok

/-- The checks of `ADAPT` and `INV` in order (spec/43_inverse_transform.md R105, R109; R140). -/
def Obligations.InverseChecksInOrder : Prop :=
  ∀ (ch : Chan) (s : State), ContextReady ch s →
    (∃ t, exec (.adapt ch) s = .next t ∧
      t.status.code =
        if (s.ctx ch).dir = .fwd then .eDir
        else if ¬ LegalTl (adaptOperands s).tl (s.ctx ch).tlMax.toNat then .eTl
        else if (adaptOperands s).fl % 2 = 1 ∨ (adaptOperands s).tl < (adaptOperands s).fl then .eGeom
        else if (s.ctx ch).dir = .none ∧ ¬ LegalTl (adaptOperands s).nout (s.ctx ch).tlMax.toNat then
          .eCount
        else if (s.ctx ch).dir = .none ∧ (adaptOperands s).nout < (adaptOperands s).fl then .eGeom
        else if s.cfg.wmWords < (adaptOperands s).wls + (adaptOperands s).fl then .eWmem
        else .ok) ∧
    (∃ t, exec (.inv ch) s = .next t ∧
      t.status.code =
        if (s.ctx ch).dir ≠ .inv then .eDir
        else if ¬ LegalTl (invOperands s).tl (s.ctx ch).tlMax.toNat then .eTl
        else if (invOperands s).fl ≠ (s.ctx ch).prevFr.toNat then .eAdapt
        else if (invOperands s).tl < (invOperands s).fl ∨ (invOperands s).fr % 2 = 1 ∨
            (invOperands s).tl < (invOperands s).fr then .eGeom
        else if (invOperands s).nspec < 1 ∨ 2 ^ 31 ≤ (invOperands s).nspec ∨
            2 ^ 31 ≤ (invOperands s).nout then .eCount
        else if s.cfg.wmWords < (invOperands s).wrs + (invOperands s).fr then .eWmem
        else if s.cfg.dmWords < (invOperands s).spec + (invOperands s).nspec * (invOperands s).tl ∨
            s.cfg.dmWords < (invOperands s).scl + (invOperands s).nspec then .eDmem
        else if s.cfg.dmWords < (invOperands s).out + invDelivered (invOperands s) (s.ctx ch) then .eDmem
        else if (s.ctx ch).ovSize.toNat <
            (invTotal (invOperands s) (s.ctx ch) - invDelivered (invOperands s) (s.ctx ch)) +
              (invOperands s).tl / 2 then .eOvfull
        else .ok)

/-- The checks of `DRAIN` and `PEEK` in order (R118, R119, R140). -/
def Obligations.CopyChecksInOrder : Prop :=
  ∀ (ch : Chan) (s : State), ContextReady ch s →
    (∃ t, exec (.drain ch) s = .next t ∧
      t.status.code =
        if (s.ctx ch).dir ≠ .inv then .eDir
        else if 2 ^ 31 ≤ (copyOperands s).count then .eCount
        else if s.cfg.dmWords <
            (copyOperands s).out + min (s.ctx ch).fill.toNat (copyOperands s).count then .eDmem
        else .ok) ∧
    (∃ t, exec (.peek ch) s = .next t ∧
      t.status.code =
        if (s.ctx ch).dir ≠ .inv then .eDir
        else if 2 ^ 31 ≤ (copyOperands s).count then .eCount
        else if s.cfg.dmWords < (copyOperands s).out +
            min (copyOperands s).count ((s.ctx ch).fill.toNat + (s.ctx ch).prevNr.toNat) then .eDmem
        else .ok)

/-- The checks of the rate commands and of `GAIN` in order (spec/44_rate_control.md R125 to R127, R89). -/
def Obligations.GlobalCommandChecksInOrder : Prop :=
  ∀ s : State, s.status.fatal = false →
    (∃ t, exec .gain s = .next t ∧
      t.status.code = if LegalTl (s.uarg 2) s.cfg.tlMax then .ok else .eTl) ∧
    (∃ t, exec .rcinit s = .next t ∧ (t.status.code = .ok ↔ RcinitOk s) ∧
      (t.status.code = .eRcCfg ↔ ¬ RcinitOk s)) ∧
    (∀ m, ∃ t, exec (.rcallow m) s = .next t ∧
      t.status.code =
        if s.rc.valid = false then .eRcNotinit
        else if 2 ^ 31 ≤ budgetOperand m s then .eRcParam
        else .ok) ∧
    (∀ m, ∃ t, exec (.rcupd m) s = .next t ∧
      t.status.code =
        if s.rc.valid = false then .eRcNotinit
        else if 2 ^ 31 ≤ budgetOperand m s ∨ 2 ^ 31 ≤ s.uarg 1 then .eRcParam
        else if (s.rc.level.toNat : Int) + budgetOperand m s - s.uarg 1 < 0 then .wResUf
        else if (s.rc.size.toNat : Int) < (s.rc.level.toNat : Int) + budgetOperand m s - s.uarg 1 then
          .wResOf
        else .ok)

/-- The table of R140: which codes each command can end with. -/
def Obligations.CodesOfEachCommand : Prop :=
  ∀ (i : Instr) (s t : State), exec i s = .next t → t.status.code ∈ possibleCodes i

/-- R44: "a command that is not refused makes no out-of-range access" (such an access is a fault of the
model); and no behaviour of the engine is left stuck or undefined: every state has a next one. -/
def Obligations.EveryCommandCompletes : Prop :=
  (∀ (i : Instr) (s : State), ∃ t, exec i s = .next t) ∧ (∀ s : State, ∃ t, step s = .next t)

/-- R146: in the fatal state every command, and every illegal word, is refused with `E_FATAL`; and
`E_INTERNAL` changes exactly what R146 lists. -/
def Obligations.FatalStateRefusesCommands : Prop :=
  (∀ s : State, s.status.fatal = true → complete s = .next { s with
      status :=
        { code := .eFatal
          lastOp := s.latch.extractLsb' 24 8
          lastCh := s.latch.extractLsb' 8 4
          fatal := true
          busy := false }
      ret := 0#32
      irqStat := { done := s.irqStat.done, err := true } }) ∧
  (∀ s t : State, complete s = .next t → t.status.code = .eInternal → t = { s with
      status :=
        { code := .eInternal
          lastOp := s.latch.extractLsb' 24 8
          lastCh := s.latch.extractLsb' 8 4
          fatal := true
          busy := false }
      ret := 0#32
      irqStat := { done := s.irqStat.done, err := true } })

/-- R146: the fatal state is entered only by `E_INTERNAL` and left only by hard reset or by a host write
of `CTRL` with bit 0 set while the engine is idle. -/
def Obligations.FatalStateLeftOnlyByReset : Prop :=
  ∀ s t : State, step s = .next t →
    (s.status.fatal = false → t.status.fatal = true → t.status.code = .eInternal) ∧
    (s.status.fatal = true → t.status.fatal = false →
      (∃ rest, s.turns = .rst :: rest) ∨
      (∃ v rest, s.turns = .host (.write 0x3C#32 4 v) :: rest ∧ v.getLsbD 0 = true ∧
        s.status.busy = false))

/-- R17, R141: at a complete step `DONE` is set for `0x00` and `0x40 … 0x5F`, `ERR` for any code but
`0x00`, both are sticky; and `irq` is the level `(IRQSTAT & IRQEN & 3) ≠ 0`. -/
def Obligations.InterruptBitsAndLevel : Prop :=
  (∀ s t : State, complete s = .next t →
    (t.irqStat.done = true ↔ s.irqStat.done = true ∨ t.status.code.byte = 0x00#8 ∨
      (0x40 ≤ t.status.code.byte.toNat ∧ t.status.code.byte.toNat ≤ 0x5F)) ∧
    (t.irqStat.err = true ↔ s.irqStat.err = true ∨ t.status.code.byte ≠ 0x00#8)) ∧
  (∀ s : State, s.irq = true ↔ s.irqStat.word &&& s.irqEn.word &&& 3#32 ≠ 0#32)

/-! ## Context and utility commands -/

/-- R85: `NOP` completes with `OK`, `RET` is 0, and no argument register, flag, context, reservoir
register or memory byte changes. -/
def Obligations.NopResult : Prop :=
  ∀ s : State, s.status.fatal = false →
    ∃ t, exec .nop s = .next t ∧ Completes .nop .ok s t ∧ t.ret = 0#32 ∧ t.args = s.args ∧
      t.flags = s.flags ∧ SameContexts s t ∧ t.rc = s.rc ∧ SameMemories s t

/-- R86: `INIT` binds the region to the context with `DIR = NONE` and zeroes it; everything else stays. -/
def Obligations.InitResult : Prop :=
  ∀ (ch : Chan) (s : State), ChannelReady ch s → InitOk ch s →
    ∃ t, exec (.init ch) s = .next t ∧ Completes (.init ch) .ok s t ∧ t.ret = 0#32 ∧
      t.ctx ch =
        { valid := true, dir := .none, ovBase := s.arg 0, ovSize := s.arg 1, tlMax := s.arg 2,
          fill := 0#32, prevWrs := 0#32, prevTl := 0#32, prevNr := 0#32, prevFr := 0#32 } ∧
      (∀ k < (initOperands s).size, t.wordAt .ov ((initOperands s).base + k) = 0#32) ∧
      SameBytesOutside .ov (initOperands s).base (initOperands s).size s t ∧
      SameBytes .dm s t ∧ SameBytes .wm s t ∧
      t.args = s.args ∧ t.flags = s.flags ∧ t.rc = s.rc ∧ SameContextsBut ch s t

/-- R87: `FREE` sets all fields of the context to 0, whether it was bound or not; OVMEM is not changed. -/
def Obligations.FreeResult : Prop :=
  ∀ (ch : Chan) (s : State), ChannelReady ch s →
    ∃ t, exec (.free ch) s = .next t ∧ Completes (.free ch) .ok s t ∧ t.ret = 0#32 ∧
      t.ctx ch =
        { valid := false, dir := .none, ovBase := 0#32, ovSize := 0#32, tlMax := 0#32,
          fill := 0#32, prevWrs := 0#32, prevTl := 0#32, prevNr := 0#32, prevFr := 0#32 } ∧
      SameContextsBut ch s t ∧ t.args = s.args ∧ t.flags = s.flags ∧ t.rc = s.rc ∧ SameMemories s t

/-- R88: `CTXLD` loads an image that satisfies `CtxInv`; no memory changes. -/
def Obligations.CtxldResult : Prop :=
  ∀ (ch : Chan) (s : State), ChannelReady ch s → s.CtxInv ch (ctxldImage s) →
    ∃ t, exec (.ctxld ch) s = .next t ∧ Completes (.ctxld ch) .ok s t ∧ t.ret = 0#32 ∧
      (t.ctx ch).valid = true ∧ ((t.ctx ch).dir.bits.toNat = (s.arg 3).toNat) ∧
      (t.ctx ch).ovBase = s.arg 0 ∧ (t.ctx ch).ovSize = s.arg 1 ∧ (t.ctx ch).tlMax = s.arg 2 ∧
      (t.ctx ch).fill = s.arg 4 ∧ (t.ctx ch).prevWrs = s.arg 5 ∧ (t.ctx ch).prevTl = s.arg 6 ∧
      (t.ctx ch).prevNr = s.arg 7 ∧ (t.ctx ch).prevFr = s.arg 8 ∧
      SameContextsBut ch s t ∧ t.args = s.args ∧ t.flags = s.flags ∧ t.rc = s.rc ∧ SameMemories s t

/-- R88 (notes): an image read back from the registers of a valid context passes the checks when loaded
into the same channel, and the context is then what it was. -/
def Obligations.CtxldRestoresSavedImage : Prop :=
  ∀ (ch : Chan) (s : State), ContextReady ch s →
    s.arg 0 = (s.ctx ch).ovBase → s.arg 1 = (s.ctx ch).ovSize → s.arg 2 = (s.ctx ch).tlMax →
    (s.arg 3).toNat = (s.ctx ch).dir.bits.toNat → s.arg 4 = (s.ctx ch).fill →
    s.arg 5 = (s.ctx ch).prevWrs → s.arg 6 = (s.ctx ch).prevTl → s.arg 7 = (s.ctx ch).prevNr →
    s.arg 8 = (s.ctx ch).prevFr →
    ∃ t, exec (.ctxld ch) s = .next t ∧ t.status.code = .ok ∧ t.ctxs = s.ctxs

/-- R89: `GAIN` writes the pair of R89 to A0 and A1, reads no context and no memory. -/
def Obligations.GainResult : Prop :=
  ∀ (s : State) (L : Nat), s.status.fatal = false → LegalTl (s.uarg 2) s.cfg.tlMax →
    2 ^ L ≤ s.uarg 2 → s.uarg 2 < 2 ^ (L + 1) →
    ∃ t, exec .gain s = .next t ∧ Completes .gain .ok s t ∧ t.ret = 0#32 ∧
      (s.uarg 2 = 2 ^ L → t.arg 0 = 0x40000000#32 ∧ t.arg 1 = w32 (2 - (L : Int) - s.cfg.outGainE)) ∧
      (s.uarg 2 ≠ 2 ^ L →
        t.arg 0 = w32 ⌊(2 : ℚ) ^ (31 + L) / (s.uarg 2 : ℚ) + 1 / 2⌋ ∧
        t.arg 1 = w32 (1 - (L : Int) - s.cfg.outGainE)) ∧
      SameArgsBut [0, 1] s t ∧ t.flags = s.flags ∧ SameContexts s t ∧ t.rc = s.rc ∧ SameMemories s t

/-- R89, result meaning: the mantissa is normalised, and the pair stands for `2/tl × 2^(−OUTGAIN_E)`, exactly
for a power of two and to within `2^−31` relative otherwise. -/
def Obligations.GainIsNormalisedReciprocal : Prop :=
  ∀ (tl : Nat) (e : Int), 2 ≤ tl → tl ≤ 32768 →
    2 ^ 30 ≤ gainMantissa tl ∧ gainMantissa tl < 2 ^ 31 ∧
    |(gainMantissa tl : ℚ) * (2 : ℚ) ^ (gainExponent tl e - 31) - 2 / (tl : ℚ) * (2 : ℚ) ^ (-e)| ≤
      2 / (tl : ℚ) * (2 : ℚ) ^ (-e) * (2 : ℚ) ^ (-31 : Int)

/-! ## Forward transform -/

/-- R95 to R100: one forward block. The spectrum, the kept samples, the context, the exponent and the count
are the formulas of the rules over the state before the command; everything else stays. -/
def Obligations.ForwardBlockResult : Prop :=
  ∀ (ch : Chan) (s : State), ContextReady ch s → FwdOk ch s →
    ∃ t, exec (.fwd ch) s = .next t ∧ Completes (.fwd ch) .ok s t ∧
      t.ret = w32n (fwdOperands s).tl ∧
      t.arg 1 = w32 ((fwdOperands s).eIn + hs (fwdOperands s).tl) ∧ SameArgsBut [1] s t ∧
      (∀ k < (fwdOperands s).tl,
        t.wordAt .dm ((fwdOperands s).out + k) =
          w32 (sat32 (rshr (fwdY s ch k) (31 + hs (fwdOperands s).tl)))) ∧
      SameBytesOutside .dm (fwdOperands s).out (fwdOperands s).tl s t ∧
      (∀ k < (fwdOperands s).fr / 2 + (s.ctx ch).tlMax.toNat / 2,
        t.wordAt .ov ((s.ctx ch).ovBase.toNat + k) =
          w32 (fwdLine s ch
            ((fwdOperands s).tl + (s.ctx ch).prevFr.toNat / 2 - (fwdOperands s).fr / 2 + k))) ∧
      SameBytesOutside .ov (s.ctx ch).ovBase.toNat
        ((fwdOperands s).fr / 2 + (s.ctx ch).tlMax.toNat / 2) s t ∧
      SameBytes .wm s t ∧
      t.ctx ch =
        { s.ctx ch with
          dir := .fwd
          fill := w32n ((fwdOperands s).fr / 2 + (s.ctx ch).tlMax.toNat / 2)
          prevWrs := s.arg 5, prevTl := s.arg 2, prevNr := s.arg 3, prevFr := s.arg 4 } ∧
      SameContextsBut ch s t ∧ t.flags = s.flags ∧ t.rc = s.rc

/-- spec/40_numeric.md R82: `FWD` never saturates, whatever the operands and the contents of the memories:
it never changes `FLAGS`. -/
def Obligations.ForwardNeverSaturates : Prop :=
  (∀ (ch : Chan) (s t : State), exec (.fwd ch) s = .next t → t.flags = s.flags) ∧
  (∀ (ch : Chan) (s : State), ContextReady ch s → FwdOk ch s → ∀ k < (fwdOperands s).tl,
    saturates (rshr (fwdY s ch k) (31 + hs (fwdOperands s).tl)) = false)

/-! ## Inverse direction -/

/-- R105, R106: the four cases of `ADAPT`; "the shorter slope wins". OVMEM is never written. -/
def Obligations.AdaptResult : Prop :=
  ∀ (ch : Chan) (s : State), ContextReady ch s → AdaptOk ch s →
    ∃ t, exec (.adapt ch) s = .next t ∧ Completes (.adapt ch) .ok s t ∧
      SameArgsBut [0, 1] s t ∧ t.flags = s.flags ∧ t.rc = s.rc ∧ SameContextsBut ch s t ∧
      SameMemories s t ∧
      ((s.ctx ch).dir = .none →
        t.ret = 3#32 ∧ t.arg 0 = s.arg 0 ∧ t.arg 1 = w32n ((s.uarg 2 - s.uarg 0) / 2) ∧
        t.ctx ch =
          { s.ctx ch with
            dir := .inv, fill := 0#32, prevTl := s.arg 4, prevFr := s.arg 0
            prevNr := w32n ((s.uarg 4 - s.uarg 0) / 2), prevWrs := s.arg 3 }) ∧
      ((s.ctx ch).dir = .inv → s.uarg 0 = (s.ctx ch).prevFr.toNat →
        t.ret = 0#32 ∧ t.arg 0 = s.arg 0 ∧ t.arg 1 = w32n ((s.uarg 2 - s.uarg 0) / 2) ∧
        t.ctx ch = s.ctx ch) ∧
      ((s.ctx ch).dir = .inv → s.uarg 0 < (s.ctx ch).prevFr.toNat →
        t.ret = 1#32 ∧ t.arg 0 = s.arg 0 ∧ t.arg 1 = w32n ((s.uarg 2 - s.uarg 0) / 2) ∧
        t.ctx ch =
          { s.ctx ch with
            prevFr := s.arg 0
            prevNr := w32n (((s.ctx ch).prevTl.toNat - s.uarg 0) / 2), prevWrs := s.arg 3 }) ∧
      ((s.ctx ch).dir = .inv → (s.ctx ch).prevFr.toNat < s.uarg 0 →
        t.ret = 2#32 ∧ t.arg 0 = (s.ctx ch).prevFr ∧
        t.arg 1 = w32n ((s.uarg 2 - (s.ctx ch).prevFr.toNat) / 2) ∧ t.ctx ch = s.ctx ch)

/-- R109 to R116: the inverse transform of one or more blocks. Delivered samples, new pending part, new
carry, context, count and `FLAGS.SAT` are the formulas of the rules over the state before the command;
everything else stays. -/
def Obligations.InverseBlocksResult : Prop :=
  ∀ (ch : Chan) (s : State), ContextReady ch s → InvOk ch s →
    ∃ t, exec (.inv ch) s = .next t ∧ Completes (.inv ch) .ok s t ∧
      t.ret = w32n (invDelivered (invOperands s) (s.ctx ch)) ∧ t.args = s.args ∧
      (∀ k < invDelivered (invOperands s) (s.ctx ch),
        t.wordAt .dm ((invOperands s).out + k) = w32 (invQ s ch k)) ∧
      SameBytesOutside .dm (invOperands s).out (invDelivered (invOperands s) (s.ctx ch)) s t ∧
      (∀ k < invTotal (invOperands s) (s.ctx ch) - invDelivered (invOperands s) (s.ctx ch),
        t.wordAt .ov ((s.ctx ch).ovBase.toNat + k) =
          w32 (invQ s ch (invDelivered (invOperands s) (s.ctx ch) + k))) ∧
      (∀ k < (invOperands s).tl / 2,
        t.wordAt .ov ((s.ctx ch).ovBase.toNat + (s.ctx ch).ovSize.toNat - (invOperands s).tl / 2 + k) =
          w32 (invTc s ((invOperands s).nspec - 1) k)) ∧
      (∀ b,
        (b < 4 * (s.ctx ch).ovBase.toNat ∨
          4 * ((s.ctx ch).ovBase.toNat +
            (invTotal (invOperands s) (s.ctx ch) - invDelivered (invOperands s) (s.ctx ch))) ≤ b) →
        (b < 4 * ((s.ctx ch).ovBase.toNat + (s.ctx ch).ovSize.toNat - (invOperands s).tl / 2) ∨
          4 * ((s.ctx ch).ovBase.toNat + (s.ctx ch).ovSize.toNat) ≤ b) →
        t.byteAt .ov b = s.byteAt .ov b) ∧
      SameBytes .wm s t ∧
      t.ctx ch =
        { s.ctx ch with
          fill := w32n (invTotal (invOperands s) (s.ctx ch) - invDelivered (invOperands s) (s.ctx ch))
          prevTl := s.arg 4, prevFr := s.arg 8
          prevNr := w32n (((invOperands s).tl - (invOperands s).fr) / 2), prevWrs := s.arg 7 } ∧
      SameContextsBut ch s t ∧ t.rc = s.rc ∧
      (t.flags.sat = true ↔ s.flags.sat = true ∨ InvClamps s ch) ∧
      t.flags.rcUf = s.flags.rcUf ∧ t.flags.rcOf = s.flags.rcOf

/-- R110: "the operand `WLS` (`A[5]`) … is not read, not checked and not used". -/
def Obligations.InverseIgnoresLeftWindowOperand : Prop :=
  ∀ (ch : Chan) (s t : State) (v : Word), exec (.inv ch) s = .next t →
    exec (.inv ch) (s.setArg 5 v) = .next (t.setArg 5 v)

/-- R118: `DRAIN` takes the oldest pending samples and moves the rest down. -/
def Obligations.DrainResult : Prop :=
  ∀ (ch : Chan) (s : State), ContextReady ch s → DrainOk ch s →
    ∃ t, exec (.drain ch) s = .next t ∧ Completes (.drain ch) .ok s t ∧
      t.ret = w32n (min (s.ctx ch).fill.toNat (s.uarg 1)) ∧ t.args = s.args ∧
      (∀ k < min (s.ctx ch).fill.toNat (s.uarg 1),
        t.wordAt .dm (s.uarg 0 + k) = s.wordAt .ov ((s.ctx ch).ovBase.toNat + k)) ∧
      SameBytesOutside .dm (s.uarg 0) (min (s.ctx ch).fill.toNat (s.uarg 1)) s t ∧
      (∀ k < (s.ctx ch).fill.toNat - min (s.ctx ch).fill.toNat (s.uarg 1),
        t.wordAt .ov ((s.ctx ch).ovBase.toNat + k) =
          s.wordAt .ov ((s.ctx ch).ovBase.toNat + min (s.ctx ch).fill.toNat (s.uarg 1) + k)) ∧
      SameBytesOutside .ov (s.ctx ch).ovBase.toNat
        ((s.ctx ch).fill.toNat - min (s.ctx ch).fill.toNat (s.uarg 1)) s t ∧
      SameBytes .wm s t ∧
      t.ctx ch =
        { s.ctx ch with fill := w32n ((s.ctx ch).fill.toNat - min (s.ctx ch).fill.toNat (s.uarg 1)) } ∧
      SameContextsBut ch s t ∧ t.flags = s.flags ∧ t.rc = s.rc

/-- R119: `PEEK` shows the pending samples and the flat tail; no context field and no OVMEM word changes. -/
def Obligations.PeekResult : Prop :=
  ∀ (ch : Chan) (s : State), ContextReady ch s → PeekOk ch s →
    ∃ t, exec (.peek ch) s = .next t ∧ Completes (.peek ch) .ok s t ∧
      t.ret = w32n (peekCount ch s) ∧ t.args = s.args ∧
      peekCount ch s = min (s.uarg 1) ((s.ctx ch).fill.toNat + (s.ctx ch).prevNr.toNat) ∧
      (∀ k < min (peekCount ch s) (s.ctx ch).fill.toNat,
        t.wordAt .dm (s.uarg 0 + k) = s.wordAt .ov ((s.ctx ch).ovBase.toNat + k)) ∧
      (∀ k < peekCount ch s - (s.ctx ch).fill.toNat,
        t.wordAt .dm (s.uarg 0 + (s.ctx ch).fill.toNat + k) =
          w32 (sat32 (-s32 (s.wordAt .ov
            ((s.ctx ch).ovBase.toNat + (s.ctx ch).ovSize.toNat - 1 - k)) * 2 ^ 2))) ∧
      SameBytesOutside .dm (s.uarg 0) (peekCount ch s) s t ∧ SameBytes .ov s t ∧ SameBytes .wm s t ∧
      SameContexts s t ∧ t.rc = s.rc ∧
      (t.flags.sat = true ↔ s.flags.sat = true ∨
        ∃ k < peekCount ch s - (s.ctx ch).fill.toNat,
          saturates (-s32 (s.wordAt .ov
            ((s.ctx ch).ovBase.toNat + (s.ctx ch).ovSize.toNat - 1 - k)) * 2 ^ 2) = true) ∧
      t.flags.rcUf = s.flags.rcUf ∧ t.flags.rcOf = s.flags.rcOf

/-- R120 item 2, for one command: what `INV` and `DRAIN` answer plus what stays pending is what there was
plus what the blocks produced. -/
def Obligations.SamplesAreConserved : Prop :=
  ∀ (ch : Chan) (s t : State), ContextReady ch s →
    (exec (.inv ch) s = .next t → t.status.code = .ok →
      t.ret.toNat + (t.ctx ch).fill.toNat + (s.uarg 4) / 2 =
        (s.ctx ch).fill.toNat + (s.ctx ch).prevTl.toNat / 2 + s.uarg 2 * s.uarg 4) ∧
    (exec (.drain ch) s = .next t → t.status.code = .ok →
      t.ret.toNat + (t.ctx ch).fill.toNat = (s.ctx ch).fill.toNat)

/-- R119 (meaning) and R120 item 3: what `PEEK` shows is what the next `DRAIN` or `INV` of the channel
delivers first, whatever its operands; for `INV` also the flat tail, "whatever block comes next". -/
def Obligations.PeekShowsWhatIsDelivered : Prop :=
  ∀ (ch : Chan) (s t u r : State) (args : Vector Word 16), ContextReady ch s →
    exec (.peek ch) s = .next t → t.status.code = .ok → u = { t with args := args } →
    (exec (.drain ch) u = .next r → r.status.code = .ok → ∀ k,
      k < (s.ctx ch).fill.toNat → k < t.ret.toNat → k < r.ret.toNat →
      r.wordAt .dm (u.uarg 0 + k) = t.wordAt .dm (s.uarg 0 + k)) ∧
    (exec (.inv ch) u = .next r → r.status.code = .ok → ∀ k,
      k < t.ret.toNat → k < r.ret.toNat →
      r.wordAt .dm (u.uarg 11 + k) = t.wordAt .dm (s.uarg 0 + k))

/-- R120 item 4: `INV` with `nout = n` followed by `DRAIN` of the rest delivers the same words as one `INV`
that delivers everything. -/
def Obligations.SplittingDeliveryKeepsSamples : Prop :=
  ∀ (ch : Chan) (s t r all : State) (n : Nat), s.cfg.Valid → ContextReady ch s →
    n ≤ invTotal (invOperands s) (s.ctx ch) → invTotal (invOperands s) (s.ctx ch) < 2 ^ 31 →
    exec (.inv ch) (s.setArg 3 (w32n n)) = .next t → t.status.code = .ok →
    exec (.drain ch) ((t.setArg 0 (w32n (s.uarg 11 + n))).setArg 1
      (w32n (invTotal (invOperands s) (s.ctx ch) - n))) = .next r → r.status.code = .ok →
    exec (.inv ch) (s.setArg 3 (w32n (invTotal (invOperands s) (s.ctx ch)))) = .next all →
    all.status.code = .ok →
    ∀ k < invTotal (invOperands s) (s.ctx ch),
      r.wordAt .dm (s.uarg 11 + k) = all.wordAt .dm (s.uarg 11 + k)

/-! ## Rate control -/

/-- R125: `RCINIT` replaces the whole record and answers the level. -/
def Obligations.RcinitResult : Prop :=
  ∀ s : State, s.status.fatal = false → RcinitOk s →
    ∃ t, exec .rcinit s = .next t ∧ Completes .rcinit .ok s t ∧ t.ret = s.arg 5 ∧
      t.rc =
        { valid := true, level := s.arg 5, size := s.arg 0, min := s.arg 1, max := s.arg 2,
          avg := s.arg 3, borrow := s.arg 4 } ∧
      t.args = s.args ∧ t.flags = s.flags ∧ SameContexts s t ∧ SameMemories s t

/-- R126, R59: the allowed bit count; the query changes nothing but `RET`. -/
def Obligations.RcallowResult : Prop :=
  ∀ (m : Bool) (s : State), s.status.fatal = false → s.rc.valid = true →
    (if m then s.rc.avg.toNat else s.uarg 0) < 2 ^ 31 →
    ∃ t, exec (.rcallow m) s = .next t ∧ Completes (.rcallow m) .ok s t ∧
      t.ret = w32 (clamp
        (((if m then s.rc.avg.toNat else s.uarg 0) + min s.rc.level.toNat s.rc.borrow.toNat : Nat) : Int)
        s.rc.min.toNat s.rc.max.toNat) ∧
      t.rc = s.rc ∧ t.args = s.args ∧ t.flags = s.flags ∧ SameContexts s t ∧ SameMemories s t

/-- R126, properties: the allowance lies between `RC_MIN` and `RC_MAX` and is monotone in the budget and in
the level. -/
def Obligations.AllowanceIsBoundedAndMonotone : Prop :=
  ∀ (r : RateCtl) (b b' : Nat) (l' : Word), r.valid = true → r.Ok → b ≤ b' → r.level.toNat ≤ l'.toNat →
    (r.min.toNat : Int) ≤ allowedBits r b ∧ allowedBits r b ≤ r.max.toNat ∧
    allowedBits r b ≤ allowedBits r b' ∧ allowedBits r b ≤ allowedBits { r with level := l' } b

/-- R127, R139: the reservoir update; the clamped level is committed also when the code is an event. -/
def Obligations.RcupdResult : Prop :=
  ∀ (m : Bool) (s : State), s.status.fatal = false → s.rc.valid = true →
    (if m then s.rc.avg.toNat else s.uarg 0) < 2 ^ 31 → s.uarg 1 < 2 ^ 31 →
    ∃ (t : State) (c : Code) (level : Word),
      exec (.rcupd m) s = .next t ∧ Completes (.rcupd m) c s t ∧
      t.ret = level ∧ t.rc = { s.rc with level := level } ∧ SameArgsBut [2] s t ∧
      SameContexts s t ∧ SameMemories s t ∧
      (let v := (s.rc.level.toNat : Int) + (if m then s.rc.avg.toNat else s.uarg 0 : Nat) - s.uarg 1
       (v < 0 → c = .wResUf ∧ level = 0#32 ∧ t.arg 2 = 1#32 ∧ t.flags = { s.flags with rcUf := true }) ∧
       (¬ v < 0 → (s.rc.size.toNat : Int) < v →
          c = .wResOf ∧ level = s.rc.size ∧ t.arg 2 = 2#32 ∧ t.flags = { s.flags with rcOf := true }) ∧
       (¬ v < 0 → ¬ (s.rc.size.toNat : Int) < v →
          c = .ok ∧ level = w32 v ∧ t.arg 2 = 0#32 ∧ t.flags = s.flags))

/-- R25: the reservoir invariant, kept by every step of the machine. -/
def Obligations.ReservoirStaysInBounds : Prop :=
  ∀ s t : State, s.rc.Ok → step s = .next t → t.rc.Ok

/-! ## The host port -/

/-- spec/20_memory.md R40: while busy only a word read of `STATUS` is served, with `BUSY = 1` and the other
fields as before the command; every other access answers `ERROR` and changes nothing. -/
def Obligations.BusyPortServesOnlyStatus : Prop :=
  (∀ (a : HostAccess) (s : State), s.status.busy = true →
    (a = .read 0x24#32 4 → serve a s = { s with resp := some (.okayData s.status.word) }) ∧
    (a ≠ .read 0x24#32 4 → serve a s = { s with resp := some .error }) ∧
    s.status.word.getLsbD 31 = true) ∧
  (∀ (w : Word) (s : State), (issue w s).status = { s.status with busy := true })

/-- R36, R37: an access of another width, a misaligned one, and one to a reserved range answer `ERROR` and
change nothing. -/
def Obligations.BadAccessAnswersError : Prop :=
  ∀ (addr : Word) (n : Nat) (v : Word) (s : State), s.cfg.Valid →
    (n ≠ 4 ∨ addr.toNat % 4 ≠ 0 ∨ (0x9C ≤ addr.toNat ∧ addr.toNat < 0x400) ∨
      (0x400 + 0x40 * s.cfg.nch ≤ addr.toNat ∧ addr.toNat < 0x100000) ∨
      (0x100000 + 4 * s.cfg.dmWords ≤ addr.toNat ∧ addr.toNat < 0x200000) ∨
      (0x200000 + 4 * s.cfg.wmWords ≤ addr.toNat ∧ addr.toNat < 0x300000) ∨
      0x300000 + 4 * s.cfg.ovWords ≤ addr.toNat) →
    serve (.read addr n) s = { s with resp := some .error } ∧
    serve (.write addr n v) s = { s with resp := some .error }

/-- R39: "A host read of any register or memory word has no side effect"; a write to a read-only register
answers `OKAY` and is ignored; a read of a write-only register answers 0. -/
def Obligations.HostAccessRights : Prop :=
  (∀ (addr : Word) (n : Nat) (s : State), ∃ r, serve (.read addr n) s = { s with resp := some r }) ∧
  ∀ (s : State) (v : Word), s.cfg.Valid → s.status.busy = false →
    (∀ addr : Word, addr.toNat % 4 = 0 →
      (addr.toNat < 0x20 ∨ addr.toNat = 0x24 ∨ addr.toNat = 0x28 ∨ addr.toNat = 0x38 ∨
        (0x80 ≤ addr.toNat ∧ addr.toNat < 0x9C) ∨
        (0x400 ≤ addr.toNat ∧ addr.toNat < 0x400 + 0x40 * s.cfg.nch)) →
      serve (.write addr 4 v) s = { s with resp := some .okay }) ∧
    serve (.read 0x20#32 4) s = { s with resp := some (.okayData 0#32) } ∧
    serve (.read 0x3C#32 4) s = { s with resp := some (.okayData 0#32) }

/-- The registers stand at the addresses of spec/10_state.md R12 to R20 and R24; `STATUS`, `FLAGS`, `IRQEN`,
`IRQSTAT`, `CTX_CTL` and `RC_CTL` have the bits of R15 to R17, R20 and R24, `CODE` with the numbers of
spec/60_exceptions.md R135 and `DIR` with those of R20; write-only registers and the unused offsets of a
context read 0. -/
def Obligations.HostReadsEveryRegister : Prop :=
  ∀ s : State, s.cfg.Valid → s.status.busy = false →
    let reads (addr : Nat) (v : Word) : Prop :=
      serve (.read (w32n addr) 4) s = { s with resp := some (.okayData v) }
    reads 0x00 0x4D440100#32 ∧ reads 0x04 (w32n s.cfg.nch) ∧ reads 0x08 (w32n s.cfg.tlMax) ∧
    reads 0x0C (w32n s.cfg.dmWords) ∧ reads 0x10 (w32n s.cfg.wmWords) ∧
    reads 0x14 (w32n s.cfg.ovWords) ∧ reads 0x18 (w32 s.cfg.outGainE) ∧ reads 0x1C 0#32 ∧
    (∃ st : Word, reads 0x24 st ∧
      (∀ p ∈ ([(.ok, 0x00#8), (.eIllop, 0x20#8), (.eIllfld, 0x21#8), (.eFatal, 0x22#8), (.eNoctx, 0x23#8),
          (.eDir, 0x24#8), (.eTl, 0x25#8), (.eGeom, 0x26#8), (.eAdapt, 0x27#8), (.eDmem, 0x28#8),
          (.eWmem, 0x29#8), (.eOvmem, 0x2A#8), (.eOvsize, 0x2B#8), (.eOvfull, 0x2C#8), (.eCount, 0x2D#8),
          (.eExp, 0x2E#8), (.eCtxld, 0x2F#8), (.eRcNotinit, 0x30#8), (.eRcCfg, 0x31#8),
          (.eRcParam, 0x32#8), (.wResUf, 0x41#8), (.wResOf, 0x42#8), (.eInternal, 0x7F#8)] :
          List (Code × BitVec 8)), s.status.code = p.1 → st.extractLsb' 0 8 = p.2) ∧
      st.extractLsb' 8 8 = s.status.lastOp ∧ st.extractLsb' 16 4 = s.status.lastCh ∧
      st.extractLsb' 20 10 = 0#10 ∧ st.getLsbD 30 = s.status.fatal ∧ st.getLsbD 31 = false) ∧
    reads 0x28 s.ret ∧
    (∃ f : Word, reads 0x2C f ∧ f.getLsbD 0 = s.flags.sat ∧ f.getLsbD 1 = s.flags.rcUf ∧
      f.getLsbD 2 = s.flags.rcOf ∧ f.extractLsb' 3 29 = 0#29) ∧
    (∃ q : Word, reads 0x30 q ∧ q.getLsbD 0 = s.irqEn.done ∧ q.getLsbD 1 = s.irqEn.err ∧
      q.extractLsb' 2 30 = 0#30) ∧
    (∃ q : Word, reads 0x34 q ∧ q.getLsbD 0 = s.irqStat.done ∧ q.getLsbD 1 = s.irqStat.err ∧
      q.extractLsb' 2 30 = 0#30) ∧
    reads 0x20 0#32 ∧ reads 0x38 s.cmdCnt ∧ reads 0x3C 0#32 ∧
    (∀ i : Fin 16, reads (0x40 + 4 * i.val) (s.arg i)) ∧
    (∃ ctl : Word, reads 0x80 ctl ∧ ctl.toNat = s.rc.valid.toNat) ∧
    reads 0x84 s.rc.level ∧ reads 0x88 s.rc.size ∧ reads 0x8C s.rc.min ∧ reads 0x90 s.rc.max ∧
    reads 0x94 s.rc.avg ∧ reads 0x98 s.rc.borrow ∧
    (∀ c : Chan, c.val < s.cfg.nch →
      (∃ ctl : Word, reads (0x400 + 0x40 * c.val) ctl ∧ ctl.getLsbD 0 = (s.ctx c).valid ∧
        ctl.extractLsb' 1 2 = (s.ctx c).dir.bits ∧ ctl.extractLsb' 3 29 = 0#29 ∧
        (∀ p ∈ ([(.none, 0#2), (.fwd, 1#2), (.inv, 2#2)] : List (Dir × BitVec 2)),
          (s.ctx c).dir = p.1 → ctl.extractLsb' 1 2 = p.2)) ∧
      reads (0x404 + 0x40 * c.val) (s.ctx c).ovBase ∧ reads (0x408 + 0x40 * c.val) (s.ctx c).ovSize ∧
      reads (0x40C + 0x40 * c.val) (s.ctx c).tlMax ∧ reads (0x410 + 0x40 * c.val) (s.ctx c).fill ∧
      reads (0x414 + 0x40 * c.val) (s.ctx c).prevWrs ∧ reads (0x418 + 0x40 * c.val) (s.ctx c).prevTl ∧
      reads (0x41C + 0x40 * c.val) (s.ctx c).prevNr ∧ reads (0x420 + 0x40 * c.val) (s.ctx c).prevFr ∧
      (∀ k, 9 ≤ k → k ≤ 15 → reads (0x400 + 0x40 * c.val + 4 * k) 0#32))

/-- R35, R36: a host write of a memory word stores it, at its address in its own window, and no other byte
of any memory changes; a read afterwards answers it. -/
def Obligations.HostMemoryReadAfterWrite : Prop :=
  ∀ (sp : Space) (a : Nat) (v : Word) (s : State), s.cfg.Valid → s.status.busy = false →
    a < s.cfg.words sp →
    ∃ t, serve (.write (memAddr sp a) 4 v) s = t ∧ t.resp = some .okay ∧
      serve (.read (memAddr sp a) 4) t = { t with resp := some (.okayData v) } ∧
      SameBytesOutside sp a 1 s t ∧ (∀ sp', sp' ≠ sp → SameBytes sp' s t) ∧
      t.args = s.args ∧ t.ret = s.ret ∧ t.status = s.status ∧ t.flags = s.flags ∧ t.irqEn = s.irqEn ∧
      t.irqStat = s.irqStat ∧ t.cmdCnt = s.cmdCnt ∧ t.latch = s.latch ∧ t.ctxs = s.ctxs ∧ t.rc = s.rc ∧
      t.cfg = s.cfg

/-- R16, R17: `FLAGS` and `IRQSTAT` are write-one-to-clear, `IRQEN` keeps bits 1:0, and nothing else
changes. -/
def Obligations.HostWritesOfFlagsAndInterrupts : Prop :=
  ∀ (s : State) (v : Word), s.status.busy = false →
    (∃ f : Flags, serve (.write 0x2C#32 4 v) s = { s with flags := f, resp := some .okay } ∧
      f.word = s.flags.word &&& ~~~v) ∧
    (∃ q : IrqBits, serve (.write 0x34#32 4 v) s = { s with irqStat := q, resp := some .okay } ∧
      q.word = s.irqStat.word &&& ~~~v) ∧
    (∃ q : IrqBits, serve (.write 0x30#32 4 v) s = { s with irqEn := q, resp := some .okay } ∧
      q.word = v &&& 3#32)

/-- R14, R18, R56 (issue), R12: an idle write of `CMD` latches the word, sets `BUSY` and counts it modulo
2^32; an idle write of `A[i]` stores it; nothing else changes. -/
def Obligations.HostIssuesCommandAndWritesArguments : Prop :=
  ∀ (s : State) (w : Word), s.status.busy = false →
    serve (.write 0x20#32 4 w) s =
      { s with
        latch := w
        status := { s.status with busy := true }
        cmdCnt := w32n (s.cmdCnt.toNat + 1)
        resp := some .okay } ∧
    (∀ i : Fin 16, serve (.write (argAddr i) 4 w) s =
      { s with args := s.args.set i w, resp := some .okay })

/-- spec/70_reset_and_hazards.md R161: soft reset sets every register to its hard-reset value and leaves the
three memories word for word, within the write; with bit 0 clear (spec/10_state.md R19), or while busy, it
resets nothing. That the turns still to come and the configuration stay is the model's choice (assumption
log 12). -/
def Obligations.SoftResetKeepsMemories : Prop :=
  ∀ (s : State) (v : Word),
    (s.status.busy = false → v.getLsbD 0 = true →
      ∃ t, serve (.write 0x3C#32 4 v) s = t ∧ t.resp = some .okay ∧
        (∀ i, t.arg i = 0#32) ∧ t.ret = 0#32 ∧ t.status.word = 0#32 ∧ t.flags.word = 0#32 ∧
        t.irqEn.word = 0#32 ∧ t.irqStat.word = 0#32 ∧ t.irq = false ∧ t.cmdCnt = 0#32 ∧
        t.latch = 0#32 ∧ (∀ c, t.ctx c = Ctx.blank) ∧ t.rc = RateCtl.blank ∧ SameMemories s t ∧
        t.cfg = s.cfg ∧ t.turns = s.turns) ∧
    (s.status.busy = false → v.getLsbD 0 = false →
      serve (.write 0x3C#32 4 v) s = { s with resp := some .okay }) ∧
    (s.status.busy = true → serve (.write 0x3C#32 4 v) s = { s with resp := some .error })

/-- R160, spec/10_state.md R29: after hard reset every register is 0, no context is bound, the reservoir is
not configured, nothing is pending, and what the memories hold is unspecified: it is the free value of the
new epoch, byte for byte, and the epoch is one that was not before (the model's form of it, assumption log
2). The same of the state after reset. -/
def Obligations.HardResetClearsRegisters : Prop :=
  let cleared (t : State) : Prop :=
    (∀ i, t.arg i = 0#32) ∧ t.ret = 0#32 ∧ t.status.word = 0#32 ∧ t.flags.word = 0#32 ∧
    t.irqEn.word = 0#32 ∧ t.irqStat.word = 0#32 ∧ t.irq = false ∧ t.cmdCnt = 0#32 ∧
    t.latch = 0#32 ∧ (∀ c, t.ctx c = Ctx.blank) ∧ t.rc = RateCtl.blank ∧
    (∀ sp b, t.byteAt sp b = Config.freeByte sp t.epoch b)
  (∀ (s t : State) (rest : List Turn), s.turns = .rst :: rest → step s = .next t →
    cleared t ∧ t.epoch = s.epoch + 1) ∧
  cleared State.reset

/-! ## Whole-machine rules -/

/-- R35: WMEM is written by no command; OVMEM only by `INIT`, `FWD`, `INV`, `DRAIN`; DMEM only by `FWD`, `INV`,
`DRAIN`, `PEEK`. -/
def Obligations.CommandsWriteOnlyTheirMemories : Prop :=
  ∀ (i : Instr) (s t : State), exec i s = .next t →
    SameBytes .wm s t ∧
    ((∀ ch, i ≠ .init ch ∧ i ≠ .fwd ch ∧ i ≠ .inv ch ∧ i ≠ .drain ch) → SameBytes .ov s t) ∧
    ((∀ ch, i ≠ .fwd ch ∧ i ≠ .inv ch ∧ i ≠ .drain ch ∧ i ≠ .peek ch) → SameBytes .dm s t)

/-- A command on a channel changes no other channel's context and no word of another valid context's overlap
region, whatever its operands (from R21 item 2, R86 check 4, R99, R116, R118). -/
def Obligations.ChannelsAreIsolated : Prop :=
  ∀ (i : Instr) (ch o : Chan) (s t : State), s.Inv → exec i s = .next t → i.chan? = some ch → o ≠ ch →
    t.ctx o = s.ctx o ∧
    ((s.ctx o).valid = true → ∀ k < (s.ctx o).ovSize.toNat,
      t.wordAt .ov ((s.ctx o).ovBase.toNat + k) = s.wordAt .ov ((s.ctx o).ovBase.toNat + k))

/-- R12: "`A12 … A15` are read and written by no command". -/
def Obligations.ScratchArgumentsAreUntouched : Prop :=
  ∀ (i : Instr) (s t : State) (k : Fin 16) (v : Word), 12 ≤ k.val → exec i s = .next t →
    t.arg k = s.arg k ∧ exec i (s.setArg k v) = .next (t.setArg k v)

/-- R10, R21, R25, R35: every step keeps the invariant of the engine: a legal configuration, `CtxInv` of
every valid context, all fields 0 in every other, `RcInv`, and nothing listed in a memory outside its bounds.
Two parts are the model's choice: a memory in canonical form (assumption log 2), and blank entries of the
context file from `NCH` on (assumption log 8). -/
def Obligations.StepKeepsInvariant : Prop :=
  ∀ s t : State, s.Inv → step s = .next t → t.Inv

/-- The state after reset satisfies the invariant, for every legal configuration; that `State.reset` takes
the default one is the model's choice (assumption log 1). -/
def Obligations.InvariantHoldsAfterReset : Prop :=
  State.reset.Inv ∧ ∀ c : Config, c.Valid → (State.resetWith c).Inv

/-- R147: "`E_INTERNAL` is unreachable in a machine that follows this spec": from a state that satisfies the
invariant and is not fatal, no step ends in the fatal state. -/
def Obligations.FatalStateIsUnreachable : Prop :=
  ∀ s t : State, s.Inv → s.status.fatal = false → step s = .next t → t.status.fatal = false

/-! ## Arithmetic -/

/-- spec/40_numeric.md R71: the rounding shift, with the worked examples of the rule. R72: `sat32` saturates
rather than wraps, and what it clamps, which is what raises `FLAGS.SAT` where a command computes it.
spec/00_scope.md R7: `clamp`. -/
def Obligations.RoundingShift : Prop :=
  (∀ v s : Int, 0 < s → rshr v s = ⌊((v : ℚ) + (2 : ℚ) ^ (s - 1)) / (2 : ℚ) ^ s⌋) ∧
  (∀ v s : Int, s ≤ 0 → (rshr v s : ℚ) = (v : ℚ) * (2 : ℚ) ^ (-s)) ∧
  (∀ v s : Int, 0 < s → -(2 : ℚ) ^ (s - 1) ≤ (v : ℚ) → (v : ℚ) < (2 : ℚ) ^ (s - 1) → rshr v s = 0) ∧
  rshr 3 1 = 2 ∧ rshr (-3) 1 = -1 ∧ rshr (-1) 1 = 0 ∧ rshr 1 1 = 1 ∧ rshr (-5) 2 = -1 ∧
  rshr 5 2 = 1 ∧ rshr 6 2 = 2 ∧ rshr (-6) 2 = -1 ∧
  (∀ v : Int, (2 ^ 31 - 1 < v → sat32 v = 2 ^ 31 - 1) ∧ (v < -2 ^ 31 → sat32 v = -2 ^ 31) ∧
    (-2 ^ 31 ≤ v → v ≤ 2 ^ 31 - 1 → sat32 v = v) ∧
    (saturates v = true ↔ 2 ^ 31 - 1 < v ∨ v < -2 ^ 31)) ∧
  (∀ v lo hi : Int, (v < lo → clamp v lo hi = lo) ∧ (lo ≤ v → hi < v → clamp v lo hi = hi) ∧
    (lo ≤ v → v ≤ hi → clamp v lo hi = v))

/-- R77: the integer logarithms and the forward headroom, with the worked examples of the rule. -/
def Obligations.IntegerLogarithms : Prop :=
  (∀ n : Nat, 1 ≤ n → n ≤ 2 ^ clog2 n ∧ ∀ c, n ≤ 2 ^ c → clog2 n ≤ c) ∧
  (∀ n : Nat, 1 ≤ n → 2 ^ flog2 n ≤ n ∧ ∀ c, 2 ^ c ≤ n → c ≤ flog2 n) ∧
  (∀ tl : Nat, hs tl = clog2 tl + 1) ∧
  clog2 1 = 0 ∧ clog2 2 = 1 ∧ clog2 960 = 10 ∧ clog2 1024 = 10 ∧ clog2 120 = 7 ∧
  flog2 960 = 9 ∧ flog2 1024 = 10 ∧
  hs 2 = 2 ∧ hs 8 = 4 ∧ hs 128 = 8 ∧ hs 960 = 11 ∧ hs 1024 = 11

/-- R75: `COSQ(N, m)` depends only on `m mod 8N`, is even in `m`, changes sign under `4N − m`, and lies in
`±(2^31 − 1)`. -/
def Obligations.RomSymmetries : Prop :=
  ∀ (N : Nat) (m : Int), 2 ≤ N → N % 2 = 0 → m % 2 = 1 →
    (∀ k : Int, cosq N (m + 8 * N * k) = cosq N m) ∧ cosq N (-m) = cosq N m ∧
    cosq N (4 * N - m) = -cosq N m ∧ |cosq N m| ≤ 2 ^ 31 - 1

/-- R75, up to a margin of `2^−30`: the entry of the ROM is the rounded cosine, for every length the engine
allows. (The rule's bound is 1/2 exactly; assumption log 6 says why the model meets it.) -/
def Obligations.RomApproximatesCosine : Prop :=
  ∀ (N : Nat) (m : Int), 2 ≤ N → N % 2 = 0 → N ≤ 32768 → m % 2 = 1 →
    |(cosq N m : ℝ) - 2 ^ 31 * Real.cos (Real.pi * m / (4 * N))| ≤ 1 / 2 + 1 / 2 ^ 30
end

