-- ==== Sys2Proof/Laws/Decode.lean ====
section
/-! SUPPORT. The decoder: when each of its three shapes accepts a word, and the fields of a word it accepts
(spec/30_encoding.md R55 to R57). -/

namespace Sys2Proof

theorem decodePlain_ok {w : Word} {i j : Instr} :
    decodePlain w i = .ok j ↔
      i = j ∧ rsv1Field w = 0 ∧ rsv0Field w = 0 ∧ mField w = 0 ∧ chField w = 0 := by
  unfold decodePlain
  split <;> simp_all

theorem decodeChan_ok {w : Word} {f : Chan → Instr} {j : Instr} :
    decodeChan w f = .ok j ↔
      f (chField w).toFin = j ∧ rsv1Field w = 0 ∧ rsv0Field w = 0 ∧ mField w = 0 := by
  unfold decodeChan
  split <;> simp_all

theorem decodeMod_ok {w : Word} {f : Bool → Instr} {j : Instr} :
    decodeMod w f = .ok j ↔
      f (decide (mField w = 1)) = j ∧ rsv1Field w = 0 ∧ rsv0Field w = 0 ∧ chField w = 0 := by
  unfold decodeMod
  split <;> simp_all

/-- A word is its five fields (R55). -/
theorem word_eq_fields (w : Word) :
    w = opcField w ++ rsv1Field w ++ chField w ++ rsv0Field w ++ mField w := by
  apply BitVec.eq_of_getLsbD_eq
  intro i hi
  simp only [opcField, rsv1Field, chField, rsv0Field, mField, BitVec.getLsbD_append,
    BitVec.getLsbD_extractLsb']
  interval_cases i <;> simp

/-- The opcode and the channel bits of a word that decodes are those of its command: what `LASTOP` and
`LASTCH` take (R15). -/
theorem decode_fields {w : Word} {i : Instr} (h : decode w = .ok i) :
    opcField w = opcode i ∧ chField w = chanBits i := by
  have hw : opcField w = BitVec.ofNat 8 (opcField w).toNat := by simp
  unfold decode at h
  split at h <;> simp only [decodePlain_ok, decodeChan_ok, decodeMod_ok, reduceCtorEq] at h <;>
    obtain ⟨rfl, h⟩ := h <;> rename_i ho <;> rw [ho] at hw <;>
    exact ⟨hw, by first | rfl | exact h.2.2.2 | exact h.2.2⟩

end Sys2Proof
end

