-- ==== Sys2Proof/Laws/State.lean ====
section
/-! SUPPORT. One lemma per field of `State` per update, so that no proof unfolds a record update; and the
reads of arguments, contexts and memories after each update. -/

namespace Sys2Proof.Machine

/-! ## `State.setRet` -/

@[simp] theorem State.setRet_args (s : State) (v : Word) : (s.setRet v).args = s.args := rfl
@[simp] theorem State.setRet_ret (s : State) (v : Word) : (s.setRet v).ret = v := rfl
@[simp] theorem State.setRet_status (s : State) (v : Word) : (s.setRet v).status = s.status := rfl
@[simp] theorem State.setRet_flags (s : State) (v : Word) : (s.setRet v).flags = s.flags := rfl
@[simp] theorem State.setRet_irqEn (s : State) (v : Word) : (s.setRet v).irqEn = s.irqEn := rfl
@[simp] theorem State.setRet_irqStat (s : State) (v : Word) : (s.setRet v).irqStat = s.irqStat := rfl
@[simp] theorem State.setRet_cmdCnt (s : State) (v : Word) : (s.setRet v).cmdCnt = s.cmdCnt := rfl
@[simp] theorem State.setRet_latch (s : State) (v : Word) : (s.setRet v).latch = s.latch := rfl
@[simp] theorem State.setRet_ctxs (s : State) (v : Word) : (s.setRet v).ctxs = s.ctxs := rfl
@[simp] theorem State.setRet_rc (s : State) (v : Word) : (s.setRet v).rc = s.rc := rfl
@[simp] theorem State.setRet_dmem (s : State) (v : Word) : (s.setRet v).dmem = s.dmem := rfl
@[simp] theorem State.setRet_wmem (s : State) (v : Word) : (s.setRet v).wmem = s.wmem := rfl
@[simp] theorem State.setRet_ovmem (s : State) (v : Word) : (s.setRet v).ovmem = s.ovmem := rfl
@[simp] theorem State.setRet_cfg (s : State) (v : Word) : (s.setRet v).cfg = s.cfg := rfl
@[simp] theorem State.setRet_epoch (s : State) (v : Word) : (s.setRet v).epoch = s.epoch := rfl
@[simp] theorem State.setRet_turns (s : State) (v : Word) : (s.setRet v).turns = s.turns := rfl
@[simp] theorem State.setRet_resp (s : State) (v : Word) : (s.setRet v).resp = s.resp := rfl

/-! ## `State.setArg` -/

@[simp] theorem State.setArg_args (s : State) (i : Fin 16) (v : Word) : (s.setArg i v).args = s.args.set i v := rfl
@[simp] theorem State.setArg_ret (s : State) (i : Fin 16) (v : Word) : (s.setArg i v).ret = s.ret := rfl
@[simp] theorem State.setArg_status (s : State) (i : Fin 16) (v : Word) : (s.setArg i v).status = s.status := rfl
@[simp] theorem State.setArg_flags (s : State) (i : Fin 16) (v : Word) : (s.setArg i v).flags = s.flags := rfl
@[simp] theorem State.setArg_irqEn (s : State) (i : Fin 16) (v : Word) : (s.setArg i v).irqEn = s.irqEn := rfl
@[simp] theorem State.setArg_irqStat (s : State) (i : Fin 16) (v : Word) : (s.setArg i v).irqStat = s.irqStat := rfl
@[simp] theorem State.setArg_cmdCnt (s : State) (i : Fin 16) (v : Word) : (s.setArg i v).cmdCnt = s.cmdCnt := rfl
@[simp] theorem State.setArg_latch (s : State) (i : Fin 16) (v : Word) : (s.setArg i v).latch = s.latch := rfl
@[simp] theorem State.setArg_ctxs (s : State) (i : Fin 16) (v : Word) : (s.setArg i v).ctxs = s.ctxs := rfl
@[simp] theorem State.setArg_rc (s : State) (i : Fin 16) (v : Word) : (s.setArg i v).rc = s.rc := rfl
@[simp] theorem State.setArg_dmem (s : State) (i : Fin 16) (v : Word) : (s.setArg i v).dmem = s.dmem := rfl
@[simp] theorem State.setArg_wmem (s : State) (i : Fin 16) (v : Word) : (s.setArg i v).wmem = s.wmem := rfl
@[simp] theorem State.setArg_ovmem (s : State) (i : Fin 16) (v : Word) : (s.setArg i v).ovmem = s.ovmem := rfl
@[simp] theorem State.setArg_cfg (s : State) (i : Fin 16) (v : Word) : (s.setArg i v).cfg = s.cfg := rfl
@[simp] theorem State.setArg_epoch (s : State) (i : Fin 16) (v : Word) : (s.setArg i v).epoch = s.epoch := rfl
@[simp] theorem State.setArg_turns (s : State) (i : Fin 16) (v : Word) : (s.setArg i v).turns = s.turns := rfl
@[simp] theorem State.setArg_resp (s : State) (i : Fin 16) (v : Word) : (s.setArg i v).resp = s.resp := rfl

/-! ## `State.setCtx` -/

@[simp] theorem State.setCtx_args (s : State) (c : Chan) (x : Ctx) : (s.setCtx c x).args = s.args := rfl
@[simp] theorem State.setCtx_ret (s : State) (c : Chan) (x : Ctx) : (s.setCtx c x).ret = s.ret := rfl
@[simp] theorem State.setCtx_status (s : State) (c : Chan) (x : Ctx) : (s.setCtx c x).status = s.status := rfl
@[simp] theorem State.setCtx_flags (s : State) (c : Chan) (x : Ctx) : (s.setCtx c x).flags = s.flags := rfl
@[simp] theorem State.setCtx_irqEn (s : State) (c : Chan) (x : Ctx) : (s.setCtx c x).irqEn = s.irqEn := rfl
@[simp] theorem State.setCtx_irqStat (s : State) (c : Chan) (x : Ctx) : (s.setCtx c x).irqStat = s.irqStat := rfl
@[simp] theorem State.setCtx_cmdCnt (s : State) (c : Chan) (x : Ctx) : (s.setCtx c x).cmdCnt = s.cmdCnt := rfl
@[simp] theorem State.setCtx_latch (s : State) (c : Chan) (x : Ctx) : (s.setCtx c x).latch = s.latch := rfl
@[simp] theorem State.setCtx_ctxs (s : State) (c : Chan) (x : Ctx) : (s.setCtx c x).ctxs = s.ctxs.set c x := rfl
@[simp] theorem State.setCtx_rc (s : State) (c : Chan) (x : Ctx) : (s.setCtx c x).rc = s.rc := rfl
@[simp] theorem State.setCtx_dmem (s : State) (c : Chan) (x : Ctx) : (s.setCtx c x).dmem = s.dmem := rfl
@[simp] theorem State.setCtx_wmem (s : State) (c : Chan) (x : Ctx) : (s.setCtx c x).wmem = s.wmem := rfl
@[simp] theorem State.setCtx_ovmem (s : State) (c : Chan) (x : Ctx) : (s.setCtx c x).ovmem = s.ovmem := rfl
@[simp] theorem State.setCtx_cfg (s : State) (c : Chan) (x : Ctx) : (s.setCtx c x).cfg = s.cfg := rfl
@[simp] theorem State.setCtx_epoch (s : State) (c : Chan) (x : Ctx) : (s.setCtx c x).epoch = s.epoch := rfl
@[simp] theorem State.setCtx_turns (s : State) (c : Chan) (x : Ctx) : (s.setCtx c x).turns = s.turns := rfl
@[simp] theorem State.setCtx_resp (s : State) (c : Chan) (x : Ctx) : (s.setCtx c x).resp = s.resp := rfl

/-! ## `State.setRc` -/

@[simp] theorem State.setRc_args (s : State) (r : RateCtl) : (s.setRc r).args = s.args := rfl
@[simp] theorem State.setRc_ret (s : State) (r : RateCtl) : (s.setRc r).ret = s.ret := rfl
@[simp] theorem State.setRc_status (s : State) (r : RateCtl) : (s.setRc r).status = s.status := rfl
@[simp] theorem State.setRc_flags (s : State) (r : RateCtl) : (s.setRc r).flags = s.flags := rfl
@[simp] theorem State.setRc_irqEn (s : State) (r : RateCtl) : (s.setRc r).irqEn = s.irqEn := rfl
@[simp] theorem State.setRc_irqStat (s : State) (r : RateCtl) : (s.setRc r).irqStat = s.irqStat := rfl
@[simp] theorem State.setRc_cmdCnt (s : State) (r : RateCtl) : (s.setRc r).cmdCnt = s.cmdCnt := rfl
@[simp] theorem State.setRc_latch (s : State) (r : RateCtl) : (s.setRc r).latch = s.latch := rfl
@[simp] theorem State.setRc_ctxs (s : State) (r : RateCtl) : (s.setRc r).ctxs = s.ctxs := rfl
@[simp] theorem State.setRc_rc (s : State) (r : RateCtl) : (s.setRc r).rc = r := rfl
@[simp] theorem State.setRc_dmem (s : State) (r : RateCtl) : (s.setRc r).dmem = s.dmem := rfl
@[simp] theorem State.setRc_wmem (s : State) (r : RateCtl) : (s.setRc r).wmem = s.wmem := rfl
@[simp] theorem State.setRc_ovmem (s : State) (r : RateCtl) : (s.setRc r).ovmem = s.ovmem := rfl
@[simp] theorem State.setRc_cfg (s : State) (r : RateCtl) : (s.setRc r).cfg = s.cfg := rfl
@[simp] theorem State.setRc_epoch (s : State) (r : RateCtl) : (s.setRc r).epoch = s.epoch := rfl
@[simp] theorem State.setRc_turns (s : State) (r : RateCtl) : (s.setRc r).turns = s.turns := rfl
@[simp] theorem State.setRc_resp (s : State) (r : RateCtl) : (s.setRc r).resp = s.resp := rfl

/-! ## `State.setFlags` -/

@[simp] theorem State.setFlags_args (s : State) (f : Flags) : (s.setFlags f).args = s.args := rfl
@[simp] theorem State.setFlags_ret (s : State) (f : Flags) : (s.setFlags f).ret = s.ret := rfl
@[simp] theorem State.setFlags_status (s : State) (f : Flags) : (s.setFlags f).status = s.status := rfl
@[simp] theorem State.setFlags_flags (s : State) (f : Flags) : (s.setFlags f).flags = f := rfl
@[simp] theorem State.setFlags_irqEn (s : State) (f : Flags) : (s.setFlags f).irqEn = s.irqEn := rfl
@[simp] theorem State.setFlags_irqStat (s : State) (f : Flags) : (s.setFlags f).irqStat = s.irqStat := rfl
@[simp] theorem State.setFlags_cmdCnt (s : State) (f : Flags) : (s.setFlags f).cmdCnt = s.cmdCnt := rfl
@[simp] theorem State.setFlags_latch (s : State) (f : Flags) : (s.setFlags f).latch = s.latch := rfl
@[simp] theorem State.setFlags_ctxs (s : State) (f : Flags) : (s.setFlags f).ctxs = s.ctxs := rfl
@[simp] theorem State.setFlags_rc (s : State) (f : Flags) : (s.setFlags f).rc = s.rc := rfl
@[simp] theorem State.setFlags_dmem (s : State) (f : Flags) : (s.setFlags f).dmem = s.dmem := rfl
@[simp] theorem State.setFlags_wmem (s : State) (f : Flags) : (s.setFlags f).wmem = s.wmem := rfl
@[simp] theorem State.setFlags_ovmem (s : State) (f : Flags) : (s.setFlags f).ovmem = s.ovmem := rfl
@[simp] theorem State.setFlags_cfg (s : State) (f : Flags) : (s.setFlags f).cfg = s.cfg := rfl
@[simp] theorem State.setFlags_epoch (s : State) (f : Flags) : (s.setFlags f).epoch = s.epoch := rfl
@[simp] theorem State.setFlags_turns (s : State) (f : Flags) : (s.setFlags f).turns = s.turns := rfl
@[simp] theorem State.setFlags_resp (s : State) (f : Flags) : (s.setFlags f).resp = s.resp := rfl

/-! ## `State.setMem` -/

@[simp] theorem State.setMem_args (s : State) (sp : Space) (m : Memory) : (s.setMem sp m).args = s.args := by
  cases sp <;> rfl
@[simp] theorem State.setMem_ret (s : State) (sp : Space) (m : Memory) : (s.setMem sp m).ret = s.ret := by
  cases sp <;> rfl
@[simp] theorem State.setMem_status (s : State) (sp : Space) (m : Memory) : (s.setMem sp m).status = s.status := by
  cases sp <;> rfl
@[simp] theorem State.setMem_flags (s : State) (sp : Space) (m : Memory) : (s.setMem sp m).flags = s.flags := by
  cases sp <;> rfl
@[simp] theorem State.setMem_irqEn (s : State) (sp : Space) (m : Memory) : (s.setMem sp m).irqEn = s.irqEn := by
  cases sp <;> rfl
@[simp] theorem State.setMem_irqStat (s : State) (sp : Space) (m : Memory) : (s.setMem sp m).irqStat = s.irqStat := by
  cases sp <;> rfl
@[simp] theorem State.setMem_cmdCnt (s : State) (sp : Space) (m : Memory) : (s.setMem sp m).cmdCnt = s.cmdCnt := by
  cases sp <;> rfl
@[simp] theorem State.setMem_latch (s : State) (sp : Space) (m : Memory) : (s.setMem sp m).latch = s.latch := by
  cases sp <;> rfl
@[simp] theorem State.setMem_ctxs (s : State) (sp : Space) (m : Memory) : (s.setMem sp m).ctxs = s.ctxs := by
  cases sp <;> rfl
@[simp] theorem State.setMem_rc (s : State) (sp : Space) (m : Memory) : (s.setMem sp m).rc = s.rc := by
  cases sp <;> rfl
@[simp] theorem State.setMem_cfg (s : State) (sp : Space) (m : Memory) : (s.setMem sp m).cfg = s.cfg := by
  cases sp <;> rfl
@[simp] theorem State.setMem_epoch (s : State) (sp : Space) (m : Memory) : (s.setMem sp m).epoch = s.epoch := by
  cases sp <;> rfl
@[simp] theorem State.setMem_turns (s : State) (sp : Space) (m : Memory) : (s.setMem sp m).turns = s.turns := by
  cases sp <;> rfl
@[simp] theorem State.setMem_resp (s : State) (sp : Space) (m : Memory) : (s.setMem sp m).resp = s.resp := by
  cases sp <;> rfl

/-! ## `finish`, `refuse`, `enterFatal` -/

@[simp] theorem finish_args (op : BitVec 8) (ch : BitVec 4) (c : Code) (s : State) :
    (finish op ch c s).args = s.args := rfl
@[simp] theorem finish_ret (op : BitVec 8) (ch : BitVec 4) (c : Code) (s : State) :
    (finish op ch c s).ret = if c.zeroesRet then 0#32 else s.ret := rfl
@[simp] theorem finish_status (op : BitVec 8) (ch : BitVec 4) (c : Code) (s : State) :
    (finish op ch c s).status = { code := c, lastOp := op, lastCh := ch, fatal := s.status.fatal, busy := false } := rfl
@[simp] theorem finish_flags (op : BitVec 8) (ch : BitVec 4) (c : Code) (s : State) :
    (finish op ch c s).flags = s.flags := rfl
@[simp] theorem finish_irqEn (op : BitVec 8) (ch : BitVec 4) (c : Code) (s : State) :
    (finish op ch c s).irqEn = s.irqEn := rfl
@[simp] theorem finish_irqStat (op : BitVec 8) (ch : BitVec 4) (c : Code) (s : State) :
    (finish op ch c s).irqStat = s.irqStat.raise c := rfl
@[simp] theorem finish_cmdCnt (op : BitVec 8) (ch : BitVec 4) (c : Code) (s : State) :
    (finish op ch c s).cmdCnt = s.cmdCnt := rfl
@[simp] theorem finish_latch (op : BitVec 8) (ch : BitVec 4) (c : Code) (s : State) :
    (finish op ch c s).latch = s.latch := rfl
@[simp] theorem finish_ctxs (op : BitVec 8) (ch : BitVec 4) (c : Code) (s : State) :
    (finish op ch c s).ctxs = s.ctxs := rfl
@[simp] theorem finish_rc (op : BitVec 8) (ch : BitVec 4) (c : Code) (s : State) :
    (finish op ch c s).rc = s.rc := rfl
@[simp] theorem finish_dmem (op : BitVec 8) (ch : BitVec 4) (c : Code) (s : State) :
    (finish op ch c s).dmem = s.dmem := rfl
@[simp] theorem finish_wmem (op : BitVec 8) (ch : BitVec 4) (c : Code) (s : State) :
    (finish op ch c s).wmem = s.wmem := rfl
@[simp] theorem finish_ovmem (op : BitVec 8) (ch : BitVec 4) (c : Code) (s : State) :
    (finish op ch c s).ovmem = s.ovmem := rfl
@[simp] theorem finish_cfg (op : BitVec 8) (ch : BitVec 4) (c : Code) (s : State) :
    (finish op ch c s).cfg = s.cfg := rfl
@[simp] theorem finish_epoch (op : BitVec 8) (ch : BitVec 4) (c : Code) (s : State) :
    (finish op ch c s).epoch = s.epoch := rfl
@[simp] theorem finish_turns (op : BitVec 8) (ch : BitVec 4) (c : Code) (s : State) :
    (finish op ch c s).turns = s.turns := rfl
@[simp] theorem finish_resp (op : BitVec 8) (ch : BitVec 4) (c : Code) (s : State) :
    (finish op ch c s).resp = s.resp := rfl

@[simp] theorem refuse_args (op : BitVec 8) (ch : BitVec 4) (c : Code) (s : State) :
    (refuse op ch c s).args = s.args := rfl
@[simp] theorem refuse_ret (op : BitVec 8) (ch : BitVec 4) (c : Code) (s : State) :
    (refuse op ch c s).ret = if c.zeroesRet then 0#32 else s.ret := rfl
@[simp] theorem refuse_status (op : BitVec 8) (ch : BitVec 4) (c : Code) (s : State) :
    (refuse op ch c s).status = { code := c, lastOp := op, lastCh := ch, fatal := s.status.fatal, busy := false } := rfl
@[simp] theorem refuse_flags (op : BitVec 8) (ch : BitVec 4) (c : Code) (s : State) :
    (refuse op ch c s).flags = s.flags := rfl
@[simp] theorem refuse_irqEn (op : BitVec 8) (ch : BitVec 4) (c : Code) (s : State) :
    (refuse op ch c s).irqEn = s.irqEn := rfl
@[simp] theorem refuse_irqStat (op : BitVec 8) (ch : BitVec 4) (c : Code) (s : State) :
    (refuse op ch c s).irqStat = s.irqStat.raise c := rfl
@[simp] theorem refuse_cmdCnt (op : BitVec 8) (ch : BitVec 4) (c : Code) (s : State) :
    (refuse op ch c s).cmdCnt = s.cmdCnt := rfl
@[simp] theorem refuse_latch (op : BitVec 8) (ch : BitVec 4) (c : Code) (s : State) :
    (refuse op ch c s).latch = s.latch := rfl
@[simp] theorem refuse_ctxs (op : BitVec 8) (ch : BitVec 4) (c : Code) (s : State) :
    (refuse op ch c s).ctxs = s.ctxs := rfl
@[simp] theorem refuse_rc (op : BitVec 8) (ch : BitVec 4) (c : Code) (s : State) :
    (refuse op ch c s).rc = s.rc := rfl
@[simp] theorem refuse_dmem (op : BitVec 8) (ch : BitVec 4) (c : Code) (s : State) :
    (refuse op ch c s).dmem = s.dmem := rfl
@[simp] theorem refuse_wmem (op : BitVec 8) (ch : BitVec 4) (c : Code) (s : State) :
    (refuse op ch c s).wmem = s.wmem := rfl
@[simp] theorem refuse_ovmem (op : BitVec 8) (ch : BitVec 4) (c : Code) (s : State) :
    (refuse op ch c s).ovmem = s.ovmem := rfl
@[simp] theorem refuse_cfg (op : BitVec 8) (ch : BitVec 4) (c : Code) (s : State) :
    (refuse op ch c s).cfg = s.cfg := rfl
@[simp] theorem refuse_epoch (op : BitVec 8) (ch : BitVec 4) (c : Code) (s : State) :
    (refuse op ch c s).epoch = s.epoch := rfl
@[simp] theorem refuse_turns (op : BitVec 8) (ch : BitVec 4) (c : Code) (s : State) :
    (refuse op ch c s).turns = s.turns := rfl
@[simp] theorem refuse_resp (op : BitVec 8) (ch : BitVec 4) (c : Code) (s : State) :
    (refuse op ch c s).resp = s.resp := rfl

@[simp] theorem enterFatal_args (op : BitVec 8) (ch : BitVec 4) (s : State) :
    (enterFatal op ch s).args = s.args := rfl
@[simp] theorem enterFatal_ret (op : BitVec 8) (ch : BitVec 4) (s : State) :
    (enterFatal op ch s).ret = 0#32 := rfl
@[simp] theorem enterFatal_status (op : BitVec 8) (ch : BitVec 4) (s : State) :
    (enterFatal op ch s).status = { code := .eInternal, lastOp := op, lastCh := ch, fatal := true, busy := false } := rfl
@[simp] theorem enterFatal_flags (op : BitVec 8) (ch : BitVec 4) (s : State) :
    (enterFatal op ch s).flags = s.flags := rfl
@[simp] theorem enterFatal_irqEn (op : BitVec 8) (ch : BitVec 4) (s : State) :
    (enterFatal op ch s).irqEn = s.irqEn := rfl
@[simp] theorem enterFatal_irqStat (op : BitVec 8) (ch : BitVec 4) (s : State) :
    (enterFatal op ch s).irqStat = s.irqStat.raise .eInternal := rfl
@[simp] theorem enterFatal_cmdCnt (op : BitVec 8) (ch : BitVec 4) (s : State) :
    (enterFatal op ch s).cmdCnt = s.cmdCnt := rfl
@[simp] theorem enterFatal_latch (op : BitVec 8) (ch : BitVec 4) (s : State) :
    (enterFatal op ch s).latch = s.latch := rfl
@[simp] theorem enterFatal_ctxs (op : BitVec 8) (ch : BitVec 4) (s : State) :
    (enterFatal op ch s).ctxs = s.ctxs := rfl
@[simp] theorem enterFatal_rc (op : BitVec 8) (ch : BitVec 4) (s : State) :
    (enterFatal op ch s).rc = s.rc := rfl
@[simp] theorem enterFatal_dmem (op : BitVec 8) (ch : BitVec 4) (s : State) :
    (enterFatal op ch s).dmem = s.dmem := rfl
@[simp] theorem enterFatal_wmem (op : BitVec 8) (ch : BitVec 4) (s : State) :
    (enterFatal op ch s).wmem = s.wmem := rfl
@[simp] theorem enterFatal_ovmem (op : BitVec 8) (ch : BitVec 4) (s : State) :
    (enterFatal op ch s).ovmem = s.ovmem := rfl
@[simp] theorem enterFatal_cfg (op : BitVec 8) (ch : BitVec 4) (s : State) :
    (enterFatal op ch s).cfg = s.cfg := rfl
@[simp] theorem enterFatal_epoch (op : BitVec 8) (ch : BitVec 4) (s : State) :
    (enterFatal op ch s).epoch = s.epoch := rfl
@[simp] theorem enterFatal_turns (op : BitVec 8) (ch : BitVec 4) (s : State) :
    (enterFatal op ch s).turns = s.turns := rfl
@[simp] theorem enterFatal_resp (op : BitVec 8) (ch : BitVec 4) (s : State) :
    (enterFatal op ch s).resp = s.resp := rfl

/-! ## Resets -/

@[simp] theorem softReset_args (s : State) : (softReset s).args = (State.resetWith s.cfg).args := rfl
@[simp] theorem softReset_ret (s : State) : (softReset s).ret = (State.resetWith s.cfg).ret := rfl
@[simp] theorem softReset_status (s : State) : (softReset s).status = (State.resetWith s.cfg).status := rfl
@[simp] theorem softReset_flags (s : State) : (softReset s).flags = (State.resetWith s.cfg).flags := rfl
@[simp] theorem softReset_irqEn (s : State) : (softReset s).irqEn = (State.resetWith s.cfg).irqEn := rfl
@[simp] theorem softReset_irqStat (s : State) : (softReset s).irqStat = (State.resetWith s.cfg).irqStat := rfl
@[simp] theorem softReset_cmdCnt (s : State) : (softReset s).cmdCnt = (State.resetWith s.cfg).cmdCnt := rfl
@[simp] theorem softReset_latch (s : State) : (softReset s).latch = (State.resetWith s.cfg).latch := rfl
@[simp] theorem softReset_ctxs (s : State) : (softReset s).ctxs = (State.resetWith s.cfg).ctxs := rfl
@[simp] theorem softReset_rc (s : State) : (softReset s).rc = (State.resetWith s.cfg).rc := rfl
@[simp] theorem softReset_dmem (s : State) : (softReset s).dmem = s.dmem := rfl
@[simp] theorem softReset_wmem (s : State) : (softReset s).wmem = s.wmem := rfl
@[simp] theorem softReset_ovmem (s : State) : (softReset s).ovmem = s.ovmem := rfl
@[simp] theorem softReset_cfg (s : State) : (softReset s).cfg = s.cfg := rfl
@[simp] theorem softReset_epoch (s : State) : (softReset s).epoch = s.epoch := rfl
@[simp] theorem softReset_turns (s : State) : (softReset s).turns = s.turns := rfl
@[simp] theorem softReset_resp (s : State) : (softReset s).resp = s.resp := rfl

@[simp] theorem hardReset_args (s : State) : (hardReset s).args = (State.resetWith s.cfg).args := rfl
@[simp] theorem hardReset_ret (s : State) : (hardReset s).ret = (State.resetWith s.cfg).ret := rfl
@[simp] theorem hardReset_status (s : State) : (hardReset s).status = (State.resetWith s.cfg).status := rfl
@[simp] theorem hardReset_flags (s : State) : (hardReset s).flags = (State.resetWith s.cfg).flags := rfl
@[simp] theorem hardReset_irqEn (s : State) : (hardReset s).irqEn = (State.resetWith s.cfg).irqEn := rfl
@[simp] theorem hardReset_irqStat (s : State) : (hardReset s).irqStat = (State.resetWith s.cfg).irqStat := rfl
@[simp] theorem hardReset_cmdCnt (s : State) : (hardReset s).cmdCnt = (State.resetWith s.cfg).cmdCnt := rfl
@[simp] theorem hardReset_latch (s : State) : (hardReset s).latch = (State.resetWith s.cfg).latch := rfl
@[simp] theorem hardReset_ctxs (s : State) : (hardReset s).ctxs = (State.resetWith s.cfg).ctxs := rfl
@[simp] theorem hardReset_rc (s : State) : (hardReset s).rc = (State.resetWith s.cfg).rc := rfl
@[simp] theorem hardReset_dmem (s : State) : (hardReset s).dmem = (State.resetWith s.cfg).dmem := rfl
@[simp] theorem hardReset_wmem (s : State) : (hardReset s).wmem = (State.resetWith s.cfg).wmem := rfl
@[simp] theorem hardReset_ovmem (s : State) : (hardReset s).ovmem = (State.resetWith s.cfg).ovmem := rfl
@[simp] theorem hardReset_cfg (s : State) : (hardReset s).cfg = s.cfg := rfl
@[simp] theorem hardReset_epoch (s : State) : (hardReset s).epoch = s.epoch + 1 := rfl
@[simp] theorem hardReset_turns (s : State) : (hardReset s).turns = s.turns := rfl
@[simp] theorem hardReset_resp (s : State) : (hardReset s).resp = s.resp := rfl

/-! ## The state after reset -/

@[simp] theorem State.resetWith_args (c : Config) : (State.resetWith c).args = Vector.replicate 16 0#32 := rfl
@[simp] theorem State.resetWith_ret (c : Config) : (State.resetWith c).ret = 0#32 := rfl
@[simp] theorem State.resetWith_status (c : Config) : (State.resetWith c).status = { code := .ok, lastOp := 0#8, lastCh := 0#4, fatal := false, busy := false } := rfl
@[simp] theorem State.resetWith_flags (c : Config) : (State.resetWith c).flags = { sat := false, rcUf := false, rcOf := false } := rfl
@[simp] theorem State.resetWith_irqEn (c : Config) : (State.resetWith c).irqEn = { done := false, err := false } := rfl
@[simp] theorem State.resetWith_irqStat (c : Config) : (State.resetWith c).irqStat = { done := false, err := false } := rfl
@[simp] theorem State.resetWith_cmdCnt (c : Config) : (State.resetWith c).cmdCnt = 0#32 := rfl
@[simp] theorem State.resetWith_latch (c : Config) : (State.resetWith c).latch = 0#32 := rfl
@[simp] theorem State.resetWith_ctxs (c : Config) : (State.resetWith c).ctxs = Vector.replicate 16 Ctx.blank := rfl
@[simp] theorem State.resetWith_rc (c : Config) : (State.resetWith c).rc = RateCtl.blank := rfl
@[simp] theorem State.resetWith_dmem (c : Config) : (State.resetWith c).dmem = [] := rfl
@[simp] theorem State.resetWith_wmem (c : Config) : (State.resetWith c).wmem = [] := rfl
@[simp] theorem State.resetWith_ovmem (c : Config) : (State.resetWith c).ovmem = [] := rfl
@[simp] theorem State.resetWith_cfg (c : Config) : (State.resetWith c).cfg = c := rfl
@[simp] theorem State.resetWith_epoch (c : Config) : (State.resetWith c).epoch = 0 := rfl
@[simp] theorem State.resetWith_turns (c : Config) : (State.resetWith c).turns = [] := rfl
@[simp] theorem State.resetWith_resp (c : Config) : (State.resetWith c).resp = none := rfl
@[simp] theorem State.resetWith_ctx (c : Config) (d : Chan) : (State.resetWith c).ctx d = Ctx.blank := by
  simp [State.ctx, State.resetWith]

@[simp] theorem State.resetWith_arg (c : Config) (i : Fin 16) : (State.resetWith c).arg i = 0#32 := by
  simp [State.arg, State.resetWith]

/-! ## Reads of argument registers -/

@[simp] theorem State.arg_setArg_self (s : State) (i : Fin 16) (v : Word) : (s.setArg i v).arg i = v := by
  simp [State.arg, State.setArg]

theorem State.arg_setArg_ne (s : State) {i j : Fin 16} (v : Word) (h : j ≠ i) :
    (s.setArg i v).arg j = s.arg j := by
  have : i.val ≠ j.val := fun e => h (Fin.ext e.symm)
  simp [State.arg, State.setArg, Vector.getElem_set_ne, this]

@[simp] theorem State.arg_setRet (s : State) (v : Word) (j : Fin 16) : (s.setRet v).arg j = s.arg j := rfl
@[simp] theorem State.arg_setCtx (s : State) (c : Chan) (x : Ctx) (j : Fin 16) : (s.setCtx c x).arg j = s.arg j := rfl
@[simp] theorem State.arg_setRc (s : State) (r : RateCtl) (j : Fin 16) : (s.setRc r).arg j = s.arg j := rfl
@[simp] theorem State.arg_setFlags (s : State) (f : Flags) (j : Fin 16) : (s.setFlags f).arg j = s.arg j := rfl
@[simp] theorem State.arg_setMem (s : State) (sp : Space) (m : Memory) (j : Fin 16) :
    (s.setMem sp m).arg j = s.arg j := by
  cases sp <;> rfl
@[simp] theorem State.arg_finish (op : BitVec 8) (ch : BitVec 4) (c : Code) (s : State) (j : Fin 16) :
    (finish op ch c s).arg j = s.arg j := rfl
@[simp] theorem State.arg_refuse (op : BitVec 8) (ch : BitVec 4) (c : Code) (s : State) (j : Fin 16) :
    (refuse op ch c s).arg j = s.arg j := rfl
@[simp] theorem State.arg_enterFatal (op : BitVec 8) (ch : BitVec 4) (s : State) (j : Fin 16) :
    (enterFatal op ch s).arg j = s.arg j := rfl

/-! ## Reads of contexts -/

@[simp] theorem State.ctx_setCtx_self (s : State) (c : Chan) (x : Ctx) : (s.setCtx c x).ctx c = x := by
  simp [State.ctx, State.setCtx]

theorem State.ctx_setCtx_ne (s : State) {c d : Chan} (x : Ctx) (h : d ≠ c) :
    (s.setCtx c x).ctx d = s.ctx d := by
  have : c.val ≠ d.val := fun e => h (Fin.ext e.symm)
  simp [State.ctx, State.setCtx, Vector.getElem_set_ne, this]

theorem State.ctx_setCtx (s : State) (c d : Chan) (x : Ctx) :
    (s.setCtx c x).ctx d = if d = c then x else s.ctx d := by
  split
  · subst_vars; simp
  · exact State.ctx_setCtx_ne s x ‹_›

@[simp] theorem State.ctx_setRet (s : State) (v : Word) (d : Chan) : (s.setRet v).ctx d = s.ctx d := rfl
@[simp] theorem State.ctx_setArg (s : State) (i : Fin 16) (v : Word) (d : Chan) : (s.setArg i v).ctx d = s.ctx d := rfl
@[simp] theorem State.ctx_setRc (s : State) (r : RateCtl) (d : Chan) : (s.setRc r).ctx d = s.ctx d := rfl
@[simp] theorem State.ctx_setFlags (s : State) (f : Flags) (d : Chan) : (s.setFlags f).ctx d = s.ctx d := rfl
@[simp] theorem State.ctx_setMem (s : State) (sp : Space) (m : Memory) (d : Chan) :
    (s.setMem sp m).ctx d = s.ctx d := by
  cases sp <;> rfl
@[simp] theorem State.ctx_finish (op : BitVec 8) (ch : BitVec 4) (c : Code) (s : State) (d : Chan) :
    (finish op ch c s).ctx d = s.ctx d := rfl
@[simp] theorem State.ctx_refuse (op : BitVec 8) (ch : BitVec 4) (c : Code) (s : State) (d : Chan) :
    (refuse op ch c s).ctx d = s.ctx d := rfl
@[simp] theorem State.ctx_enterFatal (op : BitVec 8) (ch : BitVec 4) (s : State) (d : Chan) :
    (enterFatal op ch s).ctx d = s.ctx d := rfl

/-! ## Reads of memories -/

@[simp] theorem State.mem_setMem_self (s : State) (sp : Space) (m : Memory) : (s.setMem sp m).mem sp = m := by
  cases sp <;> rfl

theorem State.mem_setMem_ne (s : State) {sp sp' : Space} (m : Memory) (h : sp' ≠ sp) :
    (s.setMem sp m).mem sp' = s.mem sp' := by
  cases sp <;> cases sp' <;> first | rfl | exact absurd rfl h

@[simp] theorem State.mem_setRet (s : State) (v : Word) (sp : Space) :
    (s.setRet v).mem sp = s.mem sp := by
  cases sp <;> rfl
@[simp] theorem State.mem_setArg (s : State) (i : Fin 16) (v : Word) (sp : Space) :
    (s.setArg i v).mem sp = s.mem sp := by
  cases sp <;> rfl
@[simp] theorem State.mem_setCtx (s : State) (c : Chan) (x : Ctx) (sp : Space) :
    (s.setCtx c x).mem sp = s.mem sp := by
  cases sp <;> rfl
@[simp] theorem State.mem_setRc (s : State) (r : RateCtl) (sp : Space) :
    (s.setRc r).mem sp = s.mem sp := by
  cases sp <;> rfl
@[simp] theorem State.mem_setFlags (s : State) (f : Flags) (sp : Space) :
    (s.setFlags f).mem sp = s.mem sp := by
  cases sp <;> rfl
@[simp] theorem State.mem_finish (op : BitVec 8) (ch : BitVec 4) (c : Code) (s : State) (sp : Space) :
    (finish op ch c s).mem sp = s.mem sp := by
  cases sp <;> rfl
@[simp] theorem State.mem_refuse (op : BitVec 8) (ch : BitVec 4) (c : Code) (s : State) (sp : Space) :
    (refuse op ch c s).mem sp = s.mem sp := by
  cases sp <;> rfl
@[simp] theorem State.mem_enterFatal (op : BitVec 8) (ch : BitVec 4) (s : State) (sp : Space) :
    (enterFatal op ch s).mem sp = s.mem sp := by
  cases sp <;> rfl
@[simp] theorem State.mem_softReset (s : State) (sp : Space) :
   (softReset s).mem sp = s.mem sp := by
  cases sp <;> rfl
@[simp] theorem State.byteAt_setRet (s : State) (v : Word) (sp : Space) (b : Nat) :
    (s.setRet v).byteAt sp b = s.byteAt sp b := by
  cases sp <;> rfl
@[simp] theorem State.byteAt_setArg (s : State) (i : Fin 16) (v : Word) (sp : Space) (b : Nat) :
    (s.setArg i v).byteAt sp b = s.byteAt sp b := by
  cases sp <;> rfl
@[simp] theorem State.byteAt_setCtx (s : State) (c : Chan) (x : Ctx) (sp : Space) (b : Nat) :
    (s.setCtx c x).byteAt sp b = s.byteAt sp b := by
  cases sp <;> rfl
@[simp] theorem State.byteAt_setRc (s : State) (r : RateCtl) (sp : Space) (b : Nat) :
    (s.setRc r).byteAt sp b = s.byteAt sp b := by
  cases sp <;> rfl
@[simp] theorem State.byteAt_setFlags (s : State) (f : Flags) (sp : Space) (b : Nat) :
    (s.setFlags f).byteAt sp b = s.byteAt sp b := by
  cases sp <;> rfl
@[simp] theorem State.byteAt_finish (op : BitVec 8) (ch : BitVec 4) (c : Code) (s : State) (sp : Space) (b : Nat) :
    (finish op ch c s).byteAt sp b = s.byteAt sp b := by
  cases sp <;> rfl
@[simp] theorem State.byteAt_refuse (op : BitVec 8) (ch : BitVec 4) (c : Code) (s : State) (sp : Space) (b : Nat) :
    (refuse op ch c s).byteAt sp b = s.byteAt sp b := by
  cases sp <;> rfl
@[simp] theorem State.byteAt_enterFatal (op : BitVec 8) (ch : BitVec 4) (s : State) (sp : Space) (b : Nat) :
    (enterFatal op ch s).byteAt sp b = s.byteAt sp b := by
  cases sp <;> rfl
@[simp] theorem State.byteAt_softReset (s : State) (sp : Space) (b : Nat) :
   (softReset s).byteAt sp b = s.byteAt sp b := by
  cases sp <;> rfl
@[simp] theorem State.wordAt_setRet (s : State) (v : Word) (sp : Space) (a : Nat) :
    (s.setRet v).wordAt sp a = s.wordAt sp a := by
  cases sp <;> rfl
@[simp] theorem State.wordAt_setArg (s : State) (i : Fin 16) (v : Word) (sp : Space) (a : Nat) :
    (s.setArg i v).wordAt sp a = s.wordAt sp a := by
  cases sp <;> rfl
@[simp] theorem State.wordAt_setCtx (s : State) (c : Chan) (x : Ctx) (sp : Space) (a : Nat) :
    (s.setCtx c x).wordAt sp a = s.wordAt sp a := by
  cases sp <;> rfl
@[simp] theorem State.wordAt_setRc (s : State) (r : RateCtl) (sp : Space) (a : Nat) :
    (s.setRc r).wordAt sp a = s.wordAt sp a := by
  cases sp <;> rfl
@[simp] theorem State.wordAt_setFlags (s : State) (f : Flags) (sp : Space) (a : Nat) :
    (s.setFlags f).wordAt sp a = s.wordAt sp a := by
  cases sp <;> rfl
@[simp] theorem State.wordAt_finish (op : BitVec 8) (ch : BitVec 4) (c : Code) (s : State) (sp : Space) (a : Nat) :
    (finish op ch c s).wordAt sp a = s.wordAt sp a := by
  cases sp <;> rfl
@[simp] theorem State.wordAt_refuse (op : BitVec 8) (ch : BitVec 4) (c : Code) (s : State) (sp : Space) (a : Nat) :
    (refuse op ch c s).wordAt sp a = s.wordAt sp a := by
  cases sp <;> rfl
@[simp] theorem State.wordAt_enterFatal (op : BitVec 8) (ch : BitVec 4) (s : State) (sp : Space) (a : Nat) :
    (enterFatal op ch s).wordAt sp a = s.wordAt sp a := by
  cases sp <;> rfl
@[simp] theorem State.wordAt_softReset (s : State) (sp : Space) (a : Nat) :
   (softReset s).wordAt sp a = s.wordAt sp a := by
  cases sp <;> rfl

end Sys2Proof.Machine
end

