-- ==== Sys2Proof/Laws/Complete.lean ====
section
/-! SUPPORT. How a command completes: everything the four runners of Machine/Ops.lean can do
(spec/30_encoding.md R56). -/

namespace Sys2Proof.Machine

/-! ## Checks in order -/

@[simp] theorem firstFailure_nil : firstFailure [] = none := rfl

theorem firstFailure_cons (fails : Bool) (c : Code) (rest : List Check) :
    firstFailure ((fails, c) :: rest) = if fails then some c else firstFailure rest := rfl

theorem firstFailure_eq_none {l : List Check} : firstFailure l = none ↔ ∀ x ∈ l, x.1 = false := by
  induction l with
  | nil => simp
  | cons x l ih =>
    obtain ⟨b, c⟩ := x
    cases b <;> simp [firstFailure_cons, ih]

theorem firstFailure_mem {l : List Check} {c : Code} (h : firstFailure l = some c) :
    ∃ x ∈ l, x.1 = true ∧ x.2 = c := by
  induction l with
  | nil => simp at h
  | cons x l ih =>
    obtain ⟨b, d⟩ := x
    cases b
    · obtain ⟨x, hx, h1, h2⟩ := ih (by simpa [firstFailure_cons] using h)
      exact ⟨x, List.mem_cons_of_mem _ hx, h1, h2⟩
    · exact ⟨_, List.mem_cons_self, rfl, by simpa [firstFailure_cons] using h⟩

/-! ## The runners -/

variable {op : BitVec 8} {cb : BitVec 4} {ch : Chan} {checks : State → List Check}
  {effect : State → Except Fault (State × Code)} {s r : State}

/-- A rule whose checks pass and whose effect answers completes with the effect's code. -/
theorem runRule_ok {t : State} {c : Code} (hc : firstFailure (checks s) = none)
    (he : effect s = .ok (t, c)) : runRule op cb checks effect s = .next (finish op cb c t) := by
  simp [runRule, hc, he]

/-- A rule with a failing check refuses with the first one's code. -/
theorem runRule_refuses {c : Code} (hc : firstFailure (checks s) = some c) :
    runRule op cb checks effect s = .next (refuse op cb c s) := by
  simp [runRule, hc]

/-- Everything `runRule` can do when it answers a next state. -/
theorem runRule_next (h : runRule op cb checks effect s = .next r) :
    (∃ c, firstFailure (checks s) = some c ∧ r = refuse op cb c s) ∨
    (firstFailure (checks s) = none ∧ ∃ t c, effect s = .ok (t, c) ∧ r = finish op cb c t) := by
  unfold runRule at h
  split at h
  · exact .inl ⟨_, ‹_›, by cases h; rfl⟩
  · split at h
    · exact .inr ⟨‹_›, _, _, ‹_›, by cases h; rfl⟩
    · cases h

theorem runGlobal_ready (hf : s.status.fatal = false) :
    runGlobal op checks effect s = runRule op 0#4 checks effect s := by
  simp [runGlobal, hf]

theorem runGlobal_fatal (hf : s.status.fatal = true) :
    runGlobal op checks effect s = .next (refuse op 0#4 .eFatal s) := by
  simp [runGlobal, hf]

/-- Everything `runGlobal` can do when it answers a next state. -/
theorem runGlobal_next (h : runGlobal op checks effect s = .next r) :
    (s.status.fatal = true ∧ r = refuse op 0#4 .eFatal s) ∨
    (s.status.fatal = false ∧ runRule op 0#4 checks effect s = .next r) := by
  cases hf : s.status.fatal
  · exact .inr ⟨rfl, by rwa [runGlobal_ready hf] at h⟩
  · rw [runGlobal_fatal hf] at h; cases h; exact .inl ⟨rfl, rfl⟩

theorem runChannel_ready (hf : s.status.fatal = false) (hn : ch.val < s.cfg.nch) :
    runChannel op ch checks effect s = runRule op (BitVec.ofFin ch) checks effect s := by
  simp [runChannel, hf, hn]

theorem runChannel_fatal (hf : s.status.fatal = true) :
    runChannel op ch checks effect s = .next (refuse op (BitVec.ofFin ch) .eFatal s) := by
  simp [runChannel, hf]

theorem runChannel_absent (hf : s.status.fatal = false) (hn : s.cfg.nch ≤ ch.val) :
    runChannel op ch checks effect s = .next (refuse op (BitVec.ofFin ch) .eIllfld s) := by
  simp [runChannel, hf, hn]

/-- Everything `runChannel` can do when it answers a next state. -/
theorem runChannel_next (h : runChannel op ch checks effect s = .next r) :
    (s.status.fatal = true ∧ r = refuse op (BitVec.ofFin ch) .eFatal s) ∨
    (s.status.fatal = false ∧ s.cfg.nch ≤ ch.val ∧ r = refuse op (BitVec.ofFin ch) .eIllfld s) ∨
    (s.status.fatal = false ∧ ch.val < s.cfg.nch ∧
      runRule op (BitVec.ofFin ch) checks effect s = .next r) := by
  cases hf : s.status.fatal
  · refine .inr ?_
    rcases Nat.lt_or_ge ch.val s.cfg.nch with hn | hn
    · exact .inr ⟨rfl, hn, by rwa [runChannel_ready hf hn] at h⟩
    · rw [runChannel_absent hf hn] at h; cases h; exact .inl ⟨rfl, hn, rfl⟩
  · rw [runChannel_fatal hf] at h; cases h; exact .inl ⟨rfl, rfl⟩

theorem runContext_ready (hf : s.status.fatal = false) (hn : ch.val < s.cfg.nch)
    (hv : (s.ctx ch).valid = true) (hi : s.CtxInv ch (s.ctx ch)) :
    runContext op ch checks effect s = runRule op (BitVec.ofFin ch) checks effect s := by
  unfold runContext
  rw [if_neg (by simp [hf]), if_neg (by omega), if_neg (by simp [hv]), if_neg (not_not.2 hi)]

theorem runContext_fatal (hf : s.status.fatal = true) :
    runContext op ch checks effect s = .next (refuse op (BitVec.ofFin ch) .eFatal s) := by
  unfold runContext
  rw [if_pos hf]

theorem runContext_absent (hf : s.status.fatal = false) (hn : s.cfg.nch ≤ ch.val) :
    runContext op ch checks effect s = .next (refuse op (BitVec.ofFin ch) .eIllfld s) := by
  unfold runContext
  rw [if_neg (by simp [hf]), if_pos hn]

theorem runContext_unbound (hf : s.status.fatal = false) (hn : ch.val < s.cfg.nch)
    (hv : (s.ctx ch).valid = false) :
    runContext op ch checks effect s = .next (refuse op (BitVec.ofFin ch) .eNoctx s) := by
  unfold runContext
  rw [if_neg (by simp [hf]), if_neg (by omega), if_pos hv]

theorem runContext_broken (hf : s.status.fatal = false) (hn : ch.val < s.cfg.nch)
    (hv : (s.ctx ch).valid = true) (hi : ¬ s.CtxInv ch (s.ctx ch)) :
    runContext op ch checks effect s = .next (enterFatal op (BitVec.ofFin ch) s) := by
  unfold runContext
  rw [if_neg (by simp [hf]), if_neg (by omega), if_neg (by simp [hv]), if_pos hi]

/-- Everything `runContext` can do when it answers a next state. -/
theorem runContext_next (h : runContext op ch checks effect s = .next r) :
    (s.status.fatal = true ∧ r = refuse op (BitVec.ofFin ch) .eFatal s) ∨
    (s.status.fatal = false ∧ s.cfg.nch ≤ ch.val ∧ r = refuse op (BitVec.ofFin ch) .eIllfld s) ∨
    (s.status.fatal = false ∧ ch.val < s.cfg.nch ∧ (s.ctx ch).valid = false ∧
      r = refuse op (BitVec.ofFin ch) .eNoctx s) ∨
    (s.status.fatal = false ∧ ch.val < s.cfg.nch ∧ (s.ctx ch).valid = true ∧
      ¬ s.CtxInv ch (s.ctx ch) ∧ r = enterFatal op (BitVec.ofFin ch) s) ∨
    (s.status.fatal = false ∧ ch.val < s.cfg.nch ∧ (s.ctx ch).valid = true ∧
      s.CtxInv ch (s.ctx ch) ∧ runRule op (BitVec.ofFin ch) checks effect s = .next r) := by
  cases hf : s.status.fatal
  · refine .inr ?_
    rcases Nat.lt_or_ge ch.val s.cfg.nch with hn | hn
    · refine .inr ?_
      cases hv : (s.ctx ch).valid
      · rw [runContext_unbound hf hn hv] at h; cases h; exact .inl ⟨rfl, hn, rfl, rfl⟩
      · refine .inr ?_
        by_cases hi : s.CtxInv ch (s.ctx ch)
        · exact .inr ⟨rfl, hn, rfl, hi, by rwa [runContext_ready hf hn hv hi] at h⟩
        · rw [runContext_broken hf hn hv hi] at h; cases h; exact .inl ⟨rfl, hn, rfl, hi, rfl⟩
    · rw [runContext_absent hf hn] at h; cases h; exact .inl ⟨rfl, hn, rfl⟩
  · rw [runContext_fatal hf] at h; cases h; exact .inl ⟨rfl, rfl⟩

end Sys2Proof.Machine
end

