-- ==== Sys2Proof/Laws/Memory.lean ====
section
/-! SUPPORT. The memories: what a read answers after a write, what a write leaves alone, and the canonical
form (spec/20_memory.md R35, R38, R42, R43). -/

namespace Sys2Proof.Machine

/-! ## One byte -/

theorem Memory.find?_cons (k : Nat) (x : Byte) (m : Memory) (c : Nat) :
    Memory.find? ((k, x) :: m) c = if c = k then some x else m.find? c := by
  by_cases h : c = k
  · subst h; simp [Memory.find?]
  · simp [Memory.find?, List.lookup_cons, beq_false_of_ne h, h]

theorem Memory.find?_putByte (m : Memory) (b c : Nat) (v : Byte) :
    (m.putByte b v).find? c = if c = b then some v else m.find? c := by
  induction m with
  | nil => rw [Memory.putByte, Memory.find?_cons]
  | cons p m ih =>
    obtain ⟨k, x⟩ := p
    simp only [Memory.putByte]
    split_ifs with h1 h2 h3 h4 h5 <;> simp only [Memory.find?_cons, ih] <;> split_ifs <;>
      first | rfl | omega

theorem Memory.mem_putByte {m : Memory} {b : Nat} {v : Byte} {c : Host.Cell} (h : c ∈ m.putByte b v) :
    c.1 = b ∨ c ∈ m := by
  induction m with
  | nil => simp [Memory.putByte] at h; simp [h]
  | cons p m ih =>
    obtain ⟨k, x⟩ := p
    simp only [Memory.putByte] at h
    split_ifs at h <;> simp only [List.mem_cons] at h ⊢
    · rcases h with rfl | h <;> simp_all
    · rcases h with rfl | h <;> simp_all
    · rcases h with rfl | h
      · exact .inr (.inl rfl)
      · exact (ih h).imp_right .inr

theorem Memory.wf_putByte {m : Memory} (h : m.wf) (b : Nat) (v : Byte) : (m.putByte b v).wf := by
  induction m with
  | nil => simp [Memory.putByte, Memory.wf]
  | cons p m ih =>
    obtain ⟨k, x⟩ := p
    obtain ⟨hk, hm⟩ := List.pairwise_cons.1 h
    simp only [Memory.putByte]
    split_ifs with h1 h2
    · refine List.pairwise_cons.2 ⟨fun c hc => ?_, h⟩
      rcases List.mem_cons.1 hc with rfl | hc
      · exact h1
      · exact lt_trans h1 (hk c hc)
    · subst h2
      exact List.pairwise_cons.2 ⟨hk, hm⟩
    · refine List.pairwise_cons.2 ⟨fun c hc => ?_, ih hm⟩
      rcases Memory.mem_putByte hc with hc | hc
      · simp only [hc]; omega
      · exact hk c hc

/-! ## One word -/

/-- Byte `i` of a word, bits 7:0 first (R38). -/
def wordByte (v : Word) (i : Nat) : Byte := v.extractLsb' (8 * i) 8

theorem Memory.find?_putWord (m : Memory) (a c : Nat) (v : Word) :
    (m.putWord a v).find? c = if c / 4 = a then some (wordByte v (c % 4)) else m.find? c := by
  have hc := Nat.div_add_mod c 4
  have hm := Nat.mod_lt c (by decide : 0 < 4)
  simp only [Memory.putWord, Memory.find?_putByte, wordByte]
  by_cases h : c / 4 = a
  · have : c % 4 = 0 ∨ c % 4 = 1 ∨ c % 4 = 2 ∨ c % 4 = 3 := by omega
    rcases this with e | e | e | e <;> simp only [e] <;> split_ifs <;> first | rfl | omega
  · rw [if_neg h, if_neg (by omega), if_neg (by omega), if_neg (by omega), if_neg (by omega)]

theorem Memory.wf_putWord {m : Memory} (h : m.wf) (a : Nat) (v : Word) : (m.putWord a v).wf :=
  Memory.wf_putByte (Memory.wf_putByte (Memory.wf_putByte (Memory.wf_putByte h _ _) _ _) _ _) _ _

theorem Memory.mem_putWord {m : Memory} {a : Nat} {v : Word} {c : Host.Cell} (h : c ∈ m.putWord a v) :
    c.1 / 4 = a ∨ c ∈ m := by
  rcases Memory.mem_putByte h with h | h
  · omega
  rcases Memory.mem_putByte h with h | h
  · omega
  rcases Memory.mem_putByte h with h | h
  · omega
  rcases Memory.mem_putByte h with h | h
  · omega
  exact .inr h

theorem wordByte_append (v : Word) :
    wordByte v 3 ++ wordByte v 2 ++ wordByte v 1 ++ wordByte v 0 = v := by
  apply BitVec.eq_of_getLsbD_eq
  intro i hi
  simp only [wordByte, BitVec.getLsbD_append, BitVec.getLsbD_extractLsb']
  interval_cases i <;> simp

/-! ## Consecutive words -/

theorem Memory.find?_putWords (m : Memory) (a c : Nat) (vs : List Word) :
    (m.putWords a vs).find? c =
      if a ≤ c / 4 ∧ c / 4 < a + vs.length then some (wordByte (vs.getD (c / 4 - a) 0#32) (c % 4))
      else m.find? c := by
  induction vs generalizing a with
  | nil => simp only [Memory.putWords, List.length_nil, Nat.add_zero]; rw [if_neg (by omega)]
  | cons v vs ih =>
    simp only [Memory.putWords, Memory.find?_putWord, ih, List.length_cons]
    by_cases h : c / 4 = a
    · rw [if_pos h, if_pos (by omega), h, Nat.sub_self]; rfl
    · rw [if_neg h]
      by_cases h2 : a + 1 ≤ c / 4 ∧ c / 4 < a + 1 + vs.length
      · rw [if_pos h2, if_pos (by omega), show c / 4 - a = (c / 4 - (a + 1)) + 1 by omega]; rfl
      · rw [if_neg h2, if_neg (by omega)]

theorem Memory.wf_putWords {m : Memory} (h : m.wf) (a : Nat) (vs : List Word) : (m.putWords a vs).wf := by
  induction vs generalizing a with
  | nil => exact h
  | cons v vs ih => exact Memory.wf_putWord (ih _) _ _

theorem Memory.mem_putWords {m : Memory} {a : Nat} {vs : List Word} {c : Host.Cell}
    (h : c ∈ m.putWords a vs) : (a ≤ c.1 / 4 ∧ c.1 / 4 < a + vs.length) ∨ c ∈ m := by
  induction vs generalizing a with
  | nil => exact .inr h
  | cons v vs ih =>
    rcases Memory.mem_putWord h with h | h
    · exact .inl ⟨h.ge, by simp only [List.length_cons]; omega⟩
    · rcases ih h with h | h
      · exact .inl ⟨by omega, by simp only [List.length_cons]; omega⟩
      · exact .inr h

/-- Storing the words that lie inside a memory keeps its canonical form and its bounds. -/
theorem Memory.Ok.putWords {m : Memory} {words : Nat} (h : m.Ok words) {a : Nat} {vs : List Word}
    (hb : a + vs.length ≤ words) : (m.putWords a vs).Ok words := by
  refine ⟨Memory.wf_putWords h.1 _ _, fun c hc => ?_⟩
  rcases Memory.mem_putWords hc with hc | hc
  · omega
  · exact h.2 c hc

theorem Memory.Ok.putWord {m : Memory} {words : Nat} (h : m.Ok words) {a : Nat} {v : Word}
    (hb : a < words) : (m.putWord a v).Ok words := by
  refine ⟨Memory.wf_putWord h.1 _ _, fun c hc => ?_⟩
  rcases Memory.mem_putWord hc with hc | hc
  · omega
  · exact h.2 c hc

/-- Nothing is listed after reset, so the canonical form holds. -/
theorem Memory.wf_reset (sp : Space) : (State.reset.mem sp).wf := by
  cases sp <;> exact List.Pairwise.nil

/-! ## Reads of the state -/

theorem State.byteAt_putWords (s : State) (sp : Space) (a : Nat) (vs : List Word) (b : Nat) :
    (s.setMem sp ((s.mem sp).putWords a vs)).byteAt sp b =
      if a ≤ b / 4 ∧ b / 4 < a + vs.length then wordByte (vs.getD (b / 4 - a) 0#32) (b % 4)
      else s.byteAt sp b := by
  simp only [State.byteAt, State.mem_setMem_self, Memory.find?_putWords, State.setMem_epoch]
  split <;> rfl

theorem State.byteAt_setMem_ne (s : State) {sp sp' : Space} (m : Memory) (h : sp' ≠ sp) (b : Nat) :
    (s.setMem sp m).byteAt sp' b = s.byteAt sp' b := by
  simp [State.byteAt, State.mem_setMem_ne s m h]

theorem State.wordAt_putWords (s : State) (sp : Space) (a : Nat) (vs : List Word) (k : Nat) :
    (s.setMem sp ((s.mem sp).putWords a vs)).wordAt sp k =
      if a ≤ k ∧ k < a + vs.length then vs.getD (k - a) 0#32 else s.wordAt sp k := by
  simp only [State.wordAt, State.byteAt_putWords]
  simp only [show (4 * k + 3) / 4 = k by omega, show (4 * k + 2) / 4 = k by omega,
    show (4 * k + 1) / 4 = k by omega, show 4 * k / 4 = k by omega, show (4 * k + 3) % 4 = 3 by omega,
    show (4 * k + 2) % 4 = 2 by omega, show (4 * k + 1) % 4 = 1 by omega, show 4 * k % 4 = 0 by omega]
  split
  · exact wordByte_append _
  · rfl

theorem State.wordAt_setMem_ne (s : State) {sp sp' : Space} (m : Memory) (h : sp' ≠ sp) (a : Nat) :
    (s.setMem sp m).wordAt sp' a = s.wordAt sp' a := by
  simp only [State.wordAt, State.byteAt_setMem_ne s m h]

/-- The bytes of a word decide it. -/
theorem State.wordAt_congr {s t : State} {sp : Space} {a : Nat}
    (h : ∀ b, 4 * a ≤ b → b < 4 * (a + 1) → t.byteAt sp b = s.byteAt sp b) :
    t.wordAt sp a = s.wordAt sp a := by
  simp only [State.wordAt]
  rw [h _ (by omega) (by omega), h _ (by omega) (by omega), h _ (by omega) (by omega),
    h _ (by omega) (by omega)]

theorem SameBytes.word {sp : Space} {s t : State} (h : SameBytes sp s t) (a : Nat) :
    t.wordAt sp a = s.wordAt sp a :=
  State.wordAt_congr fun b _ _ => h b

theorem SameBytesOutside.word {sp : Space} {a n : Nat} {s t : State} (h : SameBytesOutside sp a n s t)
    {k : Nat} (hk : k < a ∨ a + n ≤ k) : t.wordAt sp k = s.wordAt sp k :=
  State.wordAt_congr fun b _ _ => h b (by omega)

/-! ## `setWord` -/

theorem State.wordAt_setWord (s : State) (sp : Space) (a k : Nat) (v : Word) :
    (s.setWord sp a v).wordAt sp k = if k = a then v else s.wordAt sp k := by
  have h := State.wordAt_putWords s sp a [v] k
  simp only [Memory.putWords, List.length_singleton] at h
  rw [State.setWord, h]
  by_cases hk : k = a
  · subst hk; simp
  · rw [if_neg (by omega), if_neg hk]

theorem State.byteAt_setWord_of_ne (s : State) (sp : Space) (a b : Nat) (v : Word) (h : b / 4 ≠ a) :
    (s.setWord sp a v).byteAt sp b = s.byteAt sp b := by
  have := State.byteAt_putWords s sp a [v] b
  simp only [Memory.putWords, List.length_singleton] at this
  rw [State.setWord, this, if_neg (by omega)]

theorem State.byteAt_setWord_ne (s : State) {sp sp' : Space} (a b : Nat) (v : Word) (h : sp' ≠ sp) :
    (s.setWord sp a v).byteAt sp' b = s.byteAt sp' b :=
  State.byteAt_setMem_ne s _ h b

/-! ## `memRead` and `memWrite` -/

/-- Everything `memRead` can do: answer the words of a region that exists, or fault. -/
theorem memRead_eq {sp : Space} {a n : Nat} {s : State} (h : a + n ≤ s.cfg.words sp) :
    memRead sp a n s = .ok ((List.range n).map fun i => s.wordAt sp (a + i)) := if_pos h

theorem memRead_ok {sp : Space} {a n : Nat} {s : State} {vs : List Word} (h : memRead sp a n s = .ok vs) :
    a + n ≤ s.cfg.words sp ∧ vs = (List.range n).map fun i => s.wordAt sp (a + i) := by
  unfold memRead at h
  split at h
  · exact ⟨‹_›, by cases h; rfl⟩
  · cases h

theorem memWrite_eq {sp : Space} {a : Nat} {vs : List Word} {s : State}
    (h : a + vs.length ≤ s.cfg.words sp) :
    memWrite sp a vs s = .ok (s.setMem sp ((s.mem sp).putWords a vs)) := if_pos h

/-- Everything `memWrite` can do when it answers a state. -/
theorem memWrite_ok {sp : Space} {a : Nat} {vs : List Word} {s t : State}
    (h : memWrite sp a vs s = .ok t) :
    a + vs.length ≤ s.cfg.words sp ∧ t = s.setMem sp ((s.mem sp).putWords a vs) := by
  unfold memWrite at h
  split at h
  · exact ⟨‹_›, by cases h; rfl⟩
  · cases h

/-- What a state reads as after `putWords`: the new words inside, every other byte as before. -/
theorem State.putWords_spec (s : State) (sp : Space) (a : Nat) (vs : List Word) :
    (∀ k (h : k < vs.length), (s.setMem sp ((s.mem sp).putWords a vs)).wordAt sp (a + k) = vs[k]) ∧
    SameBytesOutside sp a vs.length s (s.setMem sp ((s.mem sp).putWords a vs)) ∧
    (∀ sp', sp' ≠ sp → SameBytes sp' s (s.setMem sp ((s.mem sp).putWords a vs))) := by
  refine ⟨fun k h => ?_, fun b hb => ?_, fun sp' h b => State.byteAt_setMem_ne s _ h b⟩
  · rw [State.wordAt_putWords, if_pos (by omega)]
    simp [h]
  · rw [State.byteAt_putWords, if_neg (by omega)]

theorem State.MemoriesOk.putWords {s : State} (h : s.MemoriesOk) {sp : Space} {a : Nat} {vs : List Word}
    (hb : a + vs.length ≤ s.cfg.words sp) : (s.setMem sp ((s.mem sp).putWords a vs)).MemoriesOk := by
  intro sp'
  simp only [State.setMem_cfg]
  by_cases e : sp' = sp
  · subst e; rw [State.mem_setMem_self]; exact (h _).putWords hb
  · rw [State.mem_setMem_ne _ _ e]; exact h _

theorem State.MemoriesOk.setWord {s : State} (h : s.MemoriesOk) {sp : Space} {a : Nat} {v : Word}
    (hb : a < s.cfg.words sp) : (s.setWord sp a v).MemoriesOk := by
  intro sp'
  simp only [State.setWord, State.setMem_cfg]
  by_cases e : sp' = sp
  · subst e; rw [State.mem_setMem_self]; exact (h _).putWord hb
  · rw [State.mem_setMem_ne _ _ e]; exact h _

end Sys2Proof.Machine
end

