-- ==== Sys2Proof/Laws/Numeric.lean ====
section
/-! SUPPORT. The arithmetic: the rounding shift, saturation, the bound of the coefficient ROM, and the kernel
entry by entry (spec/40_numeric.md R71 to R76). -/

namespace Sys2Proof.Machine

/-! ## `rshr` -/

theorem rshr_of_pos {v s : Int} (h : 0 < s) : rshr v s = (v + 2 ^ (s.toNat - 1)) / 2 ^ s.toNat := if_pos h

theorem rshr_of_nonpos {v s : Int} (h : s ≤ 0) : rshr v s = v * 2 ^ (-s).toNat := if_neg (by omega)

theorem rshr_zero_left (s : Int) : rshr 0 s = 0 := by
  rcases lt_or_ge 0 s with h | h
  · rw [rshr_of_pos h, Int.zero_add]
    exact Int.ediv_eq_zero_of_lt (by positivity) (pow_lt_pow_right₀ (by norm_num) (by omega))
  · rw [rshr_of_nonpos h, zero_mul]

/-- "for `s > 0` and `−2^(s−1) ≤ v < 2^(s−1)` the result is 0" (R71). -/
theorem rshr_eq_zero {v s : Int} (h : 0 < s) (h1 : -2 ^ (s.toNat - 1) ≤ v) (h2 : v < 2 ^ (s.toNat - 1)) :
    rshr v s = 0 := by
  rw [rshr_of_pos h]
  have : (2 : Int) ^ s.toNat = 2 * 2 ^ (s.toNat - 1) := by
    rw [← pow_succ', Nat.sub_add_cancel (by omega)]
  exact Int.ediv_eq_zero_of_lt (by omega) (by omega)

/-- `rshr` rounds between two multiples: a bound on the value bounds the result. -/
theorem rshr_le {v s b : Int} (h : 0 < s) (hv : v ≤ b * 2 ^ s.toNat) : rshr v s ≤ b := by
  rw [rshr_of_pos h]
  have h2 : (2 : Int) ^ s.toNat = 2 * 2 ^ (s.toNat - 1) := by
    rw [← pow_succ', Nat.sub_add_cancel (by omega)]
  have hp : (0 : Int) < 2 ^ (s.toNat - 1) := by positivity
  apply Int.le_of_lt_add_one
  apply Int.ediv_lt_of_lt_mul (by positivity)
  have : (b + 1) * 2 ^ s.toNat = b * 2 ^ s.toNat + 2 ^ s.toNat := by ring
  omega

theorem le_rshr {v s b : Int} (h : 0 < s) (hv : b * 2 ^ s.toNat ≤ v) : b ≤ rshr v s := by
  rw [rshr_of_pos h]
  have hp : (0 : Int) < 2 ^ (s.toNat - 1) := by positivity
  apply Int.le_ediv_of_mul_le (by positivity)
  omega

/-! ## `sat32` -/

theorem sat32_of_not {v : Int} (h : saturates v = false) : sat32 v = v := by
  simp [saturates, i32Min, i32Max] at h
  simp [sat32, clamp, i32Min, i32Max]
  omega

theorem sat32_bounds (v : Int) : i32Min ≤ sat32 v ∧ sat32 v ≤ i32Max := by
  simp only [sat32, clamp, i32Min, i32Max]
  split_ifs <;> omega

theorem satPair_fst (v : Int) : (satPair v).1 = sat32 v := rfl

theorem satPair_snd (v : Int) : (satPair v).2 = saturates v := rfl

/-- The shortcut of `satShift` for extreme shift counts changes nothing (R71, R73). -/
theorem satShift_eq (v s : Int) : satShift v s = satPair (rshr v s) := by
  unfold satShift
  split_ifs with h1 h2 h3 h4
  · subst h2; rw [rshr_zero_left]; rfl
  · rw [rshr_of_nonpos (by omega)]
    have hp : (2 : Int) ^ 32 ≤ 2 ^ (-s).toNat := pow_le_pow_right₀ (by norm_num) (by omega)
    have : v * 2 ^ (-s).toNat ≤ -2 ^ 32 := by nlinarith
    generalize v * 2 ^ (-s).toNat = x at this
    simp only [satPair, sat32, clamp, saturates, i32Min, i32Max, Prod.mk.injEq]
    constructor
    · rw [if_pos (by omega)]
    · simp; omega
  · rw [rshr_of_nonpos (by omega)]
    have hp : (2 : Int) ^ 32 ≤ 2 ^ (-s).toNat := pow_le_pow_right₀ (by norm_num) (by omega)
    have : 2 ^ 32 ≤ v * 2 ^ (-s).toNat := by nlinarith [show 1 ≤ v by omega]
    generalize v * 2 ^ (-s).toNat = x at this
    simp only [satPair, sat32, clamp, saturates, i32Min, i32Max, Prod.mk.injEq]
    constructor
    · rw [if_neg (by omega), if_pos (by omega)]
    · simp; omega
  · have hb : v.natAbs < 2 ^ (s.toNat - 1) :=
      lt_of_lt_of_le Nat.lt_log2_self (Nat.pow_le_pow_right (by decide) (by omega))
    have hb' : (v.natAbs : Int) < 2 ^ (s.toNat - 1) := by exact_mod_cast hb
    rw [rshr_eq_zero (by omega) (by omega) (by omega)]
    rfl
  · rfl

/-! ## The ROM and the kernel -/

theorem cosqQuarter_bounds (N r : Nat) : 0 ≤ cosqQuarter N r ∧ cosqQuarter N r ≤ 2 ^ 31 - 1 := by
  unfold cosqQuarter
  exact ⟨le_min (by norm_num) (Int.natCast_nonneg _), min_le_left _ _⟩

theorem cosq_bounds (N : Nat) (m : Int) : -(2 ^ 31 - 1) ≤ cosq N m ∧ cosq N m ≤ 2 ^ 31 - 1 := by
  unfold cosq
  dsimp only
  split_ifs
  · have := cosqQuarter_bounds N (4 * N - (8 * N - (m % (8 * N : Nat)).toNat)); omega
  · have := cosqQuarter_bounds N (8 * N - (m % (8 * N : Nat)).toNat); omega
  · have := cosqQuarter_bounds N (4 * N - (m % (8 * N : Nat)).toNat); omega
  · have := cosqQuarter_bounds N (m % (8 * N : Nat)).toNat; omega

@[simp] theorem length_kernel (N : Nat) (a : List Int) : (kernel N a).length = N := by simp [kernel]

theorem sum_zipWith_range (g : Int → Nat → Int) (a : List Int) :
    (List.zipWith g a (List.range a.length)).sum = ∑ n ∈ Finset.range a.length, g (a.getD n 0) n := by
  rw [Finset.sum_range, ← List.sum_ofFn]
  congr 1
  apply List.ext_getElem
  · simp
  · intro i h1 h2
    simp

/-- Entry `k` of the kernel (R76). -/
theorem kernel_getElem {N : Nat} {a : List Int} (ha : a.length = N) {k : Nat} (hk : k < N) :
    (kernel N a)[k]'(by simpa using hk) =
      ∑ n ∈ Finset.range N, a.getD n 0 * cosq N ((2 * n + 1) * (2 * k + 1) : Nat) := by
  subst ha
  simp only [kernel, List.getElem_map, List.getElem_range]
  exact sum_zipWith_range (fun x n => x * cosq a.length ((2 * n + 1) * (2 * k + 1) : Nat)) a

end Sys2Proof.Machine
end

