-- ==== Sys2Proof/Laws/Effects.lean ====
section
/-! SUPPORT. One lemma per effect of a command: everything it can do when it answers a state, as an equation
over the named updates; and what no effect ever touches. -/

namespace Sys2Proof.Machine

theorem nopEffect_ok {s t : State} {c : Code} (h : nopEffect s = .ok (t, c)) :
    c = .ok ∧ t = s.setRet 0#32 := by
  simp only [nopEffect, Except.ok.injEq, Prod.mk.injEq] at h
  exact ⟨h.2.symm, h.1.symm⟩

/-- The state after `INIT` (R86). -/
def initState (ch : Chan) (s : State) : State :=
  ((s.setMem .ov ((s.mem .ov).putWords (initOperands s).base
    (List.replicate (initOperands s).size 0#32))).setCtx ch (initContext s)).setRet 0#32

theorem initEffect_eq {ch : Chan} {s : State}
    (h : (initOperands s).base + (initOperands s).size ≤ s.cfg.ovWords) :
    initEffect ch s = .ok (initState ch s, .ok) := by
  have h' : (initOperands s).base + (List.replicate (initOperands s).size 0#32).length ≤
      s.cfg.words .ov := by simpa [Config.words] using h
  simp [initEffect, memWrite_eq h', bind, Except.bind, initState]

theorem initEffect_ok {ch : Chan} {s t : State} {c : Code} (h : initEffect ch s = .ok (t, c)) :
    c = .ok ∧ t = initState ch s ∧ (initOperands s).base + (initOperands s).size ≤ s.cfg.ovWords := by
  by_cases hb : (initOperands s).base + (initOperands s).size ≤ s.cfg.ovWords
  · rw [initEffect_eq hb] at h; cases h; exact ⟨rfl, rfl, hb⟩
  · have h' : ¬ (initOperands s).base + (List.replicate (initOperands s).size 0#32).length ≤
        s.cfg.words .ov := by simpa [Config.words] using hb
    simp only [initEffect, memWrite, if_neg h', bind, Except.bind] at h
    cases h

theorem freeEffect_ok {ch : Chan} {s t : State} {c : Code} (h : freeEffect ch s = .ok (t, c)) :
    c = .ok ∧ t = (s.setCtx ch Ctx.blank).setRet 0#32 := by
  simp only [freeEffect, Except.ok.injEq, Prod.mk.injEq] at h
  exact ⟨h.2.symm, h.1.symm⟩

theorem ctxldEffect_ok {ch : Chan} {s t : State} {c : Code} (h : ctxldEffect ch s = .ok (t, c)) :
    c = .ok ∧ t = (s.setCtx ch (ctxldImage s)).setRet 0#32 := by
  simp only [ctxldEffect, Except.ok.injEq, Prod.mk.injEq] at h
  exact ⟨h.2.symm, h.1.symm⟩

theorem gainEffect_ok {s t : State} {c : Code} (h : gainEffect s = .ok (t, c)) :
    c = .ok ∧ t = ((s.setArg 0 (w32n (gainMantissa (s.uarg 2)))).setArg 1
      (w32 (gainExponent (s.uarg 2) s.cfg.outGainE))).setRet 0#32 := by
  simp only [gainEffect, gainOperand, Except.ok.injEq, Prod.mk.injEq] at h
  exact ⟨h.2.symm, h.1.symm⟩

theorem adaptEffect_ok {ch : Chan} {s t : State} {c : Code} (h : adaptEffect ch s = .ok (t, c)) :
    c = .ok ∧ t = (((s.setCtx ch (adaptCase s (s.ctx ch)).1).setArg 0
      (w32n (adaptCase s (s.ctx ch)).2.1)).setArg 1
      (w32n (((adaptOperands s).tl - (adaptCase s (s.ctx ch)).2.1) / 2))).setRet
      (w32n (adaptCase s (s.ctx ch)).2.2) := by
  simp only [adaptEffect, Except.ok.injEq, Prod.mk.injEq] at h
  exact ⟨h.2.symm, h.1.symm⟩

theorem rcinitEffect_ok {s t : State} {c : Code} (h : rcinitEffect s = .ok (t, c)) :
    c = .ok ∧ t = (s.setRc
      { valid := true, level := s.arg 5, size := s.arg 0, min := s.arg 1, max := s.arg 2, avg := s.arg 3,
        borrow := s.arg 4 }).setRet (s.arg 5) := by
  simp only [rcinitEffect, Except.ok.injEq, Prod.mk.injEq] at h
  exact ⟨h.2.symm, h.1.symm⟩

theorem rcallowEffect_ok {m : Bool} {s t : State} {c : Code} (h : rcallowEffect m s = .ok (t, c)) :
    c = .ok ∧ t = s.setRet (w32 (allowedBits s.rc (budgetOperand m s))) := by
  simp only [rcallowEffect, Except.ok.injEq, Prod.mk.injEq] at h
  exact ⟨h.2.symm, h.1.symm⟩

theorem rcupdEffect_ok {m : Bool} {s t : State} {c : Code} (h : rcupdEffect m s = .ok (t, c)) :
    c = (rcupdOutcome (rcupdLevel m s) s.rc s.flags).2.2.2 ∧
    t = (((s.setRc { s.rc with level := (rcupdOutcome (rcupdLevel m s) s.rc s.flags).1 }).setFlags
      (rcupdOutcome (rcupdLevel m s) s.rc s.flags).2.1).setArg 2
      (w32n (rcupdOutcome (rcupdLevel m s) s.rc s.flags).2.2.1)).setRet
      (rcupdOutcome (rcupdLevel m s) s.rc s.flags).1 := by
  simp only [rcupdEffect, Except.ok.injEq, Prod.mk.injEq] at h
  exact ⟨h.2.symm, h.1.symm⟩

/-! ## The commands that move memory -/

/-- `T` of R96 as the effect of `FWD` reads it. -/
def fwdSampleLine (ch : Chan) (s : State) : List Word :=
  ((List.range (fwdFill (s.ctx ch))).map fun i => s.wordAt .ov ((s.ctx ch).ovBase.toNat + i)) ++
  ((List.range (fwdOperands s).tl).map fun i => s.wordAt .dm ((fwdOperands s).inp + i))

/-- The words of a slope table. -/
def slopeTable (s : State) (a n : Nat) : List Word := (List.range n).map fun i => s.wordAt .wm (a + i)

/-- The spectrum that `FWD` computes, with its flags. -/
def fwdSpectrum (ch : Chan) (s : State) : List (Int × Bool) :=
  spectrum (fwdOperands s).tl
    (foldedBlock (fwdOperands s).tl (s.ctx ch).prevFr.toNat (fwdOperands s).fr (fwdOperands s).nr
      ((fwdSampleLine ch s).map s32)
      ((slopeTable s (s.ctx ch).prevWrs.toNat (s.ctx ch).prevFr.toNat).map s32)
      ((slopeTable s (fwdOperands s).wrs (fwdOperands s).fr).map s32))

/-- The samples that `FWD` keeps (R99). -/
def fwdKept (ch : Chan) (s : State) : List Word :=
  ((fwdSampleLine ch s).drop
    ((fwdOperands s).tl + (s.ctx ch).prevFr.toNat / 2 - (fwdOperands s).fr / 2)).take
    ((fwdOperands s).fr / 2 + (s.ctx ch).tlMax.toNat / 2)

/-- The memories after `FWD`. -/
def fwdMemories (ch : Chan) (s : State) : State :=
  let t := s.setMem .dm ((s.mem .dm).putWords (fwdOperands s).out
    ((fwdSpectrum ch s).map fun p => w32 p.1))
  t.setMem .ov ((t.mem .ov).putWords (s.ctx ch).ovBase.toNat (fwdKept ch s))

/-- The state after `FWD`. -/
def fwdState (ch : Chan) (s : State) : State :=
  ((((fwdMemories ch s).setCtx ch (fwdContext s (s.ctx ch))).setArg 1
    (w32 ((fwdOperands s).eIn + hs (fwdOperands s).tl))).setFlags
    (s.flags.raiseSat ((fwdSpectrum ch s).any fun p => p.2))).setRet (w32n (fwdOperands s).tl)

theorem fwdEffect_ok {ch : Chan} {s t : State} {c : Code} (h : fwdEffect ch s = .ok (t, c)) :
    c = .ok ∧ t = fwdState ch s ∧
    (s.ctx ch).ovBase.toNat + fwdFill (s.ctx ch) ≤ s.cfg.ovWords ∧
    (fwdOperands s).out + (fwdSpectrum ch s).length ≤ s.cfg.dmWords ∧
    (s.ctx ch).ovBase.toNat + (fwdKept ch s).length ≤ s.cfg.ovWords := by
  simp only [fwdEffect, bind, Except.bind] at h
  split at h
  · cases h
  rename_i l1 h1; obtain ⟨b1, rfl⟩ := memRead_ok h1
  split at h
  · cases h
  rename_i l2 h2; obtain ⟨b2, rfl⟩ := memRead_ok h2
  split at h
  · cases h
  rename_i l3 h3; obtain ⟨b3, rfl⟩ := memRead_ok h3
  split at h
  · cases h
  rename_i l4 h4; obtain ⟨b4, rfl⟩ := memRead_ok h4
  split at h
  · cases h
  rename_i t1 h5; obtain ⟨b5, rfl⟩ := memWrite_ok h5
  split at h
  · cases h
  rename_i t2 h6; obtain ⟨b6, rfl⟩ := memWrite_ok h6
  simp only [Except.ok.injEq, Prod.mk.injEq] at h
  simp only [List.length_map, State.setMem_cfg] at b5 b6
  exact ⟨h.2.symm, h.1.symm, b1, b5, b6⟩

/-- The working variables of `INV` before its first block (R111). -/
def invStart (ch : Chan) (s : State) : InvWork where
  q := ((List.range (s.ctx ch).fill.toNat).map fun i => s.wordAt .ov ((s.ctx ch).ovBase.toNat + i)).map s32
  c := ((List.range ((s.ctx ch).prevTl.toNat / 2)).map fun i =>
    s.wordAt .ov ((s.ctx ch).ovBase.toNat + (s.ctx ch).ovSize.toNat - (s.ctx ch).prevTl.toNat / 2 + i)).map s32
  ptl := (s.ctx ch).prevTl.toNat
  f := (s.ctx ch).prevFr.toNat
  r := (s.ctx ch).prevNr.toNat
  tab := (slopeTable s (s.ctx ch).prevWrs.toNat (s.ctx ch).prevFr.toNat).map s32
  sat := false

/-- The blocks `INV` reads. -/
def invInput (s : State) : List (List Int × Int) :=
  invBlocks (invOperands s).nspec (invOperands s).tl
    (((List.range ((invOperands s).nspec * (invOperands s).tl)).map fun i =>
      s.wordAt .dm ((invOperands s).spec + i)).map s32)
    (((List.range (invOperands s).nspec).map fun i => s.wordAt .dm ((invOperands s).scl + i)).map s32)

/-- The working variables of `INV` after its last block. -/
def invEnd (ch : Chan) (s : State) : InvWork :=
  (invInput s).foldl
    (invBlock (invOperands s).tl (invOperands s).fr (invOperands s).gm (invOperands s).ge
      ((slopeTable s (invOperands s).wrs (invOperands s).fr).map s32)) (invStart ch s)

/-- The memories after `INV`. -/
def invMemories (ch : Chan) (s : State) : State :=
  let n := invDelivered (invOperands s) (s.ctx ch)
  let t := s.setMem .dm ((s.mem .dm).putWords (invOperands s).out (((invEnd ch s).q.take n).map w32))
  let t := t.setMem .ov ((t.mem .ov).putWords (s.ctx ch).ovBase.toNat (((invEnd ch s).q.drop n).map w32))
  t.setMem .ov ((t.mem .ov).putWords
    ((s.ctx ch).ovBase.toNat + (s.ctx ch).ovSize.toNat - (invOperands s).tl / 2) ((invEnd ch s).c.map w32))

/-- The state after `INV`. -/
def invState (ch : Chan) (s : State) : State :=
  (((invMemories ch s).setCtx ch (invContext s (s.ctx ch))).setFlags
    (s.flags.raiseSat (invEnd ch s).sat)).setRet (w32n (invDelivered (invOperands s) (s.ctx ch)))

theorem invEffect_ok {ch : Chan} {s t : State} {c : Code} (h : invEffect ch s = .ok (t, c)) :
    c = .ok ∧ t = invState ch s ∧
    (invOperands s).out + ((invEnd ch s).q.take (invDelivered (invOperands s) (s.ctx ch))).length ≤
      s.cfg.dmWords ∧
    (s.ctx ch).ovBase.toNat + ((invEnd ch s).q.drop (invDelivered (invOperands s) (s.ctx ch))).length ≤
      s.cfg.ovWords ∧
    (s.ctx ch).ovBase.toNat + (s.ctx ch).ovSize.toNat - (invOperands s).tl / 2 + (invEnd ch s).c.length ≤
      s.cfg.ovWords := by
  simp only [invEffect, bind, Except.bind] at h
  split at h
  · cases h
  rename_i l1 h1; obtain ⟨b1, rfl⟩ := memRead_ok h1
  split at h
  · cases h
  rename_i l2 h2; obtain ⟨b2, rfl⟩ := memRead_ok h2
  split at h
  · cases h
  rename_i l3 h3; obtain ⟨b3, rfl⟩ := memRead_ok h3
  split at h
  · cases h
  rename_i l4 h4; obtain ⟨b4, rfl⟩ := memRead_ok h4
  split at h
  · cases h
  rename_i l5 h5; obtain ⟨b5, rfl⟩ := memRead_ok h5
  split at h
  · cases h
  rename_i l6 h6; obtain ⟨b6, rfl⟩ := memRead_ok h6
  split at h
  · cases h
  rename_i t1 h7; obtain ⟨b7, rfl⟩ := memWrite_ok h7
  split at h
  · cases h
  rename_i t2 h8; obtain ⟨b8, rfl⟩ := memWrite_ok h8
  split at h
  · cases h
  rename_i t3 h9; obtain ⟨b9, rfl⟩ := memWrite_ok h9
  simp only [Except.ok.injEq, Prod.mk.injEq] at h
  simp only [List.length_map, State.setMem_cfg] at b7 b8 b9
  exact ⟨h.2.symm, h.1.symm, b7, b8, b9⟩

/-- The pending samples of a context. -/
def pendingWords (ch : Chan) (s : State) (n : Nat) : List Word :=
  (List.range n).map fun i => s.wordAt .ov ((s.ctx ch).ovBase.toNat + i)

/-- The state after `DRAIN`. -/
def drainState (ch : Chan) (s : State) : State :=
  let n := drainCount ch s
  let old := pendingWords ch s (s.ctx ch).fill.toNat
  let t := s.setMem .dm ((s.mem .dm).putWords (copyOperands s).out (old.take n))
  let t := t.setMem .ov ((t.mem .ov).putWords (s.ctx ch).ovBase.toNat (old.drop n))
  (t.setCtx ch { s.ctx ch with fill := w32n ((s.ctx ch).fill.toNat - n) }).setRet (w32n n)

theorem drainEffect_ok {ch : Chan} {s t : State} {c : Code} (h : drainEffect ch s = .ok (t, c)) :
    c = .ok ∧ t = drainState ch s ∧ (copyOperands s).out + drainCount ch s ≤ s.cfg.dmWords ∧
    (s.ctx ch).ovBase.toNat + (s.ctx ch).fill.toNat ≤ s.cfg.ovWords := by
  simp only [drainEffect, bind, Except.bind] at h
  split at h
  · cases h
  rename_i l1 h1; obtain ⟨b1, rfl⟩ := memRead_ok h1
  split at h
  · cases h
  rename_i t1 h2; obtain ⟨b2, rfl⟩ := memWrite_ok h2
  split at h
  · cases h
  rename_i t2 h3; obtain ⟨b3, rfl⟩ := memWrite_ok h3
  simp only [Except.ok.injEq, Prod.mk.injEq] at h
  have hle : drainCount ch s ≤ (s.ctx ch).fill.toNat := min_le_left _ _
  refine ⟨h.2.symm, h.1.symm, ?_, b1⟩
  simpa [hle, Config.words] using b2

/-- The words that `PEEK` shows after the pending samples. -/
def peekTail (ch : Chan) (s : State) : List (Int × Bool) :=
  let extra := peekCount ch s - (s.ctx ch).fill.toNat
  flatTail (((List.range extra).map fun i =>
    s.wordAt .ov ((s.ctx ch).ovBase.toNat + (s.ctx ch).ovSize.toNat - extra + i)).map s32)

/-- The state after `PEEK`. -/
def peekState (ch : Chan) (s : State) : State :=
  ((s.setMem .dm ((s.mem .dm).putWords (copyOperands s).out
    (pendingWords ch s (min (peekCount ch s) (s.ctx ch).fill.toNat) ++
      (peekTail ch s).map fun p => w32 p.1))).setFlags
    (s.flags.raiseSat ((peekTail ch s).any Prod.snd))).setRet (w32n (peekCount ch s))

theorem length_peekTail (ch : Chan) (s : State) :
    (peekTail ch s).length = peekCount ch s - (s.ctx ch).fill.toNat := by
  simp [peekTail, flatTail]

theorem peekEffect_ok {ch : Chan} {s t : State} {c : Code} (h : peekEffect ch s = .ok (t, c)) :
    c = .ok ∧ t = peekState ch s ∧ (copyOperands s).out + peekCount ch s ≤ s.cfg.dmWords := by
  simp only [peekEffect, bind, Except.bind] at h
  split at h
  · cases h
  rename_i l1 h1; obtain ⟨b1, rfl⟩ := memRead_ok h1
  split at h
  · cases h
  rename_i l2 h2; obtain ⟨b2, rfl⟩ := memRead_ok h2
  split at h
  · cases h
  rename_i t1 h3; obtain ⟨b3, rfl⟩ := memWrite_ok h3
  simp only [Except.ok.injEq, Prod.mk.injEq] at h
  refine ⟨h.2.symm, h.1.symm, ?_⟩
  simp only [List.length_append, List.length_map, List.length_range, flatTail, List.length_reverse] at b3
  have : min (peekCount ch s) (s.ctx ch).fill.toNat + (peekCount ch s - (s.ctx ch).fill.toNat) =
    peekCount ch s := by omega
  rw [this] at b3
  exact b3

/-! ## When the effect answers -/

theorem fwdEffect_eq {ch : Chan} {s : State}
    (h1 : (s.ctx ch).ovBase.toNat + fwdFill (s.ctx ch) ≤ s.cfg.ovWords)
    (h2 : (fwdOperands s).inp + (fwdOperands s).tl ≤ s.cfg.dmWords)
    (h3 : (s.ctx ch).prevWrs.toNat + (s.ctx ch).prevFr.toNat ≤ s.cfg.wmWords)
    (h4 : (fwdOperands s).wrs + (fwdOperands s).fr ≤ s.cfg.wmWords)
    (h5 : (fwdOperands s).out + (fwdSpectrum ch s).length ≤ s.cfg.dmWords)
    (h6 : (s.ctx ch).ovBase.toNat + (fwdKept ch s).length ≤ s.cfg.ovWords) :
    fwdEffect ch s = .ok (fwdState ch s, .ok) := by
  have e5 := memWrite_eq (sp := .dm) (a := (fwdOperands s).out)
    (vs := (fwdSpectrum ch s).map fun p => w32 p.1) (s := s) (by simpa [Config.words] using h5)
  have e6 := memWrite_eq (sp := .ov) (a := (s.ctx ch).ovBase.toNat) (vs := fwdKept ch s)
    (s := s.setMem .dm ((s.mem .dm).putWords (fwdOperands s).out
      ((fwdSpectrum ch s).map fun p => w32 p.1))) (by simpa [Config.words] using h6)
  simp only [fwdSpectrum, fwdKept, fwdSampleLine, slopeTable] at e5 e6
  simp only [fwdEffect, bind, Except.bind, memRead_eq (sp := .ov) h1, memRead_eq (sp := .dm) h2,
    memRead_eq (sp := .wm) h3, memRead_eq (sp := .wm) h4, e5, e6]
  rfl

theorem invEffect_eq {ch : Chan} {s : State}
    (h1 : (s.ctx ch).ovBase.toNat + (s.ctx ch).fill.toNat ≤ s.cfg.ovWords)
    (h2 : (s.ctx ch).ovBase.toNat + (s.ctx ch).ovSize.toNat - (s.ctx ch).prevTl.toNat / 2 +
      (s.ctx ch).prevTl.toNat / 2 ≤ s.cfg.ovWords)
    (h3 : (invOperands s).spec + (invOperands s).nspec * (invOperands s).tl ≤ s.cfg.dmWords)
    (h4 : (invOperands s).scl + (invOperands s).nspec ≤ s.cfg.dmWords)
    (h5 : (s.ctx ch).prevWrs.toNat + (s.ctx ch).prevFr.toNat ≤ s.cfg.wmWords)
    (h6 : (invOperands s).wrs + (invOperands s).fr ≤ s.cfg.wmWords)
    (h7 : (invOperands s).out +
      ((invEnd ch s).q.take (invDelivered (invOperands s) (s.ctx ch))).length ≤ s.cfg.dmWords)
    (h8 : (s.ctx ch).ovBase.toNat +
      ((invEnd ch s).q.drop (invDelivered (invOperands s) (s.ctx ch))).length ≤ s.cfg.ovWords)
    (h9 : (s.ctx ch).ovBase.toNat + (s.ctx ch).ovSize.toNat - (invOperands s).tl / 2 +
      (invEnd ch s).c.length ≤ s.cfg.ovWords) :
    invEffect ch s = .ok (invState ch s, .ok) := by
  have e7 := memWrite_eq (sp := .dm) (a := (invOperands s).out)
    (vs := ((invEnd ch s).q.take (invDelivered (invOperands s) (s.ctx ch))).map w32) (s := s)
    (by rw [List.length_map]; exact h7)
  have e8 := fun t (ht : t.cfg = s.cfg) => memWrite_eq (sp := .ov) (a := (s.ctx ch).ovBase.toNat)
    (vs := ((invEnd ch s).q.drop (invDelivered (invOperands s) (s.ctx ch))).map w32) (s := t)
    (by rw [List.length_map, ht]; exact h8)
  have e9 := fun t (ht : t.cfg = s.cfg) => memWrite_eq (sp := .ov)
    (a := (s.ctx ch).ovBase.toNat + (s.ctx ch).ovSize.toNat - (invOperands s).tl / 2)
    (vs := ((invEnd ch s).c).map w32) (s := t) (by rw [List.length_map, ht]; exact h9)
  simp only [invEnd, invInput, invStart, slopeTable] at e7 e8 e9
  simp only [invEffect, bind, Except.bind, memRead_eq (sp := .ov) h1, memRead_eq (sp := .ov) h2,
    memRead_eq (sp := .dm) h3, memRead_eq (sp := .dm) h4, memRead_eq (sp := .wm) h5,
    memRead_eq (sp := .wm) h6, e7, e8 _ (State.setMem_cfg _ _ _)]
  rw [e9 _ (by simp)]
  rfl

theorem drainEffect_eq {ch : Chan} {s : State}
    (h1 : (copyOperands s).out + drainCount ch s ≤ s.cfg.dmWords)
    (h2 : (s.ctx ch).ovBase.toNat + (s.ctx ch).fill.toNat ≤ s.cfg.ovWords) :
    drainEffect ch s = .ok (drainState ch s, .ok) := by
  have hle : drainCount ch s ≤ (s.ctx ch).fill.toNat := min_le_left _ _
  have e1 := memWrite_eq (sp := .dm) (a := (copyOperands s).out)
    (vs := (pendingWords ch s (s.ctx ch).fill.toNat).take (drainCount ch s)) (s := s)
    (by simpa [Config.words, pendingWords, hle] using h1)
  have e2 := fun t (ht : t.cfg = s.cfg) => memWrite_eq (sp := .ov) (a := (s.ctx ch).ovBase.toNat)
    (vs := (pendingWords ch s (s.ctx ch).fill.toNat).drop (drainCount ch s)) (s := t)
    (by simp only [pendingWords, List.length_drop, List.length_map, List.length_range, ht, Config.words]; omega)
  simp only [pendingWords] at e1 e2
  simp only [drainEffect, bind, Except.bind, memRead_eq (sp := .ov) h2, e1, e2 _ (State.setMem_cfg _ _ _)]
  rfl

theorem peekEffect_eq {ch : Chan} {s : State}
    (h1 : (copyOperands s).out + peekCount ch s ≤ s.cfg.dmWords)
    (h2 : (s.ctx ch).ovBase.toNat + (s.ctx ch).fill.toNat ≤ s.cfg.ovWords)
    (h3 : peekCount ch s - (s.ctx ch).fill.toNat ≤ (s.ctx ch).ovSize.toNat)
    (h4 : (s.ctx ch).ovBase.toNat + (s.ctx ch).ovSize.toNat ≤ s.cfg.ovWords) :
    peekEffect ch s = .ok (peekState ch s, .ok) := by
  have b1 : (s.ctx ch).ovBase.toNat + min (peekCount ch s) (s.ctx ch).fill.toNat ≤ s.cfg.words .ov := by
    simp only [Config.words]; omega
  have b2 : (s.ctx ch).ovBase.toNat + (s.ctx ch).ovSize.toNat - (peekCount ch s - (s.ctx ch).fill.toNat) +
      (peekCount ch s - (s.ctx ch).fill.toNat) ≤ s.cfg.words .ov := by
    simp only [Config.words]; omega
  have e1 := memWrite_eq (sp := .dm) (a := (copyOperands s).out)
    (vs := pendingWords ch s (min (peekCount ch s) (s.ctx ch).fill.toNat) ++
      (peekTail ch s).map fun p => w32 p.1) (s := s)
    (by
      simp only [List.length_append, List.length_map, length_peekTail, pendingWords, List.length_range,
        Config.words]
      omega)
  simp only [pendingWords, peekTail] at e1
  simp only [peekEffect, bind, Except.bind, memRead_eq b1, memRead_eq b2, e1]
  rfl

end Sys2Proof.Machine
end

