-- ==== Sys2Proof/Laws/Transform.lean ====
section
/-! SUPPORT. The transforms: how many words each list of `FWD` and `INV` has, and the block loop of `INV` turn by
turn (spec/42_forward_transform.md R96 to R99, spec/43_inverse_transform.md R111 to R115). -/

namespace Sys2Proof.Machine

/-! ## `FWD` -/

@[simp] theorem length_foldedBlock (tl pfr fr nr : Nat) (T lt rt : List Int) :
    (foldedBlock tl pfr fr nr T lt rt).length = tl := by simp [foldedBlock]

@[simp] theorem length_spectrum (tl : Nat) (U : List Int) : (spectrum tl U).length = tl := by
  simp [spectrum]

@[simp] theorem length_fwdSpectrum (ch : Chan) (s : State) :
    (fwdSpectrum ch s).length = (fwdOperands s).tl := by simp [fwdSpectrum]

theorem length_fwdSampleLine (ch : Chan) (s : State) :
    (fwdSampleLine ch s).length = fwdFill (s.ctx ch) + (fwdOperands s).tl := by simp [fwdSampleLine]

/-- A context that satisfies `CtxInv` holds `pfr/2 + TLMAX/2` samples for the next forward block, whether it is
fresh or forward. -/
theorem fwdFill_eq {ch : Chan} {s : State} (hi : s.CtxInv ch (s.ctx ch)) (hd : (s.ctx ch).dir ≠ .inv) :
    fwdFill (s.ctx ch) = (s.ctx ch).prevFr.toNat / 2 + (s.ctx ch).tlMax.toNat / 2 := by
  obtain ⟨-, -, h3, h4, -, h6, -⟩ := hi
  unfold fwdFill
  split
  · exact h6 ‹_›
  · have : (s.ctx ch).dir = .none := by
      cases hx : (s.ctx ch).dir <;> simp_all
    have := (h4 this).2.2.2.2
    simp [this]

theorem length_fwdKept {ch : Chan} {s : State} (hi : s.CtxInv ch (s.ctx ch)) (hd : (s.ctx ch).dir ≠ .inv)
    (hf : (fwdOperands s).fr ≤ (fwdOperands s).tl) :
    (fwdKept ch s).length = (fwdOperands s).fr / 2 + (s.ctx ch).tlMax.toNat / 2 := by
  simp only [fwdKept, List.length_take, List.length_drop, length_fwdSampleLine, fwdFill_eq hi hd]
  omega

theorem getD_eq_of_lt {α : Type} {l : List α} {d : α} {i : Nat} (h : i < l.length) : l.getD i d = l[i] := by
  simp [h]

theorem getD_map_s32 (l : List Word) (i : Nat) : (l.map s32).getD i 0 = s32 (l.getD i 0#32) := by
  simp only [List.getD_eq_getElem?_getD, List.getElem?_map]
  cases l[i]? <;> rfl

theorem getD_slopeTable {s : State} {a n i : Nat} (h : i < n) :
    ((slopeTable s a n).map s32).getD i 0 = s32 (s.wordAt .wm (a + i)) := by
  rw [getD_map_s32]
  simp [slopeTable, h]

/-- `T[j]` (R96), entry by entry. -/
theorem fwdSampleLine_getD {ch : Chan} {s : State} {j : Nat}
    (h : j < fwdFill (s.ctx ch) + (fwdOperands s).tl) :
    ((fwdSampleLine ch s).map s32).getD j 0 = fwdLine s ch j := by
  rw [getD_map_s32, fwdLine, getD_eq_of_lt (by rwa [length_fwdSampleLine])]
  simp only [fwdSampleLine, List.getElem_append, List.getElem_map, List.getElem_range, List.length_map,
    List.length_range]
  split_ifs <;> rfl

/-- What the geometry of a forward block must satisfy for every index to be in range: every context that
satisfies `CtxInv` and every call that passes R95 does. -/
structure FwdGeometry (ch : Chan) (s : State) : Prop where
  tl_even : (fwdOperands s).tl % 2 = 0
  tl_le : (fwdOperands s).tl ≤ (s.ctx ch).tlMax.toNat
  fr_even : (fwdOperands s).fr % 2 = 0
  fr_le : (fwdOperands s).fr ≤ (fwdOperands s).tl
  nr : (fwdOperands s).nr = ((fwdOperands s).tl - (fwdOperands s).fr) / 2
  pfr_even : (s.ctx ch).prevFr.toNat % 2 = 0
  pfr_le : (s.ctx ch).prevFr.toNat ≤ (fwdOperands s).tl
  fill : fwdFill (s.ctx ch) = (s.ctx ch).prevFr.toNat / 2 + (s.ctx ch).tlMax.toNat / 2
  tlMax_even : (s.ctx ch).tlMax.toNat % 2 = 0

theorem FwdOk.geometry {ch : Chan} {s : State} (hi : s.CtxInv ch (s.ctx ch)) (h : FwdOk ch s) :
    FwdGeometry ch s := by
  obtain ⟨h1, ⟨h2, -, h3⟩, ⟨h4, h5, h6, h7⟩, -⟩ := h
  refine ⟨h2, h3, h4, h5, h6, ?_, h7, fwdFill_eq hi h1, hi.1.1⟩
  by_cases hn : (s.ctx ch).dir = .none
  · simp [(hi.2.2.2.1 hn).2.2.2.2]
  · exact (hi.2.2.2.2.1 hn).2.1.1

/-- The window product (R97), position by position. -/
theorem windowProduct_eq {ch : Chan} {s : State} (g : FwdGeometry ch s) (n : Nat) :
    windowProduct (fwdOperands s).tl (s.ctx ch).prevFr.toNat (fwdOperands s).fr (fwdOperands s).nr
      ((fwdSampleLine ch s).map s32)
      ((slopeTable s (s.ctx ch).prevWrs.toNat (s.ctx ch).prevFr.toNat).map s32)
      ((slopeTable s (fwdOperands s).wrs (fwdOperands s).fr).map s32) n = fwdPz s ch n := by
  obtain ⟨g1, g2, g3, g4, g5, g6, g7, g8, g9⟩ := g
  have hS : n < (fwdOperands s).tl + (fwdOperands s).nr + (fwdOperands s).fr →
      ((fwdSampleLine ch s).map s32).getD (n + (s.ctx ch).prevFr.toNat / 2 - (fwdOperands s).tl / 2) 0 =
      fwdSample s ch ((n : Int) - ((fwdOperands s).tl / 2 : Nat)) := by
    intro hn
    rw [fwdSampleLine_getD (by rw [g8]; omega), fwdSample]
    congr 1
    omega
  unfold windowProduct fwdPz
  dsimp only
  split_ifs with h1 h2 h3 h4
  · rfl
  · rw [hS (by omega), getD_slopeTable (by omega)]
  · rw [hS (by omega)]
  · rw [hS (by omega), getD_slopeTable (by omega)]
  · rfl

/-- The spectrum of `FWD` (R98), line by line, with the flag of its `sat32`. -/
theorem fwdSpectrum_getElem {ch : Chan} {s : State} (g : FwdGeometry ch s) {k : Nat}
    (hk : k < (fwdOperands s).tl) :
    (fwdSpectrum ch s)[k]'(by simpa using hk) =
      satPair (rshr (fwdY s ch k) (31 + hs (fwdOperands s).tl)) := by
  simp only [fwdSpectrum, spectrum, List.getElem_map, kernel_getElem (length_foldedBlock _ _ _ _ _ _ _) hk]
  congr 2
  unfold fwdY kernelSum
  refine Finset.sum_congr rfl fun n hn => ?_
  have hn := Finset.mem_range.1 hn
  congr 1
  simp only [foldedBlock, getD_eq_of_lt (l := List.map _ (List.range (fwdOperands s).tl)) (d := (0 : Int))
    (i := n) (by simpa using hn), List.getElem_map, List.getElem_range, foldBlock, windowProduct_eq g]
  rfl

/-- The samples `FWD` keeps (R99), one by one. -/
theorem fwdKept_getD {ch : Chan} {s : State} (g : FwdGeometry ch s) {k : Nat}
    (hk : k < (fwdOperands s).fr / 2 + (s.ctx ch).tlMax.toNat / 2) :
    (fwdKept ch s).getD k 0#32 = w32 (fwdLine s ch
      ((fwdOperands s).tl + (s.ctx ch).prevFr.toNat / 2 - (fwdOperands s).fr / 2 + k)) := by
  obtain ⟨g1, g2, g3, g4, g5, g6, g7, g8, g9⟩ := g
  have hl := length_fwdSampleLine ch s
  rw [← fwdSampleLine_getD (by rw [g8]; omega), getD_map_s32,
    getD_eq_of_lt (by simp only [fwdKept, List.length_take, List.length_drop, hl, g8]; omega),
    getD_eq_of_lt (by rw [hl, g8]; omega)]
  simp [fwdKept]

/-! ## `INV` -/

@[simp] theorem length_scaledKernel (tl : Nat) (gm ge : Int) (X : List Int) (sw : Int) :
    (scaledKernel tl gm ge X sw).length = tl := by simp [scaledKernel]

theorem length_blockSamples (tl ptl f r : Nat) (tab C Tc : List Int) :
    (blockSamples tl ptl f r tab C Tc).length = r + f / 2 + f / 2 + (tl / 2 - f / 2) := by
  simp [blockSamples]; omega

theorem length_invBlocks (nspec tl : Nat) (mants scales : List Int) :
    (invBlocks nspec tl mants scales).length = nspec := by simp [invBlocks]

@[simp] theorem length_invInput (s : State) : (invInput s).length = (invOperands s).nspec := by
  simp [invInput, invBlocks]

/-- The working variables after `w` blocks. -/
def invAfter (ch : Chan) (s : State) (w : Nat) : InvWork :=
  ((invInput s).take w).foldl
    (invBlock (invOperands s).tl (invOperands s).fr (invOperands s).gm (invOperands s).ge
      ((slopeTable s (invOperands s).wrs (invOperands s).fr).map s32)) (invStart ch s)

@[simp] theorem invAfter_zero (ch : Chan) (s : State) : invAfter ch s 0 = invStart ch s := rfl

theorem invAfter_succ {ch : Chan} {s : State} {w : Nat} (h : w < (invOperands s).nspec) :
    invAfter ch s (w + 1) =
      invBlock (invOperands s).tl (invOperands s).fr (invOperands s).gm (invOperands s).ge
        ((slopeTable s (invOperands s).wrs (invOperands s).fr).map s32) (invAfter ch s w)
        ((invInput s)[w]'(by simpa using h)) := by
  have h' : w < (invInput s).length := by simpa using h
  simp only [invAfter, List.take_succ_eq_append_getElem h', List.foldl_append, List.foldl_cons,
    List.foldl_nil]

theorem invEnd_eq (ch : Chan) (s : State) : invEnd ch s = invAfter ch s (invOperands s).nspec := by
  rw [invAfter, List.take_of_length_le (by simp)]
  rfl

/-- The geometry that block `w` meets. -/
theorem invAfter_geometry {ch : Chan} {s : State} {w : Nat} (h : w ≤ (invOperands s).nspec) :
    (invAfter ch s w).ptl = (invPrev s ch w).1 ∧ (invAfter ch s w).f = (invPrev s ch w).2.1 ∧
      (invAfter ch s w).r = (invPrev s ch w).2.2 := by
  cases w with
  | zero => simp [invStart, invPrev]
  | succ w => rw [invAfter_succ h]; simp [invBlock, invPrev]

theorem length_invAfter_c {ch : Chan} {s : State} {w : Nat} (h : w ≤ (invOperands s).nspec) :
    (invAfter ch s w).c.length = (invPrev s ch w).1 / 2 := by
  cases w with
  | zero => simp [invStart, invPrev]
  | succ w =>
    rw [invAfter_succ h]
    simp [invBlock, invPrev]
    omega

/-- What the geometry must satisfy for the block loop to produce `P/2 + tl/2` samples a block: every context
that satisfies `CtxInv` and every call that passes R109 does. -/
structure InvGeometry (ch : Chan) (s : State) : Prop where
  fr_even : (invOperands s).fr % 2 = 0
  fr_le : (invOperands s).fr ≤ (invOperands s).tl
  tl_even : (invOperands s).tl % 2 = 0
  pos : 1 ≤ (invOperands s).nspec
  pfr_even : (s.ctx ch).prevFr.toNat % 2 = 0
  pfr_le : (s.ctx ch).prevFr.toNat ≤ (s.ctx ch).prevTl.toNat
  pfr_le_tl : (s.ctx ch).prevFr.toNat ≤ (invOperands s).tl
  ptl_even : (s.ctx ch).prevTl.toNat % 2 = 0
  pnr : (s.ctx ch).prevNr.toNat = ((s.ctx ch).prevTl.toNat - (s.ctx ch).prevFr.toNat) / 2

theorem InvOk.geometry {ch : Chan} {s : State} (hi : s.CtxInv ch (s.ctx ch)) (h : InvOk ch s) :
    InvGeometry ch s := by
  obtain ⟨h1, ⟨h2, -, -⟩, h3, ⟨h4, h5, h6⟩, ⟨h7, -⟩, -⟩ := h
  obtain ⟨⟨a1, -⟩, ⟨a2, a3⟩, a4, -⟩ := hi.2.2.2.2.1 (by rw [h1]; decide)
  exact ⟨h5, h6, h2, h7, a2, a3, by omega, a1, a4⟩

theorem invPrev_spec {ch : Chan} {s : State} (g : InvGeometry ch s) (w : Nat) :
    (invPrev s ch w).1 % 2 = 0 ∧ (invPrev s ch w).2.1 % 2 = 0 ∧
      (invPrev s ch w).2.1 ≤ (invPrev s ch w).1 ∧ (invPrev s ch w).2.1 ≤ (invOperands s).tl ∧
      (invPrev s ch w).2.2 = ((invPrev s ch w).1 - (invPrev s ch w).2.1) / 2 := by
  obtain ⟨g1, g2, g3, g4, g5, g6, g7, g8, g9⟩ := g
  unfold invPrev
  dsimp only
  split
  · exact ⟨g8, g5, g6, g7, g9⟩
  · exact ⟨g3, g1, g2, g2, rfl⟩

/-- How many samples are there after `w` blocks. -/
def invLength (s : State) (ch : Chan) (w : Nat) : Nat :=
  (s.ctx ch).fill.toNat + ∑ v ∈ Finset.range w, invCount s ch v

theorem length_invAfter_q {ch : Chan} {s : State} (g : InvGeometry ch s) {w : Nat}
    (h : w ≤ (invOperands s).nspec) : (invAfter ch s w).q.length = invLength s ch w := by
  induction w with
  | zero => simp [invStart, invLength]
  | succ w ih =>
    have ih := ih (by omega)
    obtain ⟨p1, p2, p3⟩ := invAfter_geometry (ch := ch) (s := s) (w := w) (by omega)
    obtain ⟨q1, q2, q3, q4, q5⟩ := invPrev_spec g w
    rw [invAfter_succ h]
    simp only [invBlock, List.length_append, List.length_map, length_blockSamples, ih, p1, p2, p3,
      invLength, Finset.sum_range_succ, invCount]
    have := g.tl_even
    omega

theorem invLength_succ {s : State} {ch : Chan} (ht : (invOperands s).tl % 2 = 0) (w : Nat) :
    invLength s ch (w + 1) = (s.ctx ch).fill.toNat + invCount s ch 0 + w * (invOperands s).tl := by
  have : ∀ v, invCount s ch (v + 1) = (invOperands s).tl := fun v => by
    simp [invCount, invPrev]; omega
  rw [invLength, Finset.sum_range_succ', Finset.sum_congr rfl fun v _ => this v]
  simp
  omega

/-- All the samples there are once the blocks of the call are done: `total` of R109. -/
theorem invLength_total {ch : Chan} {s : State} (g : InvGeometry ch s) :
    invLength s ch (invOperands s).nspec = invTotal (invOperands s) (s.ctx ch) := by
  obtain ⟨n, hn⟩ : ∃ n, (invOperands s).nspec = n + 1 := ⟨_, (Nat.succ_pred_eq_of_pos g.pos).symm⟩
  rw [hn, invLength_succ g.tl_even, invTotal, hn]
  simp [invCount, invPrev]
  omega

theorem length_invEnd_q {ch : Chan} {s : State} (g : InvGeometry ch s) :
    (invEnd ch s).q.length = invTotal (invOperands s) (s.ctx ch) := by
  rw [invEnd_eq, length_invAfter_q g le_rfl, invLength_total g]

theorem length_invEnd_c {ch : Chan} {s : State} (h : 1 ≤ (invOperands s).nspec) :
    (invEnd ch s).c.length = (invOperands s).tl / 2 := by
  obtain ⟨n, hn⟩ : ∃ n, (invOperands s).nspec = n + 1 := ⟨_, (Nat.succ_pred_eq_of_pos h).symm⟩
  rw [invEnd_eq, length_invAfter_c le_rfl, hn]
  simp [invPrev]

/-! ## The block loop, entry by entry -/

theorem invTab_getD {ch : Chan} {s : State} {w : Nat} (h : w ≤ (invOperands s).nspec) {i : Nat}
    (hi : i < (invPrev s ch w).2.1) : (invAfter ch s w).tab.getD i 0 = invTable s ch w i := by
  cases w with
  | zero =>
    simp only [invAfter_zero, invStart, invTable, if_true]
    exact getD_slopeTable (by simpa [invPrev] using hi)
  | succ w =>
    rw [invAfter_succ h]
    simp only [invBlock, invTable, Nat.succ_ne_zero, if_false]
    exact getD_slopeTable (by simpa [invPrev] using hi)

/-- Block `w` of the input: its mantissas and its scale word. -/
theorem invInput_getElem {s : State} {w : Nat} (h : w < (invOperands s).nspec) :
    (invInput s)[w]'(by simpa using h) =
      ((List.range (invOperands s).tl).map (invX s w), s32 (s.wordAt .dm ((invOperands s).scl + w))) := by
  have hb : (w + 1) * (invOperands s).tl ≤ (invOperands s).nspec * (invOperands s).tl :=
    Nat.mul_le_mul_right _ h
  have hb' : w * (invOperands s).tl + (invOperands s).tl ≤ (invOperands s).nspec * (invOperands s).tl := by
    rwa [Nat.succ_mul] at hb
  simp only [invInput, invBlocks, List.getElem_map, List.getElem_range, Prod.mk.injEq]
  constructor
  · apply List.ext_getElem
    · simp; omega
    · intro i h1 h2
      simp [invX, Nat.add_assoc]
  · rw [getD_map_s32]
    simp [h]

/-- The scaled kernel of block `w` (R113), entry by entry. -/
theorem scaledKernel_getElem {s : State} {w k : Nat} (hk : k < (invOperands s).tl) :
    (scaledKernel (invOperands s).tl (invOperands s).gm (invOperands s).ge
      ((List.range (invOperands s).tl).map (invX s w)) (s32 (s.wordAt .dm ((invOperands s).scl + w))))[k]'
      (by simpa using hk) = satPair (invTcRaw s w k) := by
  simp only [scaledKernel, List.getElem_map, kernel_getElem (N := (invOperands s).tl)
    (a := (List.range (invOperands s).tl).map (invX s w)) (by simp) hk, satShift_eq]
  congr 2
  unfold kernelSum
  congr 1
  refine Finset.sum_congr rfl fun n hn => ?_
  simp [Finset.mem_range.1 hn]

theorem scaledKernel_getD {s : State} {w k : Nat} (hk : k < (invOperands s).tl) :
    ((scaledKernel (invOperands s).tl (invOperands s).gm (invOperands s).ge
      ((List.range (invOperands s).tl).map (invX s w))
      (s32 (s.wordAt .dm ((invOperands s).scl + w)))).map Prod.fst).getD k 0 = invTc s w k := by
  rw [getD_eq_of_lt (by simpa using hk), List.getElem_map, scaledKernel_getElem hk]
  rfl

theorem invCarry_getD {ch : Chan} {s : State} {w : Nat} (h : w ≤ (invOperands s).nspec) {i : Nat}
    (hi : i < (invPrev s ch w).1 / 2) : (invAfter ch s w).c.getD i 0 = invCarry s ch w i := by
  cases w with
  | zero =>
    simp only [invPrev, if_true] at hi
    simp only [invAfter_zero, invStart, invCarry, if_true]
    rw [getD_map_s32]
    simp [hi]
  | succ w =>
    simp only [invPrev, Nat.succ_ne_zero, if_false] at hi
    rw [invAfter_succ h]
    simp only [invBlock, invCarry, Nat.succ_ne_zero, if_false, Nat.add_sub_cancel, invInput_getElem h]
    rw [getD_eq_of_lt (by simp; omega), List.getElem_take, ← getD_eq_of_lt (d := 0),
      scaledKernel_getD (by omega)]

/-- Sample `i` of R114 over any carry `C`, slope table `t` and scaled kernel `Tc`. -/
def rawSample (tl P f r : Nat) (t C Tc : Nat → Int) (i : Nat) : Int :=
  if i < r then -C (P / 2 - 1 - i) * 2 ^ HR
  else if i < r + f / 2 then
    rshr (-C (f / 2 - 1 - (i - r)) * t (f - 1 - (i - r)) + Tc (tl - f / 2 + (i - r)) * t (i - r)) (31 - HR)
  else if i < r + f / 2 + f / 2 then
    rshr (-C (i - r - f / 2) * t (f / 2 - 1 - (i - r - f / 2)) -
      Tc (tl - 1 - (i - r - f / 2)) * t (f / 2 + (i - r - f / 2))) (31 - HR)
  else (-Tc (tl - 1 - (i - r - f / 2))) * 2 ^ HR

theorem invSampleRaw_eq (s : State) (ch : Chan) (w i : Nat) :
    invSampleRaw s ch w i = rawSample (invOperands s).tl (invPrev s ch w).1 (invPrev s ch w).2.1
      (invPrev s ch w).2.2 (invTable s ch w) (invCarry s ch w) (invTc s w) i := rfl

theorem blockSamples_getElem (tl P f r : Nat) (tab C Tc : List Int) (i : Nat)
    (h : i < (blockSamples tl P f r tab C Tc).length) :
    (blockSamples tl P f r tab C Tc)[i] =
      satPair (rawSample tl P f r (tab.getD · 0) (C.getD · 0) (Tc.getD · 0) i) := by
  simp only [blockSamples, rawSample, List.getElem_append, List.getElem_map, List.getElem_range,
    List.length_append, List.length_map, List.length_range]
  split_ifs <;> first
    | rfl
    | omega
    | (rw [show i - (r + f / 2) = i - r - f / 2 by omega])
    | (rw [show f / 2 + (i - (r + f / 2 + f / 2)) = i - r - f / 2 by omega])

theorem rawSample_congr {tl P f r : Nat} {t t' C C' Tc Tc' : Nat → Int} {i : Nat}
    (hf : f % 2 = 0) (hfP : f ≤ P) (hft : f ≤ tl) (hr : r = (P - f) / 2) (hi : i < P / 2 + tl / 2)
    (ht : ∀ j < f, t j = t' j) (hC : ∀ j < P / 2, C j = C' j) (hT : ∀ j < tl, Tc j = Tc' j) :
    rawSample tl P f r t C Tc i = rawSample tl P f r t' C' Tc' i := by
  unfold rawSample
  split_ifs with h1 h2 h3
  · rw [hC _ (by omega)]
  · rw [hC _ (by omega), ht _ (by omega), ht _ (by omega), hT _ (by omega)]
  · rw [hC _ (by omega), ht _ (by omega), ht _ (by omega), hT _ (by omega)]
  · rw [hT _ (by omega)]

/-- The samples that block `w` adds, with the flags of their `sat32`. -/
def invNews (ch : Chan) (s : State) (w : Nat) : List (Int × Bool) :=
  (List.range (invCount s ch w)).map fun i => satPair (invSampleRaw s ch w i)

/-- The scaled kernel of block `w`, with the flags of its `sat32`. -/
def invKernel (s : State) (w : Nat) : List (Int × Bool) :=
  (List.range (invOperands s).tl).map fun k => satPair (invTcRaw s w k)

/-- One turn of the block loop: what it adds to the samples and to the flag. -/
theorem invAfter_turn {ch : Chan} {s : State} (g : InvGeometry ch s) {w : Nat}
    (h : w < (invOperands s).nspec) :
    (invAfter ch s (w + 1)).q = (invAfter ch s w).q ++ (invNews ch s w).map Prod.fst ∧
    (invAfter ch s (w + 1)).sat =
      ((invAfter ch s w).sat || (invKernel s w).any Prod.snd || (invNews ch s w).any Prod.snd) := by
  have hk : scaledKernel (invOperands s).tl (invOperands s).gm (invOperands s).ge
      ((List.range (invOperands s).tl).map (invX s w)) (s32 (s.wordAt .dm ((invOperands s).scl + w))) =
      invKernel s w := by
    refine List.ext_getElem (by simp [invKernel]) fun k h1 h2 => ?_
    rw [scaledKernel_getElem (by simpa using h1)]
    simp [invKernel]
  have hT : ∀ j < (invOperands s).tl, ((invKernel s w).map Prod.fst).getD j 0 = invTc s w j := by
    intro j hj
    rw [← hk]; exact scaledKernel_getD hj
  obtain ⟨p1, p2, p3⟩ := invAfter_geometry (ch := ch) (s := s) (w := w) (by omega)
  obtain ⟨q1, q2, q3, q4, q5⟩ := invPrev_spec g w
  have ht := g.tl_even
  have hb : blockSamples (invOperands s).tl (invAfter ch s w).ptl (invAfter ch s w).f
      (invAfter ch s w).r (invAfter ch s w).tab (invAfter ch s w).c ((invKernel s w).map Prod.fst) =
      invNews ch s w := by
    have hl : (invNews ch s w).length = invCount s ch w := by simp [invNews]
    refine List.ext_getElem ?_ fun i h1 h2 => ?_
    · rw [length_blockSamples, hl, p2, p3, invCount]; omega
    · rw [hl, invCount] at h2
      rw [blockSamples_getElem, p1, p2, p3]
      simp only [invNews, List.getElem_map, List.getElem_range, invSampleRaw_eq]
      rw [rawSample_congr q2 q3 q4 q5 h2 (fun j hj => invTab_getD (by omega) hj)
        (fun j hj => invCarry_getD (by omega) hj) hT]
  rw [invAfter_succ h, invInput_getElem h]
  simp only [invBlock, hk, hb, and_self]

/-- Entry `j` of the samples after `w` blocks (R111 to R114). -/
theorem invAfter_q_getD {ch : Chan} {s : State} (g : InvGeometry ch s) {w : Nat}
    (h : w ≤ (invOperands s).nspec) {j : Nat} (hj : j < invLength s ch w) :
    (invAfter ch s w).q.getD j 0 = invQ s ch j := by
  induction w with
  | zero =>
    have hj' : j < (s.ctx ch).fill.toNat := by simpa [invLength] using hj
    simp only [invAfter_zero, invStart, invQ, hj', if_true]
    rw [getD_map_s32]
    simp [hj']
  | succ w ih =>
    have ih := ih (by omega)
    have hl := length_invAfter_q g (w := w) (by omega)
    rw [(invAfter_turn g h).1]
    by_cases hlt : j < invLength s ch w
    · rw [← ih hlt, getD_eq_of_lt (by simp; omega), List.getElem_append_left (by omega),
        ← getD_eq_of_lt]
    · have hs : invLength s ch (w + 1) = invLength s ch w + invCount s ch w := by
        simp [invLength, Finset.sum_range_succ, Nat.add_assoc]
      have hw : (s.ctx ch).fill.toNat ≤ invLength s ch w := by simp [invLength]
      rw [getD_eq_of_lt (by simp [hl, invNews]; omega), List.getElem_append_right (by omega)]
      simp only [invNews, List.getElem_map, List.getElem_range, hl, satPair_fst]
      rw [invQ, if_neg (by omega)]
      have hp : invPlace s ch (j - (s.ctx ch).fill.toNat) = (w, j - invLength s ch w) := by
        unfold invPlace
        dsimp only
        cases w with
        | zero =>
          rw [if_pos (by simp [invLength] at hs hj; omega)]
          simp [invLength]
        | succ v =>
          have hv := invLength_succ (ch := ch) g.tl_even v
          have hc : invCount s ch (v + 1) = (invOperands s).tl := by
            have := g.tl_even
            simp [invCount, invPrev]; omega
          have htp : 0 < (invOperands s).tl := by omega
          rw [if_neg (by omega)]
          have e : j - (s.ctx ch).fill.toNat - invCount s ch 0 =
              (j - invLength s ch (v + 1)) + (invOperands s).tl * v := by
            rw [Nat.mul_comm]; omega
          rw [e, Nat.add_mul_div_left _ _ htp, Nat.add_mul_mod_self_left, Nat.div_eq_of_lt (by omega),
            Nat.mod_eq_of_lt (by omega)]
          simp; omega
      rw [hp]

/-- The samples `INV` has at the end (R112). -/
theorem invEnd_q_getD {ch : Chan} {s : State} (g : InvGeometry ch s) {j : Nat}
    (hj : j < invTotal (invOperands s) (s.ctx ch)) : (invEnd ch s).q.getD j 0 = invQ s ch j := by
  rw [invEnd_eq]
  exact invAfter_q_getD g le_rfl (by rwa [invLength_total g])

/-- The carry `INV` leaves (R116). -/
theorem invEnd_c_getD {ch : Chan} {s : State} (h : 1 ≤ (invOperands s).nspec) {i : Nat}
    (hi : i < (invOperands s).tl / 2) :
    (invEnd ch s).c.getD i 0 = invTc s ((invOperands s).nspec - 1) i := by
  obtain ⟨n, hn⟩ : ∃ n, (invOperands s).nspec = n + 1 := ⟨_, (Nat.succ_pred_eq_of_pos h).symm⟩
  rw [invEnd_eq, invCarry_getD le_rfl (by rw [hn]; simpa [invPrev] using hi), hn]
  simp [invCarry]

theorem any_satPair (n : Nat) (f : Nat → Int) :
    ((List.range n).map fun i => satPair (f i)).any Prod.snd = true ↔ ∃ i < n, saturates (f i) = true := by
  simp [satPair]

/-- The flag `INV` raises (R72): some `sat32` clamped. -/
theorem invEnd_sat {ch : Chan} {s : State} (g : InvGeometry ch s) :
    (invEnd ch s).sat = true ↔ InvClamps s ch := by
  have key : ∀ w ≤ (invOperands s).nspec, (invAfter ch s w).sat = true ↔
      ∃ v < w, (∃ k < (invOperands s).tl, saturates (invTcRaw s v k) = true) ∨
        (∃ i < invCount s ch v, saturates (invSampleRaw s ch v i) = true) := by
    intro w h
    induction w with
    | zero => simp [invStart]
    | succ w ih =>
      rw [(invAfter_turn g h).2]
      rw [Nat.exists_lt_succ_right, Bool.or_eq_true, Bool.or_eq_true, ih (by omega), invKernel, invNews,
        any_satPair, any_satPair, or_assoc]
  rw [invEnd_eq]
  exact key _ le_rfl

end Sys2Proof.Machine
end

