-- ==== Sys2Proof/Laws/Results.lean ====
section
/-! SUPPORT. For every command: its checks pass exactly when its `…Ok` condition of Safety.lean holds, and the
command then completes in the state its effect builds; and, for every command, everything it can do. -/

namespace Sys2Proof.Machine

theorem badTl_eq_false {tl bound : Nat} : badTl tl bound = false ↔ LegalTl tl bound := by
  simp only [badTl, decide_eq_false_iff_not, LegalTl]; omega

theorem badTl_eq_true {tl bound : Nat} : badTl tl bound = true ↔ ¬ LegalTl tl bound := by
  simp only [badTl, decide_eq_true_eq, LegalTl]; omega

/-! ## Checks -/

theorem initChecks_pass {ch : Chan} {s : State} :
    firstFailure (initChecks ch s) = none ↔ InitOk ch s := by
  simp only [firstFailure_eq_none, initChecks, List.forall_mem_cons, List.not_mem_nil, IsEmpty.forall_iff,
    implies_true, and_true, badTl_eq_false, decide_eq_false_iff_not, not_not, InitOk, not_lt]

theorem ctxldChecks_pass {ch : Chan} {s : State} :
    firstFailure (ctxldChecks ch s) = none ↔ s.CtxInv ch (ctxldImage s) := by
  simp only [firstFailure_eq_none, ctxldChecks, List.forall_mem_cons, List.not_mem_nil, IsEmpty.forall_iff,
    implies_true, and_true, decide_eq_false_iff_not, not_not]

theorem gainChecks_pass {s : State} :
    firstFailure (gainChecks s) = none ↔ LegalTl (s.uarg 2) s.cfg.tlMax := by
  simp only [firstFailure_eq_none, gainChecks, List.forall_mem_cons, List.not_mem_nil, IsEmpty.forall_iff,
    implies_true, and_true, badTl_eq_false, gainOperand]

theorem fwdChecks_pass {ch : Chan} {s : State} :
    firstFailure (fwdChecks ch s) = none ↔ FwdOk ch s := by
  simp only [firstFailure_eq_none, fwdChecks, List.forall_mem_cons, List.not_mem_nil, IsEmpty.forall_iff,
    implies_true, and_true, badTl_eq_false, decide_eq_false_iff_not, FwdOk, ne_eq, not_or, not_lt, not_not]
  simp only [Nat.mod_two_not_eq_one]

theorem adaptChecks_pass {ch : Chan} {s : State} :
    firstFailure (adaptChecks ch s) = none ↔ AdaptOk ch s := by
  simp only [firstFailure_eq_none, adaptChecks, List.forall_mem_cons, List.not_mem_nil, IsEmpty.forall_iff,
    implies_true, and_true, badTl_eq_false, decide_eq_false_iff_not, AdaptOk, ne_eq, LegalTl]
  generalize ((s.ctx ch).dir = .fwd) = p
  generalize ((s.ctx ch).dir = .none) = q
  by_cases hq : q
  · simp only [hq, true_and, forall_const]
    constructor <;> rintro ⟨hp, h⟩ <;> exact ⟨hp, by omega⟩
  · simp only [hq, false_and, not_false_eq_true, true_and, IsEmpty.forall_iff]
    constructor <;> rintro ⟨hp, h⟩ <;> exact ⟨hp, by omega⟩

theorem invChecks_pass {ch : Chan} {s : State} :
    firstFailure (invChecks ch s) = none ↔ InvOk ch s := by
  simp only [firstFailure_eq_none, invChecks, List.forall_mem_cons, List.not_mem_nil, IsEmpty.forall_iff,
    implies_true, and_true, badTl_eq_false, decide_eq_false_iff_not, InvOk, ne_eq, not_or, not_lt, not_not,
    not_le]
  simp only [Nat.mod_two_not_eq_one]

theorem drainChecks_pass {ch : Chan} {s : State} :
    firstFailure (drainChecks ch s) = none ↔ DrainOk ch s := by
  simp only [firstFailure_eq_none, drainChecks, List.forall_mem_cons, List.not_mem_nil, IsEmpty.forall_iff,
    implies_true, and_true, decide_eq_false_iff_not, DrainOk, ne_eq, not_lt, not_not, not_le]

theorem peekChecks_pass {ch : Chan} {s : State} :
    firstFailure (peekChecks ch s) = none ↔ PeekOk ch s := by
  simp only [firstFailure_eq_none, peekChecks, List.forall_mem_cons, List.not_mem_nil, IsEmpty.forall_iff,
    implies_true, and_true, decide_eq_false_iff_not, PeekOk, ne_eq, not_lt, not_not, not_le]

theorem rcinitChecks_pass {s : State} : firstFailure (rcinitChecks s) = none ↔ RcinitOk s := by
  simp only [firstFailure_eq_none, rcinitChecks, List.forall_mem_cons, List.not_mem_nil, IsEmpty.forall_iff,
    implies_true, and_true, decide_eq_false_iff_not, RcinitOk, not_or, not_lt, not_not, not_le]

theorem rcallowChecks_pass {m : Bool} {s : State} :
    firstFailure (rcallowChecks m s) = none ↔ s.rc.valid = true ∧ budgetOperand m s < countLimit := by
  simp only [firstFailure_eq_none, rcallowChecks, List.forall_mem_cons, List.not_mem_nil, IsEmpty.forall_iff,
    implies_true, and_true, decide_eq_false_iff_not, not_le, Bool.not_eq_false]

theorem rcupdChecks_pass {m : Bool} {s : State} :
    firstFailure (rcupdChecks m s) = none ↔
      s.rc.valid = true ∧ budgetOperand m s < countLimit ∧ actualOperand s < countLimit := by
  simp only [firstFailure_eq_none, rcupdChecks, List.forall_mem_cons, List.not_mem_nil, IsEmpty.forall_iff,
    implies_true, and_true, decide_eq_false_iff_not, not_or, not_le, Bool.not_eq_false]

/-! ## The effect answers when the checks pass -/

theorem initEffect_of_pass {ch : Chan} {s : State} (h : InitOk ch s) :
    initEffect ch s = .ok (initState ch s, .ok) := initEffect_eq h.2.2.1

theorem fwdEffect_of_pass {ch : Chan} {s : State} (hi : s.CtxInv ch (s.ctx ch)) (h : FwdOk ch s) :
    fwdEffect ch s = .ok (fwdState ch s, .ok) := by
  have g := h.geometry hi
  obtain ⟨h1, ⟨h2, -, h3⟩, ⟨h4, h5, h6, h7⟩, -, h8, h9, h10⟩ := h
  have hk := length_fwdKept hi h1 h5
  obtain ⟨⟨a1, -, a2⟩, ⟨b1, b2, -⟩, c, d, e, f, -⟩ := hi
  have hp : (s.ctx ch).prevWrs.toNat + (s.ctx ch).prevFr.toNat ≤ s.cfg.wmWords := by
    by_cases hn : (s.ctx ch).dir = .none
    · obtain ⟨-, x1, -, -, x2⟩ := d hn
      simp [x1, x2]
    · exact (e hn).2.2.2
  have := g.fill
  refine fwdEffect_eq ?_ h9 hp h8 (by rw [length_fwdSpectrum]; exact h10) ?_ <;> omega

theorem invEffect_of_pass {ch : Chan} {s : State} (hi : s.CtxInv ch (s.ctx ch)) (h : InvOk ch s) :
    invEffect ch s = .ok (invState ch s, .ok) := by
  have g := h.geometry hi
  have hq := length_invEnd_q g
  have hc := length_invEnd_c (ch := ch) (s := s) g.pos
  obtain ⟨h1, ⟨h2, -, h3⟩, h4, h5, h6, h7, ⟨h8, h9⟩, h10, h11⟩ := h
  have hn : (s.ctx ch).dir ≠ .none := by rw [h1]; decide
  obtain ⟨a, ⟨b1, b2, -⟩, c, d, e, f, k⟩ := hi
  obtain ⟨-, -, -, e4⟩ := e hn
  have k := k h1
  have hle : invDelivered (invOperands s) (s.ctx ch) ≤ invTotal (invOperands s) (s.ctx ch) := min_le_right _ _
  have htk : ((invEnd ch s).q.take (invDelivered (invOperands s) (s.ctx ch))).length =
      invDelivered (invOperands s) (s.ctx ch) := by rw [List.length_take, hq]; omega
  have hdr : ((invEnd ch s).q.drop (invDelivered (invOperands s) (s.ctx ch))).length =
      invTotal (invOperands s) (s.ctx ch) - invDelivered (invOperands s) (s.ctx ch) := by
    rw [List.length_drop, hq]
  have : (invOperands s).tl / 2 ≤ (s.ctx ch).ovSize.toNat := by omega
  exact invEffect_eq (by omega) (by omega) h8 h9 e4 h7 (by rw [htk]; exact h10) (by rw [hdr]; omega)
    (by rw [hc]; omega)

theorem drainEffect_of_pass {ch : Chan} {s : State} (hi : s.CtxInv ch (s.ctx ch)) (h : DrainOk ch s) :
    drainEffect ch s = .ok (drainState ch s, .ok) := by
  obtain ⟨a, ⟨b1, b2, -⟩, c, d, e, f, k⟩ := hi
  have k := k h.1
  exact drainEffect_eq h.2.2 (by omega)

theorem peekEffect_of_pass {ch : Chan} {s : State} (hi : s.CtxInv ch (s.ctx ch)) (h : PeekOk ch s) :
    peekEffect ch s = .ok (peekState ch s, .ok) := by
  obtain ⟨a, ⟨b1, b2, -⟩, c, d, e, f, k⟩ := hi
  have hn : (s.ctx ch).dir ≠ .none := by rw [h.1]; decide
  obtain ⟨e1, e2, e3, -⟩ := e hn
  have k := k h.1
  have : peekCount ch s ≤ (s.ctx ch).fill.toNat + (s.ctx ch).prevNr.toNat := min_le_right _ _
  exact peekEffect_eq h.2.2 (by omega) (by omega) b2

/-! ## The command completes -/

theorem execNop_eq {s : State} (hf : s.status.fatal = false) :
    execNop s = .next (finish 0x00#8 0#4 .ok (s.setRet 0#32)) := by
  rw [execNop, runGlobal_ready hf]
  exact runRule_ok rfl rfl

theorem execInit_eq {ch : Chan} {s : State} (hr : ChannelReady ch s) (h : InitOk ch s) :
    execInit ch s = .next (finish 0x10#8 (BitVec.ofFin ch) .ok (initState ch s)) := by
  rw [execInit, runChannel_ready hr.1 hr.2]
  exact runRule_ok (initChecks_pass.2 h) (initEffect_of_pass h)

theorem execFree_eq {ch : Chan} {s : State} (hr : ChannelReady ch s) :
    execFree ch s = .next (finish 0x11#8 (BitVec.ofFin ch) .ok ((s.setCtx ch Ctx.blank).setRet 0#32)) := by
  rw [execFree, runChannel_ready hr.1 hr.2]
  exact runRule_ok rfl rfl

theorem execCtxld_eq {ch : Chan} {s : State} (hr : ChannelReady ch s) (h : s.CtxInv ch (ctxldImage s)) :
    execCtxld ch s =
      .next (finish 0x12#8 (BitVec.ofFin ch) .ok ((s.setCtx ch (ctxldImage s)).setRet 0#32)) := by
  rw [execCtxld, runChannel_ready hr.1 hr.2]
  exact runRule_ok (ctxldChecks_pass.2 h) rfl

theorem execGain_eq {s : State} (hf : s.status.fatal = false) (h : LegalTl (s.uarg 2) s.cfg.tlMax) :
    execGain s = .next (finish 0x19#8 0#4 .ok
      (((s.setArg 0 (w32n (gainMantissa (s.uarg 2)))).setArg 1
        (w32 (gainExponent (s.uarg 2) s.cfg.outGainE))).setRet 0#32)) := by
  rw [execGain, runGlobal_ready hf]
  exact runRule_ok (gainChecks_pass.2 h) rfl

theorem execFwd_eq {ch : Chan} {s : State} (hr : ContextReady ch s) (h : FwdOk ch s) :
    execFwd ch s = .next (finish 0x14#8 (BitVec.ofFin ch) .ok (fwdState ch s)) := by
  obtain ⟨⟨h1, h2⟩, h3, h4⟩ := hr
  rw [execFwd, runContext_ready h1 h2 h3 h4]
  exact runRule_ok (fwdChecks_pass.2 h) (fwdEffect_of_pass h4 h)

/-- The state after `ADAPT`. -/
def adaptState (ch : Chan) (s : State) : State :=
  (((s.setCtx ch (adaptCase s (s.ctx ch)).1).setArg 0
    (w32n (adaptCase s (s.ctx ch)).2.1)).setArg 1
    (w32n (((adaptOperands s).tl - (adaptCase s (s.ctx ch)).2.1) / 2))).setRet
    (w32n (adaptCase s (s.ctx ch)).2.2)

theorem execAdapt_eq {ch : Chan} {s : State} (hr : ContextReady ch s) (h : AdaptOk ch s) :
    execAdapt ch s = .next (finish 0x18#8 (BitVec.ofFin ch) .ok (adaptState ch s)) := by
  obtain ⟨⟨h1, h2⟩, h3, h4⟩ := hr
  rw [execAdapt, runContext_ready h1 h2 h3 h4]
  exact runRule_ok (adaptChecks_pass.2 h) rfl

theorem execInv_eq {ch : Chan} {s : State} (hr : ContextReady ch s) (h : InvOk ch s) :
    execInv ch s = .next (finish 0x1A#8 (BitVec.ofFin ch) .ok (invState ch s)) := by
  obtain ⟨⟨h1, h2⟩, h3, h4⟩ := hr
  rw [execInv, runContext_ready h1 h2 h3 h4]
  exact runRule_ok (invChecks_pass.2 h) (invEffect_of_pass h4 h)

theorem execDrain_eq {ch : Chan} {s : State} (hr : ContextReady ch s) (h : DrainOk ch s) :
    execDrain ch s = .next (finish 0x1B#8 (BitVec.ofFin ch) .ok (drainState ch s)) := by
  obtain ⟨⟨h1, h2⟩, h3, h4⟩ := hr
  rw [execDrain, runContext_ready h1 h2 h3 h4]
  exact runRule_ok (drainChecks_pass.2 h) (drainEffect_of_pass h4 h)

theorem execPeek_eq {ch : Chan} {s : State} (hr : ContextReady ch s) (h : PeekOk ch s) :
    execPeek ch s = .next (finish 0x1C#8 (BitVec.ofFin ch) .ok (peekState ch s)) := by
  obtain ⟨⟨h1, h2⟩, h3, h4⟩ := hr
  rw [execPeek, runContext_ready h1 h2 h3 h4]
  exact runRule_ok (peekChecks_pass.2 h) (peekEffect_of_pass h4 h)

/-- The state after `RCINIT`. -/
def rcinitState (s : State) : State :=
  (s.setRc
    { valid := true, level := s.arg 5, size := s.arg 0, min := s.arg 1, max := s.arg 2, avg := s.arg 3,
      borrow := s.arg 4 }).setRet (s.arg 5)

theorem execRcinit_eq {s : State} (hf : s.status.fatal = false) (h : RcinitOk s) :
    execRcinit s = .next (finish 0x20#8 0#4 .ok (rcinitState s)) := by
  rw [execRcinit, runGlobal_ready hf]
  exact runRule_ok (rcinitChecks_pass.2 h) rfl

theorem execRcallow_eq {m : Bool} {s : State} (hf : s.status.fatal = false) (hv : s.rc.valid = true)
    (hb : budgetOperand m s < countLimit) :
    execRcallow m s = .next (finish 0x21#8 0#4 .ok
      (s.setRet (w32 (allowedBits s.rc (budgetOperand m s))))) := by
  rw [execRcallow, runGlobal_ready hf]
  exact runRule_ok (rcallowChecks_pass.2 ⟨hv, hb⟩) rfl

/-- The state after `RCUPD`. -/
def rcupdState (m : Bool) (s : State) : State :=
  (((s.setRc { s.rc with level := (rcupdOutcome (rcupdLevel m s) s.rc s.flags).1 }).setFlags
    (rcupdOutcome (rcupdLevel m s) s.rc s.flags).2.1).setArg 2
    (w32n (rcupdOutcome (rcupdLevel m s) s.rc s.flags).2.2.1)).setRet
    (rcupdOutcome (rcupdLevel m s) s.rc s.flags).1

theorem execRcupd_eq {m : Bool} {s : State} (hf : s.status.fatal = false) (hv : s.rc.valid = true)
    (hb : budgetOperand m s < countLimit) (ha : actualOperand s < countLimit) :
    execRcupd m s = .next (finish 0x22#8 0#4 (rcupdOutcome (rcupdLevel m s) s.rc s.flags).2.2.2
      (rcupdState m s)) := by
  rw [execRcupd, runGlobal_ready hf]
  exact runRule_ok (rcupdChecks_pass.2 ⟨hv, hb, ha⟩) rfl

end Sys2Proof.Machine
end

