-- ==== Sys2Proof/Laws/Cases.lean ====
section
/-! SUPPORT. Everything a command can do, said once: it is refused, it enters the fatal state, or it runs its own
rule. Every statement about all commands starts from `exec_cases` or `complete_cases`. -/

namespace Sys2Proof.Machine

/-- What the own rule of command `i` makes of state `s`: the state `u` and the code `c`, with the conditions
under which it runs. -/
def EffectOf (i : Instr) (s u : State) (c : Code) : Prop :=
  match i with
  | .nop => c = .ok ∧ u = s.setRet 0#32
  | .init ch => c = .ok ∧ u = initState ch s ∧ InitOk ch s ∧ ChannelReady ch s
  | .free ch => c = .ok ∧ u = (s.setCtx ch Ctx.blank).setRet 0#32 ∧ ChannelReady ch s
  | .ctxld ch =>
    c = .ok ∧ u = (s.setCtx ch (ctxldImage s)).setRet 0#32 ∧ s.CtxInv ch (ctxldImage s) ∧ ChannelReady ch s
  | .fwd ch => c = .ok ∧ u = fwdState ch s ∧ ContextReady ch s ∧ FwdOk ch s
  | .adapt ch => c = .ok ∧ u = adaptState ch s ∧ ContextReady ch s ∧ AdaptOk ch s
  | .gain =>
    c = .ok ∧ u = ((s.setArg 0 (w32n (gainMantissa (s.uarg 2)))).setArg 1
      (w32 (gainExponent (s.uarg 2) s.cfg.outGainE))).setRet 0#32
  | .inv ch => c = .ok ∧ u = invState ch s ∧ ContextReady ch s ∧ InvOk ch s
  | .drain ch => c = .ok ∧ u = drainState ch s ∧ ContextReady ch s ∧ DrainOk ch s
  | .peek ch => c = .ok ∧ u = peekState ch s ∧ ContextReady ch s ∧ PeekOk ch s
  | .rcinit => c = .ok ∧ u = rcinitState s ∧ RcinitOk s
  | .rcallow m => c = .ok ∧ u = s.setRet (w32 (allowedBits s.rc (budgetOperand m s)))
  | .rcupd m =>
    c = (rcupdOutcome (rcupdLevel m s) s.rc s.flags).2.2.2 ∧ u = rcupdState m s ∧ s.rc.valid = true

/-- Some bound context violates `CtxInv` (R56 step 5). -/
def State.Broken (s : State) : Prop :=
  ∃ ch : Chan, ch.val < s.cfg.nch ∧ (s.ctx ch).valid = true ∧ ¬ s.CtxInv ch (s.ctx ch)

/-- What `exec_cases` says of a command `i` that answers `t`. -/
def CommandCases (i : Instr) (s t : State) : Prop :=
  (∃ c, c.isRefusal = true ∧ c ∈ possibleCodes i ∧ t = refuse (opcode i) (chanBits i) c s) ∨
  (s.status.fatal = false ∧ Code.eInternal ∈ possibleCodes i ∧ t = enterFatal (opcode i) (chanBits i) s ∧
    s.Broken) ∨
  (s.status.fatal = false ∧ ∃ u c, EffectOf i s u c ∧ c ∈ possibleCodes i ∧ c.isRefusal = false ∧
    c ≠ .eInternal ∧ t = finish (opcode i) (chanBits i) c u)

/-- The codes of a list of checks are refusals that command `i` may end with. -/
def CodesOk (i : Instr) (l : List Check) : Prop := ∀ x ∈ l, x.2.isRefusal = true ∧ x.2 ∈ possibleCodes i

variable {i : Instr} {s t : State} {checks : State → List Check}
  {effect : State → Except Fault (State × Code)}

theorem rule_cases (hf : s.status.fatal = false) (hc : CodesOk i (checks s))
    (he : ∀ u c, firstFailure (checks s) = none → effect s = .ok (u, c) →
      EffectOf i s u c ∧ c ∈ possibleCodes i ∧ c.isRefusal = false ∧ c ≠ .eInternal)
    (h : runRule (opcode i) (chanBits i) checks effect s = .next t) : CommandCases i s t := by
  rcases runRule_next h with ⟨c, h1, rfl⟩ | ⟨h1, u, c, h2, rfl⟩
  · obtain ⟨x, hx, -, rfl⟩ := firstFailure_mem h1
    exact .inl ⟨_, (hc x hx).1, (hc x hx).2, rfl⟩
  · obtain ⟨a, b, c', d⟩ := he u c h1 h2
    exact .inr (.inr ⟨hf, u, c, a, b, c', d, rfl⟩)

theorem global_cases (hp : .eFatal ∈ possibleCodes i) (hb : chanBits i = 0#4)
    (hc : CodesOk i (checks s))
    (he : ∀ u c, firstFailure (checks s) = none → effect s = .ok (u, c) →
      EffectOf i s u c ∧ c ∈ possibleCodes i ∧ c.isRefusal = false ∧ c ≠ .eInternal)
    (h : runGlobal (opcode i) checks effect s = .next t) : CommandCases i s t := by
  rcases runGlobal_next h with ⟨-, rfl⟩ | ⟨hf, h⟩
  · exact .inl ⟨_, rfl, hp, by rw [hb]⟩
  · exact rule_cases hf hc he (by rw [hb]; exact h)

theorem channel_cases {ch : Chan} (hp : .eFatal ∈ possibleCodes i ∧ .eIllfld ∈ possibleCodes i)
    (hb : chanBits i = BitVec.ofFin ch) (hc : CodesOk i (checks s))
    (he : ChannelReady ch s → ∀ u c, firstFailure (checks s) = none → effect s = .ok (u, c) →
      EffectOf i s u c ∧ c ∈ possibleCodes i ∧ c.isRefusal = false ∧ c ≠ .eInternal)
    (h : runChannel (opcode i) ch checks effect s = .next t) : CommandCases i s t := by
  rcases runChannel_next h with ⟨-, rfl⟩ | ⟨-, -, rfl⟩ | ⟨hf, hn, h⟩
  · exact .inl ⟨_, rfl, hp.1, by rw [hb]⟩
  · exact .inl ⟨_, rfl, hp.2, by rw [hb]⟩
  · exact rule_cases hf hc (he ⟨hf, hn⟩) (by rw [hb]; exact h)

theorem context_cases {ch : Chan}
    (hp : .eFatal ∈ possibleCodes i ∧ .eIllfld ∈ possibleCodes i ∧ .eNoctx ∈ possibleCodes i ∧
      .eInternal ∈ possibleCodes i)
    (hb : chanBits i = BitVec.ofFin ch) (hc : CodesOk i (checks s))
    (he : ContextReady ch s → ∀ u c, firstFailure (checks s) = none → effect s = .ok (u, c) →
      EffectOf i s u c ∧ c ∈ possibleCodes i ∧ c.isRefusal = false ∧ c ≠ .eInternal)
    (h : runContext (opcode i) ch checks effect s = .next t) : CommandCases i s t := by
  rcases runContext_next h with ⟨-, rfl⟩ | ⟨-, -, rfl⟩ | ⟨-, -, -, rfl⟩ | ⟨hf, hn, hv, hi, rfl⟩ |
    ⟨hf, hn, hv, hi, h⟩
  · exact .inl ⟨_, rfl, hp.1, by rw [hb]⟩
  · exact .inl ⟨_, rfl, hp.2.1, by rw [hb]⟩
  · exact .inl ⟨_, rfl, hp.2.2.1, by rw [hb]⟩
  · exact .inr (.inl ⟨hf, hp.2.2.2, by rw [hb], ch, hn, hv, hi⟩)
  · exact rule_cases hf hc (he ⟨⟨hf, hn⟩, hv, hi⟩) (by rw [hb]; exact h)

/-- Everything a command can do when it answers a next state. -/
theorem exec_cases (h : exec i s = .next t) : CommandCases i s t := by
  cases i with
  | nop =>
    refine global_cases (by simp [possibleCodes]) rfl (by simp [CodesOk]) (fun u c _ h2 => ?_) h
    obtain ⟨rfl, rfl⟩ := nopEffect_ok h2
    exact ⟨⟨rfl, rfl⟩, by simp [possibleCodes], rfl, by decide⟩
  | init ch =>
    refine channel_cases (by simp [possibleCodes]) rfl ?_ (fun hr u c h1 h2 => ?_) h
    · simp [CodesOk, initChecks, possibleCodes, Code.isRefusal, Code.byte]
    obtain ⟨rfl, rfl, -⟩ := initEffect_ok h2
    exact ⟨⟨rfl, rfl, initChecks_pass.1 h1, hr⟩, by simp [possibleCodes], rfl, by decide⟩
  | free ch =>
    refine channel_cases (by simp [possibleCodes]) rfl (by simp [CodesOk]) (fun hr u c _ h2 => ?_) h
    obtain ⟨rfl, rfl⟩ := freeEffect_ok h2
    exact ⟨⟨rfl, rfl, hr⟩, by simp [possibleCodes], rfl, by decide⟩
  | ctxld ch =>
    refine channel_cases (by simp [possibleCodes]) rfl ?_ (fun hr u c h1 h2 => ?_) h
    · simp [CodesOk, ctxldChecks, possibleCodes, Code.isRefusal, Code.byte]
    obtain ⟨rfl, rfl⟩ := ctxldEffect_ok h2
    exact ⟨⟨rfl, rfl, ctxldChecks_pass.1 h1, hr⟩, by simp [possibleCodes], rfl, by decide⟩
  | fwd ch =>
    refine context_cases (by simp [possibleCodes]) rfl ?_ (fun hr u c h1 h2 => ?_) h
    · simp [CodesOk, fwdChecks, possibleCodes, Code.isRefusal, Code.byte]
    obtain ⟨rfl, rfl, -⟩ := fwdEffect_ok h2
    exact ⟨⟨rfl, rfl, hr, fwdChecks_pass.1 h1⟩, by simp [possibleCodes], rfl, by decide⟩
  | adapt ch =>
    refine context_cases (by simp [possibleCodes]) rfl ?_ (fun hr u c h1 h2 => ?_) h
    · simp [CodesOk, adaptChecks, possibleCodes, Code.isRefusal, Code.byte]
    obtain ⟨rfl, rfl⟩ := adaptEffect_ok h2
    exact ⟨⟨rfl, rfl, hr, adaptChecks_pass.1 h1⟩, by simp [possibleCodes], rfl, by decide⟩
  | gain =>
    refine global_cases (by simp [possibleCodes]) rfl ?_ (fun u c _ h2 => ?_) h
    · simp [CodesOk, gainChecks, possibleCodes, Code.isRefusal, Code.byte]
    obtain ⟨rfl, rfl⟩ := gainEffect_ok h2
    exact ⟨⟨rfl, rfl⟩, by simp [possibleCodes], rfl, by decide⟩
  | inv ch =>
    refine context_cases (by simp [possibleCodes]) rfl ?_ (fun hr u c h1 h2 => ?_) h
    · simp [CodesOk, invChecks, possibleCodes, Code.isRefusal, Code.byte]
    obtain ⟨rfl, rfl, -⟩ := invEffect_ok h2
    exact ⟨⟨rfl, rfl, hr, invChecks_pass.1 h1⟩, by simp [possibleCodes], rfl, by decide⟩
  | drain ch =>
    refine context_cases (by simp [possibleCodes]) rfl ?_ (fun hr u c h1 h2 => ?_) h
    · simp [CodesOk, drainChecks, possibleCodes, Code.isRefusal, Code.byte]
    obtain ⟨rfl, rfl, -⟩ := drainEffect_ok h2
    exact ⟨⟨rfl, rfl, hr, drainChecks_pass.1 h1⟩, by simp [possibleCodes], rfl, by decide⟩
  | peek ch =>
    refine context_cases (by simp [possibleCodes]) rfl ?_ (fun hr u c h1 h2 => ?_) h
    · simp [CodesOk, peekChecks, possibleCodes, Code.isRefusal, Code.byte]
    obtain ⟨rfl, rfl, -⟩ := peekEffect_ok h2
    exact ⟨⟨rfl, rfl, hr, peekChecks_pass.1 h1⟩, by simp [possibleCodes], rfl, by decide⟩
  | rcinit =>
    refine global_cases (by simp [possibleCodes]) rfl ?_ (fun u c h1 h2 => ?_) h
    · simp [CodesOk, rcinitChecks, possibleCodes, Code.isRefusal, Code.byte]
    obtain ⟨rfl, rfl⟩ := rcinitEffect_ok h2
    exact ⟨⟨rfl, rfl, rcinitChecks_pass.1 h1⟩, by simp [possibleCodes], rfl, by decide⟩
  | rcallow m =>
    refine global_cases (by simp [possibleCodes]) rfl ?_ (fun u c _ h2 => ?_) h
    · simp [CodesOk, rcallowChecks, possibleCodes, Code.isRefusal, Code.byte]
    obtain ⟨rfl, rfl⟩ := rcallowEffect_ok h2
    exact ⟨⟨rfl, rfl⟩, by simp [possibleCodes], rfl, by decide⟩
  | rcupd m =>
    refine global_cases (by simp [possibleCodes]) rfl ?_ (fun u c h1 h2 => ?_) h
    · simp [CodesOk, rcupdChecks, possibleCodes, Code.isRefusal, Code.byte]
    obtain ⟨rfl, rfl⟩ := rcupdEffect_ok h2
    refine ⟨⟨rfl, rfl, (rcupdChecks_pass.1 h1).1⟩, ?_⟩
    unfold rcupdOutcome
    split_ifs <;> simp [possibleCodes, Code.isRefusal, Code.byte]

/-- Everything a complete step can do, the illegal words included. -/
theorem complete_cases {s t : State} (h : complete s = .next t) :
    (∃ c, c.isRefusal = true ∧ t = refuse (opcField s.latch) (chField s.latch) c s) ∨
    (s.status.fatal = false ∧ t = enterFatal (opcField s.latch) (chField s.latch) s ∧ s.Broken) ∨
    (s.status.fatal = false ∧ ∃ i u c, decode s.latch = .ok i ∧ EffectOf i s u c ∧ c.isRefusal = false ∧
      c ≠ .eInternal ∧ t = finish (opcode i) (chanBits i) c u) := by
  unfold complete latched at h
  split at h
  · rename_i i hd
    obtain ⟨e1, e2⟩ := decode_fields hd
    rcases exec_cases h with ⟨c, h1, hc, rfl⟩ | ⟨hf, hc, rfl, hh⟩ | ⟨hf, u, c, h1, hc, h2, h3, rfl⟩
    · exact .inl ⟨c, h1, by rw [e1, e2]⟩
    · exact .inr (.inl ⟨hf, by rw [e1, e2], hh⟩)
    · exact .inr (.inr ⟨hf, _, u, c, hd, h1, h2, h3, rfl⟩)
  · rename_i e hd
    cases h
    exact .inl ⟨_, by split; decide; cases e <;> decide, rfl⟩

/-- No rule writes `STATUS`, `IRQSTAT` or what only the host writes. -/
theorem EffectOf.status {i : Instr} {s u : State} {c : Code} (h : EffectOf i s u c) :
    u.status = s.status ∧ u.irqStat = s.irqStat ∧ SameHostSide s u := by
  cases i <;> simp only [EffectOf] at h
  case nop => obtain ⟨rfl, rfl⟩ := h; simp [SameHostSide]
  case gain => obtain ⟨rfl, rfl⟩ := h; simp [SameHostSide]
  case rcallow => obtain ⟨rfl, rfl⟩ := h; simp [SameHostSide]
  case init => obtain ⟨rfl, rfl, _⟩ := h; simp [SameHostSide, initState]
  case free => obtain ⟨rfl, rfl, _⟩ := h; simp [SameHostSide]
  case ctxld => obtain ⟨rfl, rfl, _⟩ := h; simp [SameHostSide]
  case fwd => obtain ⟨rfl, rfl, _⟩ := h; simp [SameHostSide, fwdState, fwdMemories]
  case adapt => obtain ⟨rfl, rfl, _⟩ := h; simp [SameHostSide, adaptState]
  case inv => obtain ⟨rfl, rfl, _⟩ := h; simp [SameHostSide, invState, invMemories]
  case drain => obtain ⟨rfl, rfl, _⟩ := h; simp [SameHostSide, drainState]
  case peek => obtain ⟨rfl, rfl, _⟩ := h; simp [SameHostSide, peekState]
  case rcinit => obtain ⟨rfl, rfl, _⟩ := h; simp [SameHostSide, rcinitState]
  case rcupd => obtain ⟨rfl, rfl, _⟩ := h; simp [SameHostSide, rcupdState]

end Sys2Proof.Machine
end

