-- ==== Sys2Proof/Laws/HostPort.lean ====
section
/-! SUPPORT. The host port: everything one access can do, and where the address map puts `CTRL` and the
memories (spec/20_memory.md R36 to R40). -/

namespace Sys2Proof.Machine

/-- Everything a host access can do: change nothing but the answer, or, while the engine is idle, write the
location its address names. -/
theorem serve_cases (a : HostAccess) (s : State) :
    (∃ r, serve a s = { s with resp := some r }) ∨
    (s.status.busy = false ∧ ∃ addr v l, a = .write addr 4 v ∧ locate s.cfg addr.toNat = some l ∧
      serve a s = { writeLoc s l v with resp := some .okay }) := by
  cases a with
  | read addr n =>
    left
    unfold serve
    dsimp only
    split <;> exact ⟨_, rfl⟩
  | write addr n v =>
    unfold serve
    dsimp only
    split
    · rename_i l hl
      right
      unfold reach at hl
      split at hl
      · rename_i hn
        subst hn
        split at hl
        · rename_i l' hl'
          cases hb : s.status.busy
          · simp [hb] at hl
            subst hl
            exact ⟨rfl, addr, v, l', rfl, hl', rfl⟩
          · simp [hb] at hl
        · cases hl
      · cases hl
    · exact .inl ⟨_, rfl⟩

/-- `CTRL` stands at one address only (spec/10_state.md R14 to R19). -/
theorem locate_ctrl {c : Config} {a : Nat} (h : locate c a = some .ctrl) : a = 0x3C := by
  unfold locate at h
  split_ifs at h with h1 h2 h3
  · have : lowRegister c (a / 4) = .ctrl := by simpa using h
    unfold lowRegister at this
    split at this <;> first | (cases this; done) | omega
  · simp at h
  · simp only [windowLoc] at h
    split_ifs at h <;> simp at h

/-- A memory word that the port reaches exists. -/
theorem locate_mem {c : Config} {n a : Nat} {sp : Space} (h : locate c n = some (.mem sp a)) :
    a < c.words sp := by
  unfold locate at h
  split_ifs at h
  · have : lowRegister c (n / 4) = .mem sp a := by simpa using h
    unfold lowRegister at this
    split at this <;> cases this
  · simp at h
  · have : windowLoc c .dm n = some (.mem sp a) ∨ windowLoc c .wm n = some (.mem sp a) ∨
        windowLoc c .ov n = some (.mem sp a) := by
      revert h
      cases windowLoc c .dm n <;> cases windowLoc c .wm n <;> simp [Option.or] <;> intros <;> simp_all
    rcases this with h | h | h <;> unfold windowLoc at h <;> split_ifs at h with hw <;> simp at h <;>
      obtain ⟨rfl, rfl⟩ := h <;> omega

/-- The bits of the word of `FLAGS` (R16). -/
theorem Flags.getLsbD_word (f : Flags) (i : Nat) :
    f.word.getLsbD i =
      (decide (i = 0) && f.sat || decide (i = 1) && f.rcUf || decide (i = 2) && f.rcOf) := by
  rcases lt_or_ge i 32 with h | h
  · obtain ⟨a, b, c⟩ := f
    cases a <;> cases b <;> cases c <;> revert i <;> decide
  · rw [BitVec.getLsbD_of_ge _ _ h]
    simp [show i ≠ 0 by omega, show i ≠ 1 by omega, show i ≠ 2 by omega]

/-- The bits of the word of `IRQEN` and `IRQSTAT` (R17). -/
theorem IrqBits.getLsbD_word (q : IrqBits) (i : Nat) :
    q.word.getLsbD i = (decide (i = 0) && q.done || decide (i = 1) && q.err) := by
  rcases lt_or_ge i 32 with h | h
  · obtain ⟨a, b⟩ := q
    cases a <;> cases b <;> revert i <;> decide
  · rw [BitVec.getLsbD_of_ge _ _ h]
    simp [show i ≠ 0 by omega, show i ≠ 1 by omega]

end Sys2Proof.Machine
end

