-- ==== Sys2Proof/Laws/Invariant.lean ====
section
/-! SUPPORT. The context invariant (spec/10_state.md R21): it depends only on the configuration and the contexts,
and replacing one context by one that satisfies it keeps it for all. -/

namespace Sys2Proof.Machine

theorem ctxInv_congr {s t : State} (hcfg : t.cfg = s.cfg) (hc : ∀ c, t.ctx c = s.ctx c) (c : Chan)
    (x : Ctx) : t.CtxInv c x ↔ s.CtxInv c x := by
  unfold State.CtxInv State.RegionFree
  simp only [hcfg, hc]

theorem contextsOk_same {s t : State} (h : s.ContextsOk) (hcfg : t.cfg = s.cfg)
    (hc : ∀ c, t.ctx c = s.ctx c) : t.ContextsOk := by
  obtain ⟨h1, h2, h3⟩ := h
  refine ⟨fun c hn hv => ?_, fun c hv => ?_, fun c hn => ?_⟩
  · rw [hc, ctxInv_congr hcfg hc]; rw [hcfg] at hn; rw [hc] at hv; exact h1 c hn hv
  · rw [hc] at hv ⊢; exact h2 c hv
  · rw [hc]; rw [hcfg] at hn; exact h3 c hn

/-- Replacing the context of one channel by an image that satisfies `CtxInv` there, or by a blank one, keeps
the whole context file as R21 says. -/
theorem contextsOk_set {s t : State} {ch : Chan} {x : Ctx} (h : s.ContextsOk) (hn : ch.val < s.cfg.nch)
    (hcfg : t.cfg = s.cfg) (hx : t.ctx ch = x) (hc : ∀ c, c ≠ ch → t.ctx c = s.ctx c)
    (hv : x.valid = true → s.CtxInv ch x) (hb : x.valid = false → x = Ctx.blank) : t.ContextsOk := by
  obtain ⟨h1, h2, h3⟩ := h
  refine ⟨fun c hn' hv' => ?_, fun c hv' => ?_, fun c hn' => ?_⟩
  · by_cases e : c = ch
    · subst e
      rw [hx] at hv' ⊢
      have := hv hv'
      refine ⟨by rw [hcfg]; exact this.1, ?_, this.2.2.1, this.2.2.2.1, ?_, this.2.2.2.2.2⟩
      · obtain ⟨a, b, d⟩ := this.2.1
        refine ⟨a, by rw [hcfg]; exact b, fun o ho hne hov => ?_⟩
        rw [hcfg] at ho; rw [hc o hne] at hov ⊢; exact d o ho hne hov
      · rw [hcfg]; exact this.2.2.2.2.1
    · rw [hcfg] at hn'
      rw [hc c e] at hv' ⊢
      have := h1 c hn' hv'
      refine ⟨by rw [hcfg]; exact this.1, ?_, this.2.2.1, this.2.2.2.1, ?_, this.2.2.2.2.2⟩
      · obtain ⟨a, b, d⟩ := this.2.1
        refine ⟨a, by rw [hcfg]; exact b, fun o ho hne hov => ?_⟩
        rw [hcfg] at ho
        by_cases eo : o = ch
        · subst eo
          rw [hx] at hov ⊢
          have := (hv hov).2.1.2.2 c hn' e hv'
          unfold Ctx.Meets at this ⊢
          omega
        · rw [hc o eo] at hov ⊢; exact d o ho hne hov
      · rw [hcfg]; exact this.2.2.2.2.1
  · by_cases e : c = ch
    · subst e; rw [hx] at hv' ⊢; exact hb hv'
    · rw [hc c e] at hv' ⊢; exact h2 c hv'
  · rw [hcfg] at hn'
    have e : c ≠ ch := by rintro rfl; omega
    rw [hc c e]; exact h3 c hn'

theorem memOk_same {s t : State} (h : s.MemoriesOk) (hcfg : t.cfg = s.cfg)
    (hm : ∀ sp, t.mem sp = s.mem sp) : t.MemoriesOk := by
  intro sp
  rw [hm, hcfg]
  exact h sp

end Sys2Proof.Machine
end

