-- ==== Sys2Proof/Laws/PerInstr.lean ====
section
/-! SUPPORT. One law of every command: the word that encodes it satisfies the mask and match of its row of the
table of spec/30_encoding.md R57, and its `OPC`, `CH` and `M` fields are the command's. -/

namespace Sys2Proof.Laws.RowEncoding

/-- Column "mask" of R57. -/
def mask : Instr → Word
  | .nop => 0xFFFFFFFF#32
  | .init _ => 0xFFFFF0FF#32
  | .free _ => 0xFFFFF0FF#32
  | .ctxld _ => 0xFFFFF0FF#32
  | .fwd _ => 0xFFFFF0FF#32
  | .adapt _ => 0xFFFFF0FF#32
  | .gain => 0xFFFFFFFF#32
  | .inv _ => 0xFFFFF0FF#32
  | .drain _ => 0xFFFFF0FF#32
  | .peek _ => 0xFFFFF0FF#32
  | .rcinit => 0xFFFFFFFF#32
  | .rcallow _ => 0xFFFFFFFE#32
  | .rcupd _ => 0xFFFFFFFE#32

/-- Column "match" of R57. -/
def matchWord : Instr → Word
  | .nop => 0x00000000#32
  | .init _ => 0x10000000#32
  | .free _ => 0x11000000#32
  | .ctxld _ => 0x12000000#32
  | .fwd _ => 0x14000000#32
  | .adapt _ => 0x18000000#32
  | .gain => 0x19000000#32
  | .inv _ => 0x1A000000#32
  | .drain _ => 0x1B000000#32
  | .peek _ => 0x1C000000#32
  | .rcinit => 0x20000000#32
  | .rcallow _ => 0x21000000#32
  | .rcupd _ => 0x22000000#32

/-- The word of a command is in its row of R57, and its fields are the command's. -/
def Statement (i : Instr) : Prop :=
  encode i &&& mask i = matchWord i ∧
    opcField (encode i) = opcode i ∧ chField (encode i) = chanBits i ∧ mField (encode i) = modBits i

theorem nop : Statement .nop := by unfold Statement; decide

theorem init (ch : Chan) : Statement (.init ch) := by unfold Statement; revert ch; decide

theorem free (ch : Chan) : Statement (.free ch) := by unfold Statement; revert ch; decide

theorem ctxld (ch : Chan) : Statement (.ctxld ch) := by unfold Statement; revert ch; decide

theorem fwd (ch : Chan) : Statement (.fwd ch) := by unfold Statement; revert ch; decide

theorem adapt (ch : Chan) : Statement (.adapt ch) := by unfold Statement; revert ch; decide

theorem gain : Statement .gain := by unfold Statement; decide

theorem inv (ch : Chan) : Statement (.inv ch) := by unfold Statement; revert ch; decide

theorem drain (ch : Chan) : Statement (.drain ch) := by unfold Statement; revert ch; decide

theorem peek (ch : Chan) : Statement (.peek ch) := by unfold Statement; revert ch; decide

theorem rcinit : Statement .rcinit := by unfold Statement; decide

theorem rcallow (m : Bool) : Statement (.rcallow m) := by unfold Statement; revert m; decide

theorem rcupd (m : Bool) : Statement (.rcupd m) := by unfold Statement; revert m; decide

end Sys2Proof.Laws.RowEncoding
end

