-- ==== Sys2Proof/Tests/Slice0.lean ====
section
/-! SUPPORT. The model's own tests. Expected results are those of spec/95_test_vectors.md (sections named with
each test) or are written out by hand from the rule named with it. After the tests come the witnesses: for every
statement with hypotheses, a state and operands that meet them all. -/

namespace Sys2Proof.Tests

set_option Elab.async false

open Sys2Proof Sys2Proof.Machine

/-! ## Helpers -/

/-- The outcome is a next state with property `p`. -/
def holds (o : Host.Outcome State Fault Refusal) (p : State → Bool) : Bool :=
  match o with
  | .next t => p t
  | .fault _ => false
  | .refused _ => false

theorem next_of_holds {o : Host.Outcome State Fault Refusal} {p : State → Bool} (h : holds o p = true) :
    ∃ t, o = .next t ∧ p t = true := by
  cases o with
  | next t => exact ⟨t, rfl, h⟩
  | fault f => cases h
  | refused r => cases h

/-- Argument registers from A0 on. -/
def withArgs (s : State) (l : List Int) : State :=
  { s with args := Vector.ofFn fun i => w32 (l.getD i.val 0) }

/-- Words of a memory from word address `a` on. -/
def withWords (s : State) (sp : Space) (a : Nat) (l : List Int) : State :=
  s.setMem sp ((s.mem sp).putWords a (l.map w32))

/-- `n` words of a memory. -/
def wordsAt (s : State) (sp : Space) (a n : Nat) : List Int :=
  (List.range n).map fun k => s.wordAt sp (a + k)|>.toNat

/-- A context written as spec/95_test_vectors.md section 0 writes one. -/
def ctxOf (dir : Dir) (b z m fill wrs tl nr fr : Nat) : Ctx where
  valid := true
  dir := dir
  ovBase := w32n b
  ovSize := w32n z
  tlMax := w32n m
  fill := w32n fill
  prevWrs := w32n wrs
  prevTl := w32n tl
  prevNr := w32n nr
  prevFr := w32n fr

/-- The engine after reset with a word in the latch, pending. -/
def pending (w : Word) : State :=
  { State.reset with latch := w, status := { State.reset.status with busy := true } }

/-! ## Well-formedness -/

/-- `CH < NCH` (R58): channel 2 does not exist with `NCH = 2`. -/
theorem test_wellFormed_refuses_absent_channel :
    WellFormed Config.default (.fwd 2) = false ∧ WellFormed Config.default (.free 15) = false := by decide

theorem test_wellFormed_accepts :
    WellFormed Config.default (.fwd 1) = true ∧ WellFormed Config.default .gain = true ∧
      WellFormed Config.default (.rcupd true) = true := by decide

/-! ## Decoding: one word of every command, bits written out from R55 and R57 -/

/-- `OPC = 0x00`, all fields 0. -/
theorem test_decode_nop : decode 0b00000000000000000000000000000000#32 = .ok .nop := by decide

/-- `OPC = 0x10`, `CH = 3`. -/
theorem test_decode_init : decode 0b00010000000000000000001100000000#32 = .ok (.init 3) := by decide

/-- `OPC = 0x11`, `CH = 15`. -/
theorem test_decode_free : decode 0b00010001000000000000111100000000#32 = .ok (.free 15) := by decide

/-- `OPC = 0x12`, `CH = 8`. -/
theorem test_decode_ctxld : decode 0b00010010000000000000100000000000#32 = .ok (.ctxld 8) := by decide

/-- `OPC = 0x14`, `CH = 1`. -/
theorem test_decode_fwd : decode 0b00010100000000000000000100000000#32 = .ok (.fwd 1) := by decide

/-- `OPC = 0x18`, `CH = 2`. -/
theorem test_decode_adapt : decode 0b00011000000000000000001000000000#32 = .ok (.adapt 2) := by decide

/-- `OPC = 0x19`. -/
theorem test_decode_gain : decode 0b00011001000000000000000000000000#32 = .ok .gain := by decide

/-- `OPC = 0x1A`, `CH = 4`. -/
theorem test_decode_inv : decode 0b00011010000000000000010000000000#32 = .ok (.inv 4) := by decide

/-- `OPC = 0x1B`, `CH = 5`. -/
theorem test_decode_drain : decode 0b00011011000000000000010100000000#32 = .ok (.drain 5) := by decide

/-- `OPC = 0x1C`, `CH = 10`. -/
theorem test_decode_peek : decode 0b00011100000000000000101000000000#32 = .ok (.peek 10) := by decide

/-- `OPC = 0x20`. -/
theorem test_decode_rcinit : decode 0b00100000000000000000000000000000#32 = .ok .rcinit := by decide

/-- `OPC = 0x21`, `M` 0 and 1. -/
theorem test_decode_rcallow :
    decode 0b00100001000000000000000000000000#32 = .ok (.rcallow false) ∧
      decode 0b00100001000000000000000000000001#32 = .ok (.rcallow true) := by decide

/-- `OPC = 0x22`, `M` 0 and 1. -/
theorem test_decode_rcupd :
    decode 0b00100010000000000000000000000000#32 = .ok (.rcupd false) ∧
      decode 0b00100010000000000000000000000001#32 = .ok (.rcupd true) := by decide

/-- Section 2.2: each reserved field, and the opcode looked at before the fields. -/
theorem test_decode_illegal :
    decode 0x00000100#32 = .error .illegalField ∧ decode 0x00000001#32 = .error .illegalField ∧
      decode 0x14001000#32 = .error .illegalField ∧ decode 0x14800000#32 = .error .illegalField ∧
      decode 0x14000080#32 = .error .illegalField ∧ decode 0x14000002#32 = .error .illegalField ∧
      decode 0x14000001#32 = .error .illegalField ∧ decode 0x22000101#32 = .error .illegalField ∧
      decode 0x01000000#32 = .error .illegalOpcode ∧ decode 0x13000000#32 = .error .illegalOpcode ∧
      decode 0x15000002#32 = .error .illegalOpcode ∧ decode 0xFF000000#32 = .error .illegalOpcode := by
  decide

/-- The numbering of spec/opcode_table.json: 32 bits, bit 0 least significant. -/
theorem test_decodeTableWord :
    decodeTableWord 32 0x1A000100 = some (.inv 1) ∧ decodeTableWord 32 0x15000000 = none := by decide

/-! ## Arithmetic (section 2.1) -/

theorem test_rshr :
    rshr 4611686017353646079 31 = 2147483647 ∧ rshr (-4611686018427387904) 31 = -2147483648 ∧
      rshr (-4) 3 = 0 ∧ rshr (-5) 3 = -1 ∧ rshr (-5) (-2) = -20 ∧ rshr (-1) 40 = 0 := by decide

theorem test_sat32 :
    satPair 2147483648 = (2147483647, true) ∧ satPair 2147483647 = (2147483647, false) ∧
      satPair (-2147483649) = (-2147483648, true) := by decide

theorem test_cosq :
    [1, 3, 5, 7, 9, 11, 13, 15].map (cosq 2) = [1984016189, 821806413, -821806413, -1984016189, -1984016189,
      -821806413, 821806413, 1984016189] ∧ cosq 1024 1 = 2147483016 ∧ cosq 1024 2047 = 1647099 ∧
      cosq 1024 4097 = -2147483016 ∧ cosq 960 3 = 2147477180 := by decide +kernel

theorem test_kernel :
    kernel 4 [1, 2, 3, 4] = [10932402221, -10143312176, 5379766699, -5035381926] := by decide +kernel

/-! ## One step of each command -/

/-- R85. -/
theorem test_nop :
    holds (exec .nop { State.reset with ret := 7#32 }) (fun t =>
      t.ret == 0#32 && t.status.word == 0#32 && t.irqStat.done && !t.irqStat.err) = true := by decide +kernel

/-- Section 2.3, row 1: the region is zeroed and the context bound. -/
theorem test_init :
    holds (exec (.init 0) (withArgs (withWords State.reset .ov 0 (List.replicate 9 0xDEADBEEF)) [0, 8, 4]))
      (fun t => t.ctx 0 == ctxOf .none 0 8 4 0 0 0 0 0 &&
        wordsAt t .ov 0 9 == [0, 0, 0, 0, 0, 0, 0, 0, 0xDEADBEEF]) = true := by decide +kernel

/-- Section 2.3, row 7 (with channel 0 unbound): 2044 + 8 > 2048. -/
theorem test_init_refused :
    holds (exec (.init 1) (withArgs State.reset [2044, 8, 4])) (fun t =>
      t.status.code == .eOvmem && t.ctx 1 == Ctx.blank && t.irqStat.err) = true := by decide +kernel

/-- Section 2.3, row 12. -/
theorem test_free :
    holds (exec (.free 0) (State.reset.setCtx 0 (ctxOf .fwd 0 8 4 3 0 4 1 2))) (fun t =>
      t.ctx 0 == Ctx.blank && t.status.code == .ok) = true := by decide +kernel

/-- Section 2.3, `CTXLD`: the forward image with `FILL = 3`. -/
theorem test_ctxld :
    holds (exec (.ctxld 0) (withArgs State.reset [0, 8, 4, 1, 3, 0, 4, 1, 2])) (fun t =>
      t.ctx 0 == ctxOf .fwd 0 8 4 3 0 4 1 2 && t.status.code == .ok) = true := by decide +kernel

/-- Section 2.3, `CTXLD`: "`DIR` compared as a whole word". -/
theorem test_ctxld_refused :
    holds (exec (.ctxld 0) (withArgs State.reset [0, 8, 4, 0x80000002, 0, 0, 4, 1, 2])) (fun t =>
      t.status.code == .eCtxld && t.ctx 0 == Ctx.blank) = true := by decide +kernel

/-- Section 2.3, `GAIN`: 6 and 1024. -/
theorem test_gain :
    holds (exec .gain (withArgs State.reset [0, 0, 6])) (fun t =>
      t.arg 0 == 0x55555555#32 && t.arg 1 == 0xFFFFFFFF#32) = true ∧
    holds (exec .gain (withArgs State.reset [0, 0, 1024])) (fun t =>
      t.arg 0 == 0x40000000#32 && t.arg 1 == 0xFFFFFFF8#32) = true := by decide +kernel

/-- Section 2.3, `GAIN`: a refusal leaves A0 and A1. -/
theorem test_gain_refused :
    holds (exec .gain (withArgs State.reset [0x11111111, 0x22222222, 1025])) (fun t =>
      t.status.code == .eTl && t.arg 0 == 0x11111111#32 && t.arg 1 == 0x22222222#32) = true := by
  decide +kernel

/-- The slope tables S2 and S4 of section 0 in WMEM. -/
def slopes : State :=
  withWords (withWords State.reset .wm 0 [0x30FBC54D, 0x7641AF3D]) .wm 4
    [0x18F8B83C, 0x471CECE7, 0x6A6D98A4, 0x7D8A5F40]

/-- The state before vector 2.4 a. -/
def forwardA : State :=
  withArgs ((withWords (withWords slopes .dm 0 [0x20000000, 0xE0000000, 0x40000000, 0x10000000]) .ov 16
    (List.replicate 8 0)).setCtx 0 (ctxOf .none 16 8 4 0 0 0 0 0)) [0, -3, 4, 1, 2, 0, 32]

/-- Section 2.4 a. -/
theorem test_fwd_first :
    holds (exec (.fwd 0) forwardA) (fun t =>
      wordsAt t .dm 32 4 == [0xFD4BC5F1, 0x014EBBEF, 0x044680AB, 0x02589205] &&
      wordsAt t .ov 16 3 == [0xE0000000, 0x40000000, 0x10000000] && t.arg 1 == 0#32 && t.ret == 4#32 &&
      t.ctx 0 == ctxOf .fwd 16 8 4 3 0 4 1 2 && !t.flags.sat && t.status.word == 0x00001400#32) = true := by
  decide +kernel

/-- Section 2.4 b: extreme samples, left slope from the context. -/
theorem test_fwd_second :
    holds (exec (.fwd 0) (withArgs ((withWords (withWords slopes .dm 4
      [0x08000000, 0xF0000000, 0x7FFFFFFF, 0x80000000]) .ov 16
      [0xE0000000, 0x40000000, 0x10000000]).setCtx 0 (ctxOf .fwd 16 8 4 3 0 4 1 2)) [4, -3, 4, 0, 4, 4, 36]))
      (fun t => wordsAt t .dm 36 4 == [0xF7D7430C, 0x007E051D, 0xF213D44A, 0x047D04E4] &&
        wordsAt t .ov 16 4 == [0x08000000, 0xF0000000, 0x7FFFFFFF, 0x80000000] &&
        t.ctx 0 == ctxOf .fwd 16 8 4 4 4 4 0 4) = true := by decide +kernel

/-- Section 2.5, rows 9 and 13: the first call, and a longer slope lowered to the carry's. -/
theorem test_adapt :
    holds (exec (.adapt 0) (withArgs (State.reset.setCtx 0 (ctxOf .none 0 8 4 0 0 0 0 0)) [2, 0, 4, 10, 4]))
      (fun t => t.ret == 3#32 && t.arg 0 == 2#32 && t.arg 1 == 1#32 &&
        t.ctx 0 == ctxOf .inv 0 8 4 0 10 4 1 2) = true ∧
    holds (exec (.adapt 0) (withArgs (State.reset.setCtx 0 (ctxOf .inv 0 8 4 0 30 4 2 0)) [4, 0, 4, 40, 4]))
      (fun t => t.ret == 2#32 && t.arg 0 == 0#32 && t.arg 1 == 2#32 &&
        t.ctx 0 == ctxOf .inv 0 8 4 0 30 4 2 0) = true := by decide +kernel

/-- The state before vector 2.6 b, with `nout`, `ge`, `out` to choose. -/
def inverseB (nout ge out : Int) : State :=
  withArgs ((withWords (withWords (withWords slopes .dm 36 [0xF7D7430C, 0x007E051D, 0xF213D44A, 0x047D04E4])
    .dm 49 [0]) .ov 24 [0, 0, 0, 0, 0, 0, 0x00289449, 0xFF000000]).setCtx 1 (ctxOf .inv 24 8 4 0 0 4 1 2))
    [36, 49, 1, nout, 4, 0, 2, 4, 4, 0x40000000, ge, out]

/-- Section 2.6 c: one sample delivered, three pending. -/
theorem test_inv_pending :
    holds (exec (.inv 1) (inverseB 1 0 72)) (fun t =>
      t.ret == 1#32 && wordsAt t .dm 72 1 == [0x04000000] && !t.flags.sat &&
      t.ctx 1 == ctxOf .inv 24 8 4 3 4 4 0 4 &&
      wordsAt t .ov 24 8 == [0xFC000002, 0x07FFFFFE, 0x02000000, 0, 0, 0, 0xFE318631, 0x00890092]) = true := by
  decide +kernel

/-- Section 2.6 d: values clamp and `FLAGS.SAT` is set. -/
theorem test_inv_saturates :
    holds (exec (.inv 1) (inverseB 4 6 76)) (fun t =>
      wordsAt t .dm 76 4 == [0x04000000, 0x80000000, 0x7FFFFFFF, 0x7FFFFFF8] && t.flags.sat &&
      t.status.code == .ok && wordsAt t .ov 30 2 == [0x8C618C5A, 0x22402493]) = true := by decide +kernel

/-- The state after vector 2.6 c, with the operands of `PEEK` and `DRAIN`. -/
def pendingThree (out count : Int) : State :=
  withArgs ((withWords State.reset .ov 24
    [0xFC000002, 0x07FFFFFE, 0x02000000, 0, 0, 0, 0xFE318631, 0x00890092]).setCtx 1
    (ctxOf .inv 24 8 4 3 4 4 0 4)) [out, count]

/-- Section 2.7, row 5. -/
theorem test_drain :
    holds (exec (.drain 1) (pendingThree 110 2)) (fun t =>
      t.ret == 2#32 && wordsAt t .dm 110 2 == [0xFC000002, 0x07FFFFFE] && (t.ctx 1).fill == 1#32 &&
      wordsAt t .ov 24 3 == [0x02000000, 0x07FFFFFE, 0x02000000]) = true := by decide +kernel

/-- The state of section 2.7's flat tail, with the last carry word to choose. -/
def flatTailState (top : Int) : State :=
  withArgs ((withWords State.reset .ov 24 [0, 0, 0, 0, 0, 0, 0x00289449, top]).setCtx 1
    (ctxOf .inv 24 8 4 0 0 4 1 2)) [140, 100]

/-- Section 2.7, `PEEK`: row 1, and the flat tail where it clamps. -/
theorem test_peek :
    holds (exec (.peek 1) (pendingThree 100 10)) (fun t =>
      t.ret == 3#32 && wordsAt t .dm 100 3 == [0xFC000002, 0x07FFFFFE, 0x02000000] &&
      (t.ctx 1).fill == 3#32) = true ∧
    holds (exec (.peek 1) (flatTailState 0xE0000000)) (fun t =>
      t.ret == 1#32 && wordsAt t .dm 140 1 == [0x7FFFFFFF] && t.flags.sat) = true := by decide +kernel

/-- The record of section 2.8 row 7, at a level. -/
def reservoir (level : Nat) : State :=
  State.reset.setRc { valid := true, level := w32n level, size := 6144#32, min := 1000#32, max := 6144#32,
                      avg := 2731#32, borrow := 1024#32 }

/-- Section 2.8, rows 7 and 5. -/
theorem test_rcinit :
    holds (exec .rcinit (withArgs State.reset [6144, 1000, 6144, 2731, 1024, 0])) (fun t =>
      t.rc == (reservoir 0).rc && t.ret == 0#32) = true ∧
    holds (exec .rcinit (withArgs State.reset [6144, 1000, 6144, 2731, 1024, 6145])) (fun t =>
      t.status.code == .eRcCfg && t.rc == RateCtl.blank) = true := by decide +kernel

/-- Section 2.8, rows 12 and 9. -/
theorem test_rcallow :
    holds (exec (.rcallow true) (reservoir 731)) (fun t => t.ret == 3462#32) = true ∧
    holds (exec (.rcallow false) (reservoir 0)) (fun t => t.ret == 1000#32) = true := by decide +kernel

/-- Section 2.8, rows 15 and 21. -/
theorem test_rcupd :
    holds (exec (.rcupd true) (withArgs (reservoir 731) [0, 10000])) (fun t =>
      t.status.code == .wResUf && t.ret == 0#32 && t.rc.level == 0#32 && t.arg 2 == 1#32 && t.flags.rcUf &&
      t.irqStat == { done := true, err := true }) = true ∧
    holds (exec (.rcupd true) (withArgs (reservoir 5462) [0, 0])) (fun t =>
      t.status.code == .wResOf && t.ret == 6144#32 && t.rc.level == 6144#32 && t.arg 2 == 2#32 &&
      t.flags.rcOf) = true := by decide +kernel

/-! ## The host port (section 2.9) and the step -/

/-- R64: `call.fwd` writes `(tl − fr)/2` to A3, a negative one as its `w32` (R63). -/
theorem test_call_fwd_offset :
    callFwdOffset 4#32 2#32 = 1#32 ∧ callFwdOffset 1024#32 128#32 = 448#32 ∧
      callFwdOffset 2#32 4#32 = 0xFFFFFFFF#32 := by decide +kernel

/-- R64, R63: `call.gain tl` writes A2 at 0x48, then the word of `GAIN` to `CMD`, then reads `STATUS` until the
command is complete, here after one read that still finds it busy. -/
theorem test_call_gain_turns :
    programTurns (callGain 1024#32 1) =
      [.host (.write 0x48#32 4 1024#32), .host (.write 0x20#32 4 0x19000000#32), .host (.read 0x24#32 4),
        .engine, .host (.read 0x24#32 4)] := by decide +kernel

/-- R56, R40: two lines between a command and its `wait`. Where the command completes before them, the second
meets an idle engine; where it does not, the engine is busy. -/
theorem test_command_completes_between_lines :
    programTurns [.cmd .nop, .complete, .rd 0x28#32, .wait 0] =
      [.host (.write 0x20#32 4 0#32), .engine, .host (.read 0x28#32 4), .engine, .host (.read 0x24#32 4)] ∧
    programTurns [.cmd .nop, .rd 0x28#32, .wait 0] =
      [.host (.write 0x20#32 4 0#32), .host (.read 0x28#32 4), .engine, .host (.read 0x24#32 4)] := by
  decide +kernel

/-- The answer of one access. -/
def answer (a : HostAccess) (s : State) : Option HostResponse := (serve a s).resp

theorem test_port_reads :
    answer (.read 0#32 4) State.reset = some (.okayData 0x4D440100#32) ∧
      answer (.read 4#32 4) State.reset = some (.okayData 2#32) ∧
      answer (.read 0x14#32 4) State.reset = some (.okayData 2048#32) ∧
      answer (.read 0x43C#32 4) State.reset = some (.okayData 0#32) ∧
      answer (.read 0x480#32 4) State.reset = some .error ∧
      answer (.read 0x41#32 4) State.reset = some .error ∧ answer (.read 0x9C#32 4) State.reset = some .error ∧
      answer (.read 0x24#32 1) State.reset = some .error := by decide +kernel

theorem test_port_memory :
    answer (.read 0x00107FFC#32 4) (serve (.write 0x00107FFC#32 4 9#32) State.reset) =
        some (.okayData 9#32) ∧
      (serve (.write 0x00107FFC#32 4 9#32) State.reset).wordAt .dm 8191 = 9#32 ∧
      answer (.read 0x00108000#32 4) State.reset = some .error := by decide +kernel

theorem test_port_busy :
    answer (.read 0x28#32 4) (pending 0#32) = some .error ∧
      answer (.write 0x3C#32 4 1#32) (pending 0#32) = some .error ∧
      answer (.read 0x24#32 4) (pending 0#32) = some (.okayData 0x80000000#32) := by decide +kernel

/-- A word placed with `withFetchWord` runs as the first command after reset: `fwd ch1` on an unbound
context ends with `E_NOCTX`. -/
theorem test_step_runs_fetch_word :
    holds (step (State.reset.withFetchWord 32 0x14000100)) (fun t => t.status.word == 0x00011423#32) = true := by
  decide +kernel

/-- After `.word 0xFF000F00`: `OKAY(0x000FFF20)`. -/
theorem test_step_illegal_word :
    holds (step (State.reset.withFetchWord 32 0xFF000F00)) (fun t => t.status.word == 0x000FFF20#32) = true := by
  decide +kernel

/-! ## Witnesses: for every statement with hypotheses, a state and operands that meet them all -/

/-- A fatal state with a command pending. -/
def fatalPending (w : Word) : State :=
  { pending w with status := { (pending w).status with fatal := true } }

/-- A bound context that violates `CtxInv`: an odd largest length. -/
def broken : State := State.reset.setCtx 0 (ctxOf .none 0 8 5 0 0 0 0 0)

/-- Channel 0 of a fresh context, a forward one, an inverse one. -/
def fresh : State := State.reset.setCtx 0 (ctxOf .none 0 8 4 0 0 0 0 0)

/-- `ContextReady` as a check. -/
def isReady (ch : Chan) (s : State) : Bool :=
  decide (ChannelReady ch s) && (s.ctx ch).valid && decide (s.CtxInv ch (s.ctx ch))

theorem ready {ch : Chan} {s : State} (h : isReady ch s = true) : ContextReady ch s := by
  simp only [isReady, Bool.and_eq_true, decide_eq_true_eq] at h
  exact ⟨h.1.1, h.1.2, h.2⟩

theorem witness_StepRunsLatchedCommand :
    (∃ (s : State) (rest : List Turn),
      s.status.busy = true ∧ decode s.latch = .ok (.fwd 1) ∧ s.turns = .engine :: rest) ∧
    (∃ s : State, s.status.busy = true ∧ decode s.latch = .ok (.fwd 1) ∧ s.turns = []) :=
  ⟨⟨State.reset.withFetchWord 32 0x14000100, [], by decide⟩, ⟨pending 0x14000100#32, by decide⟩⟩

theorem witness_StepTakesNextTurn :
    (∃ (s : State) (a : HostAccess) (rest : List Turn), s.turns = .host a :: rest) ∧
    (∃ (s : State) (rest : List Turn), s.turns = .rst :: rest) ∧
    (∃ (s : State) (rest : List Turn), s.status.busy = false ∧ s.turns = .engine :: rest) ∧
    (∃ s : State, s.status.busy = false ∧ s.turns = []) :=
  ⟨⟨{ State.reset with turns := [.host (.read 0#32 4)] }, _, _, rfl⟩,
    ⟨{ State.reset with turns := [.rst] }, _, rfl⟩,
    ⟨{ State.reset with turns := [.engine] }, [], by decide⟩, ⟨State.reset, by decide⟩⟩

theorem witness_FetchWordRunsNext : ∃ (w : Word) (i : Instr), decode w = .ok i :=
  ⟨0x21000001#32, .rcallow true, by decide⟩

theorem witness_IllegalWordRefused :
    (∃ s : State, decode s.latch = .error .illegalOpcode) ∧
    (∃ s : State, decode s.latch = .error .illegalField) ∧
    (∃ s : State, decode s.latch = .error .illegalField ∧ s.status.fatal = true) :=
  ⟨⟨pending 0x15000002#32, by decide⟩, ⟨pending 0x14001000#32, by decide⟩,
    ⟨fatalPending 0x14001000#32, by decide⟩⟩

theorem witness_RefusalChangesNothingElse :
    ∃ s t : State, complete s = .next t ∧ t.status.code.isRefusal = true :=
  ⟨pending 0x14000000#32, next_of_holds (p := fun t => t.status.code.isRefusal) (by decide +kernel)⟩

/-- Each clause: fatal, the first absent channel, the last present one unbound, a broken context. -/
theorem witness_CommonChecksInOrder :
    (∃ (i : Instr) (ch : Chan) (s : State), i.chan? = some ch ∧ s.status.fatal = true) ∧
    (∃ (i : Instr) (s : State), i.chan? = some 2 ∧ s.status.fatal = false ∧ s.cfg.nch ≤ (2 : Chan).val) ∧
    (∃ (i : Instr) (s : State), i.chan? = some 1 ∧ i ∈ [Instr.fwd 1, .adapt 1, .inv 1, .drain 1, .peek 1] ∧
      ChannelReady 1 s ∧ (s.ctx 1).valid = false) ∧
    (∃ (i : Instr) (s : State), i.chan? = some 0 ∧ i ∈ [Instr.fwd 0, .adapt 0, .inv 0, .drain 0, .peek 0] ∧
      ChannelReady 0 s ∧ (s.ctx 0).valid = true ∧ ¬ s.CtxInv 0 (s.ctx 0)) :=
  ⟨⟨.fwd 0, 0, fatalPending 0#32, by decide⟩, ⟨.free 2, State.reset, by decide⟩,
    ⟨.peek 1, State.reset, by decide⟩,
    ⟨.drain 0, broken, rfl, by decide, by decide, by decide, by decide +kernel⟩⟩

theorem witness_ContextCommandChecksInOrder : ∃ (ch : Chan) (s : State), ChannelReady ch s :=
  ⟨1, State.reset, by decide⟩

/-- For the statements whose only hypothesis is a bound context: one of each direction. -/
theorem witness_ForwardChecksInOrder :
    ContextReady 0 fresh ∧ ContextReady 0 (State.reset.setCtx 0 (ctxOf .fwd 0 8 4 3 0 4 1 2)) ∧
      ContextReady 1 (pendingThree 100 10) :=
  ⟨ready (by decide +kernel), ready (by decide +kernel), ready (by decide +kernel)⟩

theorem witness_InverseChecksInOrder : ContextReady 0 fresh ∧ ContextReady 1 (inverseB 1 0 72) :=
  ⟨ready (by decide +kernel), ready (by decide +kernel)⟩

theorem witness_CopyChecksInOrder : ContextReady 1 (pendingThree 100 10) := ready (by decide +kernel)

theorem witness_GlobalCommandChecksInOrder : ∃ s : State, s.status.fatal = false :=
  ⟨State.reset, by decide⟩

theorem witness_CodesOfEachCommand : ∃ (i : Instr) (s t : State), exec i s = .next t :=
  ⟨.gain, State.reset, _, rfl⟩

theorem witness_FatalStateRefusesCommands :
    (∃ s : State, s.status.fatal = true) ∧
    (∃ s t : State, complete s = .next t ∧ t.status.code = .eInternal) := by
  refine ⟨⟨fatalPending 0#32, by decide⟩,
    ⟨{ broken with latch := 0x1B000000#32, status := (pending 0#32).status }, ?_⟩⟩
  obtain ⟨t, h, hp⟩ := next_of_holds (p := fun t => t.status.code == .eInternal)
    (o := complete { broken with latch := 0x1B000000#32, status := (pending 0#32).status })
    (by decide +kernel)
  exact ⟨t, h, by simpa using hp⟩

/-- Both ways: into the fatal state, and out of it by each reset. -/
theorem witness_FatalStateLeftOnlyByReset :
    (∃ s t : State, step s = .next t ∧ s.status.fatal = false ∧ t.status.fatal = true) ∧
    (∃ s t : State, step s = .next t ∧ s.status.fatal = true ∧ t.status.fatal = false) := by
  refine ⟨⟨broken.withFetchWord 32 0x1B000000, ?_⟩,
    ⟨{ fatalPending 0#32 with turns := [.rst] }, _, rfl, rfl, rfl⟩⟩
  obtain ⟨t, h, hp⟩ := next_of_holds (p := fun t => t.status.fatal)
    (o := step (broken.withFetchWord 32 0x1B000000)) (by decide +kernel)
  exact ⟨t, h, by decide, hp⟩

theorem witness_InterruptBitsAndLevel : ∃ s t : State, complete s = .next t :=
  ⟨pending 0#32, _, rfl⟩

theorem witness_NopResult : ∃ s : State, s.status.fatal = false := ⟨State.reset, by decide⟩

/-- The whole of OVMEM, `TLMAX` at its limit (section 2.3, row 14). -/
theorem witness_InitResult : ∃ (ch : Chan) (s : State), ChannelReady ch s ∧ InitOk ch s :=
  ⟨1, withArgs State.reset [0, 2048, 1024], by decide +kernel⟩

theorem witness_FreeResult : ∃ (ch : Chan) (s : State), ChannelReady ch s := ⟨0, State.reset, by decide⟩

theorem witness_CtxldResult :
    ∃ (ch : Chan) (s : State), ChannelReady ch s ∧ s.CtxInv ch (ctxldImage s) :=
  ⟨0, withArgs State.reset [0, 8, 4, 2, 6, 4094, 4, 1, 2], by decide +kernel⟩

theorem witness_CtxldRestoresSavedImage :
    ∃ s : State, ContextReady 0 s ∧ s.arg 0 = (s.ctx 0).ovBase ∧ s.arg 1 = (s.ctx 0).ovSize ∧
      s.arg 2 = (s.ctx 0).tlMax ∧ (s.arg 3).toNat = (s.ctx 0).dir.bits.toNat ∧ s.arg 4 = (s.ctx 0).fill ∧
      s.arg 5 = (s.ctx 0).prevWrs ∧ s.arg 6 = (s.ctx 0).prevTl ∧ s.arg 7 = (s.ctx 0).prevNr ∧
      s.arg 8 = (s.ctx 0).prevFr :=
  ⟨withArgs (State.reset.setCtx 0 (ctxOf .inv 0 8 4 6 4094 4 1 2)) [0, 8, 4, 2, 6, 4094, 4, 1, 2],
    ready (by decide +kernel), by decide +kernel⟩

/-- A power of two at the limit, and a length that is none. -/
theorem witness_GainResult :
    (∃ (s : State) (L : Nat), s.status.fatal = false ∧ LegalTl (s.uarg 2) s.cfg.tlMax ∧
      2 ^ L ≤ s.uarg 2 ∧ s.uarg 2 < 2 ^ (L + 1) ∧ s.uarg 2 = 2 ^ L) ∧
    (∃ (s : State) (L : Nat), s.status.fatal = false ∧ LegalTl (s.uarg 2) s.cfg.tlMax ∧
      2 ^ L ≤ s.uarg 2 ∧ s.uarg 2 < 2 ^ (L + 1) ∧ s.uarg 2 ≠ 2 ^ L) :=
  ⟨⟨withArgs State.reset [0, 0, 1024], 10, by decide +kernel⟩,
    ⟨withArgs State.reset [0, 0, 6], 2, by decide +kernel⟩⟩

theorem witness_GainIsNormalisedReciprocal :
    ∃ tl : Nat, 2 ≤ tl ∧ tl ≤ 32768 := ⟨32768, by decide⟩

theorem witness_ForwardBlockResult : ∃ (ch : Chan) (s : State), ContextReady ch s ∧ FwdOk ch s :=
  ⟨0, forwardA, ready (by decide +kernel), by decide +kernel⟩

theorem witness_ForwardNeverSaturates :
    (∃ (ch : Chan) (s t : State), exec (.fwd ch) s = .next t) ∧
    (∃ (ch : Chan) (s : State), ContextReady ch s ∧ FwdOk ch s ∧ 0 < (fwdOperands s).tl) := by
  obtain ⟨t, h, -⟩ := next_of_holds (p := fun t => t.status.code == .ok) (o := exec (.fwd 0) forwardA)
    (by decide +kernel)
  exact ⟨⟨0, forwardA, t, h⟩, ⟨0, forwardA, ready (by decide +kernel), by decide +kernel⟩⟩

/-- The four cases of `ADAPT`. -/
theorem witness_AdaptResult :
    (∃ s : State, ContextReady 0 s ∧ AdaptOk 0 s ∧ (s.ctx 0).dir = .none) ∧
    (∃ s : State, ContextReady 0 s ∧ AdaptOk 0 s ∧ (s.ctx 0).dir = .inv ∧
      s.uarg 0 = (s.ctx 0).prevFr.toNat) ∧
    (∃ s : State, ContextReady 0 s ∧ AdaptOk 0 s ∧ (s.ctx 0).dir = .inv ∧
      s.uarg 0 < (s.ctx 0).prevFr.toNat) ∧
    (∃ s : State, ContextReady 0 s ∧ AdaptOk 0 s ∧ (s.ctx 0).dir = .inv ∧
      (s.ctx 0).prevFr.toNat < s.uarg 0) :=
  ⟨⟨withArgs fresh [2, 0, 4, 10, 4], ready (by decide +kernel), by decide +kernel⟩,
    ⟨withArgs (State.reset.setCtx 0 (ctxOf .inv 0 8 4 0 10 4 1 2)) [2, 0, 4, 20, 4], ready (by decide +kernel), by decide +kernel⟩,
    ⟨withArgs (State.reset.setCtx 0 (ctxOf .inv 0 8 4 0 10 4 1 2)) [0, 0, 4, 30, 4], ready (by decide +kernel), by decide +kernel⟩,
    ⟨withArgs (State.reset.setCtx 0 (ctxOf .inv 0 8 4 0 30 4 2 0)) [4, 0, 4, 40, 4], ready (by decide +kernel), by decide +kernel⟩⟩

/-- Two blocks in one call: `inverseB` with a second spectrum and its scale word. -/
def twoBlocks : State :=
  ((withWords (withWords (inverseB 8 0 72) .dm 40 [0x01000000, 0xFF000000, 0x00800000, 0]) .dm 50 [1]).setArg 1
    49#32).setArg 2 2#32

/-- One block, and two. -/
theorem witness_InverseBlocksResult :
    (∃ (ch : Chan) (s : State), ContextReady ch s ∧ InvOk ch s) ∧
    (∃ (ch : Chan) (s : State), ContextReady ch s ∧ InvOk ch s ∧ (invOperands s).nspec = 2) :=
  ⟨⟨1, inverseB 1 0 72, ready (by decide +kernel), by decide +kernel⟩,
    ⟨1, twoBlocks, ready (by decide +kernel), by decide +kernel, by decide +kernel⟩⟩

theorem witness_InverseIgnoresLeftWindowOperand :
    ∃ (ch : Chan) (s t : State), exec (.inv ch) s = .next t ∧ t.status.code = .ok := by
  obtain ⟨t, h, hp⟩ := next_of_holds (p := fun t => t.status.code == .ok)
    (o := exec (.inv 1) (inverseB 1 0 72)) (by decide +kernel)
  exact ⟨1, _, t, h, by simpa using hp⟩

theorem witness_DrainResult : ∃ (ch : Chan) (s : State), ContextReady ch s ∧ DrainOk ch s :=
  ⟨1, pendingThree 110 2, ready (by decide +kernel), by decide +kernel⟩

theorem witness_PeekResult :
    ∃ (ch : Chan) (s : State), ContextReady ch s ∧ PeekOk ch s ∧
      (s.ctx ch).fill.toNat < peekCount ch s :=
  ⟨1, flatTailState 0xE0000000, ready (by decide +kernel), by decide +kernel⟩

theorem witness_SamplesAreConserved :
    (∃ (ch : Chan) (s t : State), ContextReady ch s ∧ exec (.inv ch) s = .next t ∧ t.status.code = .ok) ∧
    (∃ (ch : Chan) (s t : State),
      ContextReady ch s ∧ exec (.drain ch) s = .next t ∧ t.status.code = .ok) := by
  obtain ⟨t, h, hp⟩ := next_of_holds (p := fun t => t.status.code == .ok)
    (o := exec (.inv 1) (inverseB 1 0 72)) (by decide +kernel)
  obtain ⟨u, h', hp'⟩ := next_of_holds (p := fun t => t.status.code == .ok)
    (o := exec (.drain 1) (pendingThree 110 2)) (by decide +kernel)
  exact ⟨⟨1, _, t, ready (by decide +kernel), h, by simpa using hp⟩,
    ⟨1, _, u, ready (by decide +kernel), h', by simpa using hp'⟩⟩

/-- `pendingThree` with the spectrum, the exponent and the slope tables of 2.6 c in place, so that `PEEK`,
`DRAIN` and `INV` all complete. -/
def threeAndBlock : State :=
  { inverseB 0 0 72 with
    ctxs := (pendingThree 100 10).ctxs, ovmem := (pendingThree 100 10).ovmem
    args := (pendingThree 100 10).args }

/-- `PEEK` on channel 1 and then command `i` with other arguments, both `OK`, both answering more than `n`. -/
def peekThenB (i : Instr) (s : State) (args : Vector Word 16) (n : Nat) : Bool :=
  holds (exec (.peek 1) s) fun t => (t.status.code == .ok && decide (n < t.ret.toNat)) &&
    holds (exec i { t with args := args }) fun r => r.status.code == .ok && decide (n < r.ret.toNat)

theorem peekThen {i : Instr} {s : State} {args : Vector Word 16} {n : Nat}
    (h : peekThenB i s args n = true) :
    ∃ t r, exec (.peek 1) s = .next t ∧ t.status.code = .ok ∧ n < t.ret.toNat ∧
      exec i { t with args := args } = .next r ∧ r.status.code = .ok ∧ n < r.ret.toNat := by
  obtain ⟨t, ht, hp⟩ := next_of_holds h
  rw [Bool.and_eq_true] at hp
  obtain ⟨r, hr, hq⟩ := next_of_holds hp.2
  simp only [Bool.and_eq_true, beq_iff_eq, decide_eq_true_eq] at hp hq
  exact ⟨t, r, ht, hp.1.1, hp.1.2, hr, hq⟩

/-- For `DRAIN` two pending words, for `INV` three; then `INV` with a word of the flat tail (`PREV_NR = 1`). -/
theorem witness_PeekShowsWhatIsDelivered :
    (∃ (s t u r : State) (args : Vector Word 16), ContextReady 1 s ∧ exec (.peek 1) s = .next t ∧
      t.status.code = .ok ∧ u = { t with args := args } ∧ exec (.drain 1) u = .next r ∧
      r.status.code = .ok ∧ 1 < (s.ctx 1).fill.toNat ∧ 1 < t.ret.toNat ∧ 1 < r.ret.toNat) ∧
    (∃ (s t u r : State) (args : Vector Word 16), ContextReady 1 s ∧ exec (.peek 1) s = .next t ∧
      t.status.code = .ok ∧ u = { t with args := args } ∧ exec (.inv 1) u = .next r ∧
      r.status.code = .ok ∧ 2 < t.ret.toNat ∧ 2 < r.ret.toNat) ∧
    (∃ (s t u r : State) (args : Vector Word 16), ContextReady 1 s ∧ exec (.peek 1) s = .next t ∧
      t.status.code = .ok ∧ u = { t with args := args } ∧ exec (.inv 1) u = .next r ∧
      r.status.code = .ok ∧ 0 < (s.ctx 1).prevNr.toNat ∧ (s.ctx 1).fill.toNat < t.ret.toNat ∧
      (s.ctx 1).fill.toNat < r.ret.toNat) := by
  refine ⟨?_, ?_, ?_⟩
  · obtain ⟨t, r, h, ht, hn, h', hr, hm⟩ :=
      peekThen (i := .drain 1) (s := threeAndBlock) (args := (pendingThree 110 2).args) (n := 1)
        (by decide +kernel)
    exact ⟨_, t, _, r, _, ready (by decide +kernel), h, ht, rfl, h', hr, by decide +kernel, hn, hm⟩
  · obtain ⟨t, r, h, ht, hn, h', hr, hm⟩ :=
      peekThen (i := .inv 1) (s := threeAndBlock) (args := ((inverseB 4 0 110).setArg 6 4#32).args) (n := 2)
        (by decide +kernel)
    exact ⟨_, t, _, r, _, ready (by decide +kernel), h, ht, rfl, h', hr, hn, hm⟩
  · obtain ⟨t, r, h, ht, hn, h', hr, hm⟩ :=
      peekThen (i := .inv 1) (s := { inverseB 4 0 110 with args := (pendingThree 100 10).args })
        (args := (inverseB 4 0 110).args) (n := 0) (by decide +kernel)
    have hf : (({ inverseB 4 0 110 with args := (pendingThree 100 10).args } : State).ctx 1).fill.toNat = 0 := by
      decide +kernel
    exact ⟨{ inverseB 4 0 110 with args := (pendingThree 100 10).args }, t, _, r, _,
      ready (by decide +kernel), h, ht, rfl, h', hr, by decide +kernel, hf ▸ hn, hf ▸ hm⟩

/-- One block of 4 samples, delivered as 1 and 3, or at once. -/
theorem witness_SplittingDeliveryKeepsSamples :
    ∃ (ch : Chan) (s t r all : State) (n : Nat), s.cfg.Valid ∧ ContextReady ch s ∧
      n ≤ invTotal (invOperands s) (s.ctx ch) ∧ invTotal (invOperands s) (s.ctx ch) < 2 ^ 31 ∧
      exec (.inv ch) (s.setArg 3 (w32n n)) = .next t ∧ t.status.code = .ok ∧
      exec (.drain ch) ((t.setArg 0 (w32n (s.uarg 11 + n))).setArg 1
        (w32n (invTotal (invOperands s) (s.ctx ch) - n))) = .next r ∧ r.status.code = .ok ∧
      exec (.inv ch) (s.setArg 3 (w32n (invTotal (invOperands s) (s.ctx ch)))) = .next all ∧
      all.status.code = .ok ∧ 0 < invTotal (invOperands s) (s.ctx ch) := by
  obtain ⟨t, h, hp⟩ := next_of_holds (o := exec (.inv 1) ((inverseB 0 0 72).setArg 3 (w32n 1)))
    (p := fun t => t.status.code == .ok &&
      holds (exec (.drain 1) ((t.setArg 0 (w32n ((inverseB 0 0 72).uarg 11 + 1))).setArg 1
        (w32n (invTotal (invOperands (inverseB 0 0 72)) ((inverseB 0 0 72).ctx 1) - 1)))) (fun r =>
          r.status.code == .ok)) (by decide +kernel)
  simp only [Bool.and_eq_true, beq_iff_eq] at hp
  obtain ⟨r, h', hp'⟩ := next_of_holds hp.2
  obtain ⟨all, h'', hp''⟩ := next_of_holds (p := fun t => t.status.code == .ok)
    (o := exec (.inv 1) ((inverseB 0 0 72).setArg 3
      (w32n (invTotal (invOperands (inverseB 0 0 72)) ((inverseB 0 0 72).ctx 1))))) (by decide +kernel)
  exact ⟨1, _, t, r, all, 1, by decide +kernel, ready (by decide +kernel), by decide +kernel,
    by decide +kernel, h, hp.1, h', by simpa using hp', h'', by simpa using hp'', by decide +kernel⟩

/-- All operands at their limits. -/
theorem witness_RcinitResult : ∃ s : State, s.status.fatal = false ∧ RcinitOk s :=
  ⟨withArgs State.reset [0x7FFFFFFF, 0, 0x7FFFFFFF, 0x7FFFFFFF, 0x7FFFFFFF, 0x7FFFFFFF], by decide +kernel⟩

theorem witness_RcallowResult :
    ∀ m : Bool, ∃ s : State, s.status.fatal = false ∧ s.rc.valid = true ∧
      (if m then s.rc.avg.toNat else s.uarg 0) < 2 ^ 31 :=
  fun m => ⟨withArgs (reservoir 731) [0x7FFFFFFF], by cases m <;> decide +kernel⟩

theorem witness_AllowanceIsBoundedAndMonotone :
    ∃ (r : RateCtl) (b b' : Nat) (l' : Word),
      r.valid = true ∧ r.Ok ∧ b ≤ b' ∧ r.level.toNat ≤ l'.toNat :=
  ⟨(reservoir 731).rc, 0, 5000, 6144#32, by decide +kernel⟩

/-- The three cases of the update. -/
theorem witness_RcupdResult :
    (∃ s : State, s.status.fatal = false ∧ s.rc.valid = true ∧ s.rc.avg.toNat < 2 ^ 31 ∧
      s.uarg 1 < 2 ^ 31 ∧ (s.rc.level.toNat : Int) + s.rc.avg.toNat - s.uarg 1 < 0) ∧
    (∃ s : State, s.status.fatal = false ∧ s.rc.valid = true ∧ s.rc.avg.toNat < 2 ^ 31 ∧
      s.uarg 1 < 2 ^ 31 ∧ (s.rc.size.toNat : Int) < (s.rc.level.toNat : Int) + s.rc.avg.toNat - s.uarg 1) ∧
    (∃ s : State, s.status.fatal = false ∧ s.rc.valid = true ∧ s.uarg 0 < 2 ^ 31 ∧ s.uarg 1 < 2 ^ 31 ∧
      (s.rc.level.toNat : Int) + s.uarg 0 - s.uarg 1 = 0) :=
  ⟨⟨withArgs (reservoir 731) [0, 10000], by decide +kernel⟩,
    ⟨withArgs (reservoir 5462) [0, 0], by decide +kernel⟩,
    ⟨withArgs (reservoir 731) [100, 831], by decide +kernel⟩⟩

theorem witness_ReservoirStaysInBounds : ∃ s t : State, s.rc.Ok ∧ step s = .next t :=
  ⟨State.reset, State.reset, by decide, rfl⟩

theorem witness_BusyPortServesOnlyStatus :
    (∃ (a : HostAccess) (s : State), s.status.busy = true ∧ a = .read 0x24#32 4) ∧
    (∃ (a : HostAccess) (s : State), s.status.busy = true ∧ a ≠ .read 0x24#32 4) :=
  ⟨⟨.read 0x24#32 4, pending 0#32, by decide⟩, ⟨.read 0x24#32 2, pending 0#32, by decide⟩⟩

/-- Every clause at both ends of its range, for the default configuration. -/
theorem witness_BadAccessAnswersError :
    State.reset.cfg.Valid ∧ (2 ≠ 4) ∧ (∀ a ∈ [0x41, 0x42, 0x43], a % 4 ≠ 0) ∧
    (∀ a ∈ [0x9C, 0x3FC], 0x9C ≤ a ∧ a < 0x400) ∧
    (∀ a ∈ [0x480, 0xFFFFC], 0x400 + 0x40 * State.reset.cfg.nch ≤ a ∧ a < 0x100000) ∧
    (∀ a ∈ [0x108000, 0x1FFFFC], 0x100000 + 4 * State.reset.cfg.dmWords ≤ a ∧ a < 0x200000) ∧
    (∀ a ∈ [0x204000, 0x2FFFFC], 0x200000 + 4 * State.reset.cfg.wmWords ≤ a ∧ a < 0x300000) ∧
    (∀ a ∈ [0x302000, 0xFFFFFFFC], 0x300000 + 4 * State.reset.cfg.ovWords ≤ a) := by decide +kernel

/-- Every clause at both ends of its range, for the default configuration. -/
theorem witness_HostAccessRights :
    State.reset.cfg.Valid ∧ State.reset.status.busy = false ∧
    (∀ a ∈ [0x00, 0x1C, 0x24, 0x28, 0x38, 0x80, 0x98, 0x400, 0x47C], a % 4 = 0 ∧
      (a < 0x20 ∨ a = 0x24 ∨ a = 0x28 ∨ a = 0x38 ∨ (0x80 ≤ a ∧ a < 0x9C) ∨
        (0x400 ≤ a ∧ a < 0x400 + 0x40 * State.reset.cfg.nch))) := by decide +kernel

/-- Of the default configuration, and the last channel it has, with the first and the last unused offset; a
code and a direction of each kind of the tables occur. -/
theorem witness_HostReadsEveryRegister :
    ∃ s : State, s.cfg.Valid ∧ s.status.busy = false ∧ (1 : Chan).val < s.cfg.nch ∧
      ¬ (2 : Chan).val < s.cfg.nch ∧ (∀ k ∈ [9, 15], 9 ≤ k ∧ k ≤ 15) ∧ s.status.code = .eDir ∧
      (s.ctx 0).dir = .inv ∧ (s.ctx 1).dir = .fwd :=
  ⟨{ (State.reset.setCtx 0 (ctxOf .inv 0 8 4 6 4094 4 1 2)).setCtx 1 (ctxOf .fwd 16 8 4 3 0 4 1 2) with
      status := { State.reset.status with code := .eDir } }, by decide⟩

/-- The first and the last word of each memory. -/
theorem witness_HostMemoryReadAfterWrite :
    ∃ s : State, s.cfg.Valid ∧ s.status.busy = false ∧
      ∀ p ∈ [(Space.dm, 0), (.dm, 8191), (.wm, 0), (.wm, 4095), (.ov, 0), (.ov, 2047)],
        p.2 < s.cfg.words p.1 :=
  ⟨State.reset, by decide⟩

theorem witness_HostWritesOfFlagsAndInterrupts : ∃ s : State, s.status.busy = false :=
  ⟨State.reset, by decide⟩

theorem witness_HostIssuesCommandAndWritesArguments : ∃ s : State, s.status.busy = false :=
  ⟨State.reset, by decide⟩

theorem witness_SoftResetKeepsMemories :
    (∃ (s : State) (v : Word), s.status.busy = false ∧ v.getLsbD 0 = true) ∧
    (∃ (s : State) (v : Word), s.status.busy = false ∧ v.getLsbD 0 = false) ∧
    (∃ s : State, s.status.busy = true) :=
  ⟨⟨forwardA, 0xFFFFFFFF#32, by decide +kernel⟩, ⟨forwardA, 0xFFFFFFFE#32, by decide +kernel⟩,
    ⟨pending 0#32, by decide⟩⟩

/-- While a command is pending, too. -/
theorem witness_HardResetClearsRegisters :
    ∃ s t : State, s.status.busy = true ∧ (∃ rest, s.turns = .rst :: rest) ∧ step s = .next t :=
  ⟨{ pending 0x1A000100#32 with turns := [.rst] }, _, rfl, ⟨[], rfl⟩, rfl⟩

theorem witness_CommandsWriteOnlyTheirMemories :
    (∃ (i : Instr) (s t : State), exec i s = .next t ∧
      ∀ ch, i ≠ .init ch ∧ i ≠ .fwd ch ∧ i ≠ .inv ch ∧ i ≠ .drain ch) ∧
    (∃ (i : Instr) (s t : State), exec i s = .next t ∧
      ∀ ch, i ≠ .fwd ch ∧ i ≠ .inv ch ∧ i ≠ .drain ch ∧ i ≠ .peek ch) := by
  obtain ⟨t, h, -⟩ := next_of_holds (p := fun t => t.status.code == .ok)
    (o := exec (.peek 1) (pendingThree 100 10)) (by decide +kernel)
  obtain ⟨u, h', -⟩ := next_of_holds (p := fun t => t.status.code == .ok)
    (o := exec (.init 1) (withArgs State.reset [0, 8, 4])) (by decide +kernel)
  exact ⟨⟨_, _, t, h, by simp⟩, ⟨_, _, u, h', by simp⟩⟩

/-- Two valid contexts side by side. -/
def neighbours : State := (inverseB 1 0 72).setCtx 0 (ctxOf .fwd 16 8 4 3 0 4 1 2)

/-- The words of `neighbours` are in canonical form and inside the memories. -/
theorem neighbours_inv : neighbours.Inv := by
  refine ⟨by decide +kernel, ⟨by decide +kernel, by decide +kernel, by decide +kernel⟩, by decide +kernel,
    fun sp => ?_⟩
  cases sp <;> exact ⟨by decide +kernel, by decide +kernel⟩

theorem witness_ChannelsAreIsolated :
    ∃ (i : Instr) (ch o : Chan) (s t : State),
      s.Inv ∧ exec i s = .next t ∧ i.chan? = some ch ∧ o ≠ ch ∧ (s.ctx o).valid = true := by
  obtain ⟨t, h, -⟩ := next_of_holds (p := fun t => t.status.code == .ok)
    (o := exec (.inv 1) neighbours) (by decide +kernel)
  exact ⟨.inv 1, 1, 0, _, t, neighbours_inv, h, rfl, by decide, by decide +kernel⟩

/-- The first and the last of the scratch registers. -/
theorem witness_ScratchArgumentsAreUntouched :
    ∃ (i : Instr) (s t : State), exec i s = .next t ∧ 12 ≤ (12 : Fin 16).val ∧ 12 ≤ (15 : Fin 16).val :=
  ⟨.gain, State.reset, _, rfl, by decide⟩

theorem witness_StepKeepsInvariant :
    ∃ s t : State, s.Inv ∧ step s = .next t ∧ t.status.code = .ok ∧ t.ret = 1#32 := by
  obtain ⟨t, h, hp⟩ := next_of_holds (p := fun t => t.status.code == .ok && t.ret == 1#32)
    (o := step { neighbours with latch := 0x1A000100#32, status := (pending 0#32).status })
    (by decide +kernel)
  simp only [Bool.and_eq_true, beq_iff_eq] at hp
  exact ⟨{ neighbours with latch := 0x1A000100#32, status := (pending 0#32).status }, t, neighbours_inv, h,
    hp⟩

/-- The smallest and the largest number of channels. -/
theorem witness_InvariantHoldsAfterReset :
    ({ Config.default with nch := 1 } : Config).Valid ∧ ({ Config.default with nch := 16 } : Config).Valid := by
  decide

theorem witness_FatalStateIsUnreachable :
    ∃ s t : State, s.Inv ∧ s.status.fatal = false ∧ step s = .next t :=
  ⟨neighbours, _, neighbours_inv, by decide +kernel, rfl⟩

/-- Both ends of the range that rounds to 0. -/
theorem witness_RoundingShift :
    (∃ v s : Int, 0 < s ∧ -(2 : ℚ) ^ (s - 1) ≤ (v : ℚ) ∧ (v : ℚ) < (2 : ℚ) ^ (s - 1) ∧ v = -1) ∧
    (∃ v s : Int, 0 < s ∧ -(2 : ℚ) ^ (s - 1) ≤ (v : ℚ) ∧ (v : ℚ) < (2 : ℚ) ^ (s - 1) ∧ v = 0) ∧
    (∃ s : Int, s ≤ 0) ∧
    (∃ v : Int, 2 ^ 31 - 1 < v ∧ v = 2 ^ 31) ∧ (∃ v : Int, v < -2 ^ 31 ∧ v = -2 ^ 31 - 1) ∧
    (∀ v ∈ [(-2) ^ 31, 2 ^ 31 - 1], -2 ^ 31 ≤ v ∧ v ≤ (2 ^ 31 - 1 : Int)) ∧
    (∃ v lo hi : Int, v < lo ∧ lo ≤ hi) ∧ (∃ v lo hi : Int, lo ≤ v ∧ hi < v) ∧
    (∃ v lo hi : Int, lo ≤ v ∧ v ≤ hi) :=
  ⟨⟨-1, 1, by norm_num⟩, ⟨0, 1, by norm_num⟩, ⟨-2, by decide⟩, ⟨_, by decide, rfl⟩, ⟨_, by decide, rfl⟩,
    by decide, ⟨-1, 0, 0, by decide⟩, ⟨1, 0, 0, by decide⟩, ⟨0, 0, 0, by decide⟩⟩

theorem witness_IntegerLogarithms : ∃ n c : Nat, 1 ≤ n ∧ n ≤ 2 ^ c ∧ 2 ^ c ≤ n := ⟨1024, 10, by decide⟩

theorem witness_RomSymmetries : ∃ (N : Nat) (m : Int), 2 ≤ N ∧ N % 2 = 0 ∧ m % 2 = 1 :=
  ⟨2, -3, by decide⟩

theorem witness_RomApproximatesCosine :
    ∃ (N : Nat) (m : Int), 2 ≤ N ∧ N % 2 = 0 ∧ N ≤ 32768 ∧ m % 2 = 1 :=
  ⟨32768, 65535, by decide⟩

end Sys2Proof.Tests
end

section
/-! # One step, and one access of the host port

How `step` takes each turn, what an idle port does with an access once its address is located, and the package
"a property that every turn keeps, every step keeps" (spec/10_state.md R10, spec/20_memory.md R36 to R40). -/

namespace Sys2Proof.Machine

variable {s t : State} {rest : List Turn}

/-! ## The turns -/

theorem step_host {a : HostAccess} (h : s.turns = .host a :: rest) :
    step s = .next (serve a { s with turns := rest }) := by
  simp only [step, h]

theorem step_rst (h : s.turns = .rst :: rest) : step s = .next (hardReset { s with turns := rest }) := by
  simp only [step, h]

theorem step_engine (h : s.turns = .engine :: rest) : step s = engineTurn { s with turns := rest } := by
  simp only [step, h]

theorem step_no_turn (h : s.turns = []) : step s = engineTurn s := by
  simp only [step, h]

theorem engineTurn_busy (h : s.status.busy = true) : engineTurn s = complete s := if_pos h

theorem engineTurn_idle (h : s.status.busy = false) : engineTurn s = .next s := if_neg (by simp [h])

theorem complete_of_decode {i : Instr} (h : decode s.latch = .ok i) : complete s = exec i s := by
  simp only [complete, latched, h]

/-- What taking a turn, every host access, the hard reset and every complete step keep, every step keeps. -/
theorem step_keeps {P : State → Prop} (hturns : ∀ s rest, P s → P { s with turns := rest })
    (hserve : ∀ a s, P s → P (serve a s)) (hreset : ∀ s, P s → P (hardReset s))
    (hcomplete : ∀ s t, P s → complete s = .next t → P t) (hs : P s) (h : step s = .next t) : P t := by
  have hengine : ∀ s, P s → engineTurn s = .next t → P t := by
    intro s hs h
    cases hb : s.status.busy
    · rw [engineTurn_idle hb] at h; cases h; exact hs
    · rw [engineTurn_busy hb] at h; exact hcomplete s t hs h
  rcases ht : s.turns with _ | ⟨turn, rest⟩
  · rw [step_no_turn ht] at h; exact hengine s hs h
  · have hs' := hturns s rest hs
    cases turn with
    | host a => rw [step_host ht] at h; cases h; exact hserve a _ hs'
    | engine => rw [step_engine ht] at h; exact hengine _ hs' h
    | rst => rw [step_rst ht] at h; cases h; exact hreset _ hs'

/-! ## An access of an idle port -/

theorem reach_idle {addr : Word} {isRead : Bool} {l : Loc} (hb : s.status.busy = false)
    (hl : locate s.cfg addr.toNat = some l) : reach s isRead addr 4 = some l := by
  simp [reach, hl, hb]

theorem serve_read {addr : Word} {l : Loc} (hb : s.status.busy = false)
    (hl : locate s.cfg addr.toNat = some l) :
    serve (.read addr 4) s = { s with resp := some (.okayData (readLoc s l)) } := by
  simp only [serve, reach_idle hb hl]

theorem serve_write {addr : Word} {l : Loc} (hb : s.status.busy = false)
    (hl : locate s.cfg addr.toNat = some l) (v : Word) :
    serve (.write addr 4 v) s = { writeLoc s l v with resp := some .okay } := by
  simp only [serve, reach_idle hb hl]

/-! ## The address map of the registers -/

theorem locate_low {c : Config} {k : Nat} (hk : k < 39) : locate c (4 * k) = some (lowRegister c k) := by
  unfold locate
  rw [if_neg (by omega), if_pos (by omega), Nat.mul_div_cancel_left k (by decide)]

/-- A write of the register of word index `k`, below the hole at `0x9C`. -/
theorem serve_write_low {k : Nat} (hb : s.status.busy = false) (hk : k < 39) (v : Word) :
    serve (.write (w32n (4 * k)) 4 v) s =
      { writeLoc s (lowRegister s.cfg k) v with resp := some .okay } := by
  refine serve_write hb ?_ v
  rw [BitVec.toNat_ofNat, Nat.mod_eq_of_lt (by omega), locate_low hk]

theorem lowRegister_arg (c : Config) (i : Fin 16) : lowRegister c (16 + i.val) = .arg i := by
  fin_cases i <;> rfl

theorem locate_arg (c : Config) (i : Fin 16) : locate c (0x40 + 4 * i.val) = some (.arg i) := by
  rw [show 0x40 + 4 * i.val = 4 * (16 + i.val) by omega, locate_low (by omega), lowRegister_arg]

theorem locate_ctx {c : Config} {ch : Chan} {k : Nat} (hc : ch.val < c.nch) (hk : k < 16) :
    locate c (0x400 + 0x40 * ch.val + 4 * k) = some (.ctx ch (contextRegister k)) := by
  unfold locate
  rw [if_neg (by omega), if_neg (by omega), if_pos (by omega),
    show (0x400 + 0x40 * ch.val + 4 * k - 0x400) / 0x40 = ch.val by omega,
    show (0x400 + 0x40 * ch.val + 4 * k) % 0x40 / 4 = k by omega]
  simp

end Sys2Proof.Machine
end

section
/-! # The turns and the host port: O4, O5, O45, O47, O48 -/

namespace Sys2Proof.Machine

/-! ## The turns -/

/-- Settles O4: the engine's turn of a busy engine is its complete step, and that runs the decoded latch. -/
theorem stepRunsLatchedCommand : Obligations.StepRunsLatchedCommand := by
  intro s i rest hb hd
  constructor
  · intro ht
    exact (step_engine ht).trans ((engineTurn_busy (s := { s with turns := rest }) hb).trans
      (complete_of_decode hd))
  · intro ht
    rw [step_no_turn ht, engineTurn_busy hb, complete_of_decode hd]

/-- Settles O5: one equation of `step` for each turn. -/
theorem stepTakesNextTurn : Obligations.StepTakesNextTurn := by
  intro s rest
  refine ⟨fun a ht => step_host ht, fun ht => step_rst ht, fun hb ht => ?_, fun hb ht => ?_⟩
  · exact (step_engine ht).trans (engineTurn_idle (s := { s with turns := rest }) hb)
  · rw [step_no_turn ht, engineTurn_idle hb]

/-! ## Writes -/

theorem toNat_argAddr (i : Fin 16) : (argAddr i).toNat = 0x40 + 4 * i.val := by
  rw [argAddr, BitVec.toNat_ofNat, Nat.mod_eq_of_lt (by omega)]

/-- Settles O48: `CMD` and `A[i]` located in the address map, and what a write does there. -/
theorem hostIssuesCommandAndWritesArguments : Obligations.HostIssuesCommandAndWritesArguments := by
  intro s w hb
  constructor
  · have hcount : s.cmdCnt + 1#32 = w32n (s.cmdCnt.toNat + 1) := by
      apply BitVec.eq_of_toNat_eq; simp [BitVec.toNat_add]
    rw [← hcount]
    exact serve_write_low (k := 8) hb (by decide) w
  · intro i
    have hl : locate s.cfg (argAddr i).toNat = some (.arg i) := by rw [toNat_argAddr, locate_arg]
    rw [serve_write hb hl]
    rfl

theorem Flags.word_clear (f : Flags) (v : Word) : (f.clear v).word = f.word &&& ~~~v := by
  apply BitVec.eq_of_getLsbD_eq
  intro i hi
  simp only [BitVec.getLsbD_and, BitVec.getLsbD_not, Flags.getLsbD_word, Flags.clear, bitOf, hi]
  by_cases h : i = 0 ∨ i = 1 ∨ i = 2
  · rcases h with rfl | rfl | rfl <;> simp
  · obtain ⟨h0, h1, h2⟩ : i ≠ 0 ∧ i ≠ 1 ∧ i ≠ 2 := by omega
    simp [h0, h1, h2]

theorem IrqBits.word_clear (q : IrqBits) (v : Word) : (q.clear v).word = q.word &&& ~~~v := by
  apply BitVec.eq_of_getLsbD_eq
  intro i hi
  simp only [BitVec.getLsbD_and, BitVec.getLsbD_not, IrqBits.getLsbD_word, IrqBits.clear, bitOf, hi]
  by_cases h : i = 0 ∨ i = 1
  · rcases h with rfl | rfl <;> simp
  · obtain ⟨h0, h1⟩ : i ≠ 0 ∧ i ≠ 1 := by omega
    simp [h0, h1]

theorem getLsbD_three (i : Nat) : (3#32).getLsbD i = (decide (i = 0) || decide (i = 1)) := by
  rcases lt_or_ge i 32 with h | h
  · revert i; decide
  · rw [BitVec.getLsbD_of_ge _ _ h]
    simp [show i ≠ 0 by omega, show i ≠ 1 by omega]

theorem IrqBits.word_ofWord (v : Word) : (IrqBits.ofWord v).word = v &&& 3#32 := by
  apply BitVec.eq_of_getLsbD_eq
  intro i _
  simp only [BitVec.getLsbD_and, IrqBits.getLsbD_word, IrqBits.ofWord, bitOf, getLsbD_three]
  by_cases h : i = 0 ∨ i = 1
  · rcases h with rfl | rfl <;> simp
  · obtain ⟨h0, h1⟩ : i ≠ 0 ∧ i ≠ 1 := by omega
    simp [h0, h1]

/-- Settles O47: the words of `FLAGS`, `IRQSTAT` and `IRQEN` after a write, bit by bit. -/
theorem hostWritesOfFlagsAndInterrupts : Obligations.HostWritesOfFlagsAndInterrupts := by
  intro s v hb
  exact ⟨⟨_, serve_write_low (k := 11) hb (by decide) v, Flags.word_clear s.flags v⟩,
    ⟨_, serve_write_low (k := 13) hb (by decide) v, IrqBits.word_clear s.irqStat v⟩,
    ⟨_, serve_write_low (k := 12) hb (by decide) v, IrqBits.word_ofWord v⟩⟩

/-! ## Reads -/

section Reads

variable {s : State}

/-- The host's read of the word at byte address `addr` answers `v` and changes nothing else. -/
def State.Reads (s : State) (addr : Nat) (v : Word) : Prop :=
  serve (.read (w32n addr) 4) s = { s with resp := some (.okayData v) }

theorem reads_of_locate {addr : Nat} {l : Loc} (hb : s.status.busy = false) (ha : addr < 2 ^ 32)
    (hl : locate s.cfg addr = some l) : s.Reads addr (readLoc s l) := by
  refine serve_read hb ?_
  rwa [BitVec.toNat_ofNat, Nat.mod_eq_of_lt ha]

theorem reads_low (hb : s.status.busy = false) (k : Nat) (hk : k < 39 := by decide) :
    s.Reads (4 * k) (readLoc s (lowRegister s.cfg k)) :=
  reads_of_locate hb (by omega) (locate_low hk)

theorem reads_arg (hb : s.status.busy = false) (i : Fin 16) : s.Reads (0x40 + 4 * i.val) (s.arg i) :=
  reads_of_locate hb (by omega) (locate_arg s.cfg i)

theorem reads_ctx (hb : s.status.busy = false) {ch : Chan} (hc : ch.val < s.cfg.nch) (k : Nat)
    {addr : Nat} (hk : k < 16 := by decide) (ha : addr = 0x400 + 0x40 * ch.val + 4 * k := by omega) :
    s.Reads addr (readContext (s.ctx ch) (contextRegister k)) := by
  subst ha
  exact reads_of_locate hb (by omega) (locate_ctx hc hk)

end Reads

theorem contextRegister_unused {k : Nat} (h : 9 ≤ k) : contextRegister k = .unused := by
  obtain ⟨j, rfl⟩ := Nat.exists_eq_add_of_le' h
  rfl

/-- The fields of `STATUS` in the places of R15. -/
theorem Status.word_fields (t : Status) :
    t.word.extractLsb' 0 8 = t.code.byte ∧ t.word.extractLsb' 8 8 = t.lastOp ∧
    t.word.extractLsb' 16 4 = t.lastCh ∧ t.word.extractLsb' 20 10 = 0#10 ∧
    t.word.getLsbD 30 = t.fatal ∧ t.word.getLsbD 31 = t.busy := by
  obtain ⟨code, op, ch, fatal, busy⟩ := t
  simp only [Status.word]
  refine ⟨?_, ?_, ?_, ?_, ?_, ?_⟩
  · exact BitVec.extractLsb'_append_eq_right
  · rw [BitVec.extractLsb'_append_eq_of_le (by decide)]
    exact BitVec.extractLsb'_append_eq_right
  · rw [BitVec.extractLsb'_append_eq_of_le (by decide), BitVec.extractLsb'_append_eq_of_le (by decide)]
    exact BitVec.extractLsb'_append_eq_right
  · rw [BitVec.extractLsb'_append_eq_of_le (by decide), BitVec.extractLsb'_append_eq_of_le (by decide),
      BitVec.extractLsb'_append_eq_of_le (by decide)]
    exact BitVec.extractLsb'_append_eq_right
  · simp only [BitVec.getLsbD_append]
    simp
  · simp only [BitVec.getLsbD_append]
    simp

/-- The fields of `CTX_CTL` in the places of R20. -/
theorem Ctx.ctlWord_fields (x : Ctx) :
    x.ctlWord.getLsbD 0 = x.valid ∧ x.ctlWord.extractLsb' 1 2 = x.dir.bits ∧
    x.ctlWord.extractLsb' 3 29 = 0#29 := by
  simp only [Ctx.ctlWord]
  cases x.valid <;> cases x.dir <;> decide

/-- The fields of `FLAGS` in the places of R16. -/
theorem Flags.word_fields (f : Flags) :
    f.word.getLsbD 0 = f.sat ∧ f.word.getLsbD 1 = f.rcUf ∧ f.word.getLsbD 2 = f.rcOf ∧
    f.word.extractLsb' 3 29 = 0#29 := by
  refine ⟨by rw [Flags.getLsbD_word]; simp, by rw [Flags.getLsbD_word]; simp,
    by rw [Flags.getLsbD_word]; simp, ?_⟩
  rw [Flags.word, BitVec.extractLsb'_append_eq_of_le (by decide),
    BitVec.extractLsb'_append_eq_of_le (by decide)]
  exact BitVec.extractLsb'_append_eq_left

/-- The fields of `IRQEN` and `IRQSTAT` in the places of R17. -/
theorem IrqBits.word_fields (q : IrqBits) :
    q.word.getLsbD 0 = q.done ∧ q.word.getLsbD 1 = q.err ∧ q.word.extractLsb' 2 30 = 0#30 := by
  refine ⟨by rw [IrqBits.getLsbD_word]; simp, by rw [IrqBits.getLsbD_word]; simp, ?_⟩
  rw [IrqBits.word, BitVec.extractLsb'_append_eq_of_le (by decide)]
  exact BitVec.extractLsb'_append_eq_left

/-- `RC_CTL` is `VALID` in bit 0 (R24). -/
theorem RateCtl.toNat_ctlWord (r : RateCtl) : (readRate r .ctl).toNat = r.valid.toNat := by
  rw [readRate]
  cases r.valid <;> rfl

/-- The registers of the context of an existing channel stand in the order of R20. -/
theorem reads_context {s : State} (hb : s.status.busy = false) {c : Chan} (hc : c.val < s.cfg.nch) :
    s.Reads (0x400 + 0x40 * c.val) (s.ctx c).ctlWord ∧
    s.Reads (0x404 + 0x40 * c.val) (s.ctx c).ovBase ∧ s.Reads (0x408 + 0x40 * c.val) (s.ctx c).ovSize ∧
    s.Reads (0x40C + 0x40 * c.val) (s.ctx c).tlMax ∧ s.Reads (0x410 + 0x40 * c.val) (s.ctx c).fill ∧
    s.Reads (0x414 + 0x40 * c.val) (s.ctx c).prevWrs ∧ s.Reads (0x418 + 0x40 * c.val) (s.ctx c).prevTl ∧
    s.Reads (0x41C + 0x40 * c.val) (s.ctx c).prevNr ∧ s.Reads (0x420 + 0x40 * c.val) (s.ctx c).prevFr ∧
    (∀ k, 9 ≤ k → k ≤ 15 → s.Reads (0x400 + 0x40 * c.val + 4 * k) 0#32) := by
  refine ⟨reads_ctx hb hc 0, reads_ctx hb hc 1, reads_ctx hb hc 2, reads_ctx hb hc 3, reads_ctx hb hc 4,
    reads_ctx hb hc 5, reads_ctx hb hc 6, reads_ctx hb hc 7, reads_ctx hb hc 8, fun k h9 h15 => ?_⟩
  have hr := reads_ctx hb hc k (by omega) rfl
  rwa [contextRegister_unused h9] at hr

/-- Settles O45: every register located in the address map, and the fields of the words put together from
bits. -/
theorem hostReadsEveryRegister : Obligations.HostReadsEveryRegister := by
  intro s _ hb
  have low := @reads_low s hb
  obtain ⟨hcode, hop, hch, hunused, hfatal, hbusy⟩ := s.status.word_fields
  refine ⟨low 0, low 1, low 2, low 3, low 4, low 5, low 6, low 7,
    ⟨_, low 9, fun p hp he => (hcode.trans (congrArg Code.byte he)).trans ?_, hop, hch, hunused, hfatal,
      hbusy.trans hb⟩,
    low 10, ⟨_, low 11, s.flags.word_fields⟩, ⟨_, low 12, s.irqEn.word_fields⟩,
    ⟨_, low 13, s.irqStat.word_fields⟩, low 8, low 14, low 15, reads_arg hb,
    ⟨_, low 32, s.rc.toNat_ctlWord⟩, low 33, low 34, low 35, low 36, low 37, low 38, fun c hc => ?_⟩
  · clear he
    revert p
    decide
  · obtain ⟨hctl, hregs⟩ := reads_context hb hc
    obtain ⟨hvalid, hdir, hzero⟩ := (s.ctx c).ctlWord_fields
    refine ⟨⟨_, hctl, hvalid, hdir, hzero, fun p hp he => (hdir.trans (congrArg Dir.bits he)).trans ?_⟩,
      hregs⟩
    clear he
    revert p
    decide

end Sys2Proof.Machine
end

section
/-! # What the invariant reads, and who keeps it: O41, O54, O55

The invariant speaks of the configuration, the contexts, the reservoir record and the memories only. Taking a
turn, refusals, the bookkeeping of a complete step and most host accesses leave these four alone; what is left
is the effect of each command's own rule (spec/10_state.md R21, R25, spec/20_memory.md R35). -/

namespace Sys2Proof.Machine

/-- The parts of the state that the invariant speaks of are the same. -/
structure SameCore (s t : State) : Prop where
  cfg : t.cfg = s.cfg
  ctx : ∀ c, t.ctx c = s.ctx c
  rc : t.rc = s.rc
  mem : ∀ sp, t.mem sp = s.mem sp

section Core

variable {s t : State}

theorem SameCore.inv (h : SameCore s t) (hs : s.Inv) : t.Inv := by
  obtain ⟨hcfg, hctx, hrc, hmem⟩ := h
  obtain ⟨hv, hc, hr, hm⟩ := hs
  exact ⟨by rwa [hcfg], contextsOk_same hc hcfg hctx, by rwa [hrc], memOk_same hm hcfg hmem⟩

theorem sameCore_turns (s : State) (rest : List Turn) : SameCore s { s with turns := rest } :=
  ⟨rfl, fun _ => rfl, rfl, fun sp => by cases sp <;> rfl⟩

theorem sameCore_resp (s : State) (r : Option HostResponse) : SameCore s { s with resp := r } :=
  ⟨rfl, fun _ => rfl, rfl, fun sp => by cases sp <;> rfl⟩

theorem sameCore_finish (op : BitVec 8) (ch : BitVec 4) (c : Code) (s : State) :
    SameCore s (finish op ch c s) :=
  ⟨rfl, fun _ => rfl, rfl, State.mem_finish op ch c s⟩

theorem sameCore_refuse (op : BitVec 8) (ch : BitVec 4) (c : Code) (s : State) :
    SameCore s (refuse op ch c s) :=
  sameCore_finish op ch c s

theorem sameCore_enterFatal (op : BitVec 8) (ch : BitVec 4) (s : State) :
    SameCore s (enterFatal op ch s) :=
  ⟨rfl, fun _ => rfl, rfl, State.mem_enterFatal op ch s⟩

/-- What a host write does to the parts of the invariant: a soft reset, a store of one memory word, or
nothing. -/
theorem writeLoc_core (s : State) (l : Loc) (v : Word) :
    writeLoc s l v = softReset s ∨ (∃ sp a, l = .mem sp a ∧ writeLoc s l v = s.setWord sp a v) ∨
      SameCore s (writeLoc s l v) := by
  have same {t : State} (hcfg : t.cfg = s.cfg := by rfl) (hctxs : t.ctxs = s.ctxs := by rfl)
      (hrc : t.rc = s.rc := by rfl) (hmem : ∀ sp, t.mem sp = s.mem sp := by intro sp; cases sp <;> rfl) :
      SameCore s t :=
    ⟨hcfg, fun c => by rw [State.ctx, hctxs, State.ctx], hrc, hmem⟩
  cases l with
  | mem sp a => exact .inr (.inl ⟨sp, a, rfl, rfl⟩)
  | ctrl =>
    cases hb : bitOf v 0
    · exact .inr (.inr (by simp only [writeLoc, hb]; exact same))
    · exact .inl (by simp [writeLoc, hb])
  | _ => exact .inr (.inr same)

/-! ## Resets -/

theorem RateCtl.ok_blank : RateCtl.blank.Ok := fun h => by cases h

/-- A state with no context bound, a blank record and memories as the configuration wants them satisfies the
invariant: both resets, and the state after reset. -/
theorem inv_of_blank (hv : t.cfg.Valid) (hc : ∀ c, t.ctx c = Ctx.blank) (hr : t.rc = RateCtl.blank)
    (hm : t.MemoriesOk) : t.Inv := by
  have hrc : t.rc.Ok := by rw [hr]; exact RateCtl.ok_blank
  refine ⟨hv, ⟨fun c _ hb => ?_, fun c _ => hc c, fun c _ => hc c⟩, hrc, hm⟩
  rw [hc c] at hb
  cases hb

theorem memory_ok_nil (words : Nat) : Memory.Ok [] words :=
  ⟨List.Pairwise.nil, fun _ h => absurd h List.not_mem_nil⟩

theorem resetWith_inv {c : Config} (hv : c.Valid) : (State.resetWith c).Inv := by
  refine inv_of_blank hv (State.resetWith_ctx c) rfl fun sp => ?_
  cases sp <;> exact memory_ok_nil _

theorem hardReset_inv (h : s.Inv) : (hardReset s).Inv := by
  refine inv_of_blank h.1 (State.resetWith_ctx s.cfg) rfl fun sp => ?_
  cases sp <;> exact memory_ok_nil _

theorem softReset_inv (h : s.Inv) : (softReset s).Inv := by
  obtain ⟨hv, -, -, hm⟩ := h
  exact inv_of_blank hv (State.resetWith_ctx s.cfg) rfl fun sp => by
    rw [State.mem_softReset]
    exact hm sp

theorem config_default_valid : Config.default.Valid := by decide

/-- Settles O55: nothing is bound, configured or listed after reset. -/
theorem invariantHoldsAfterReset : Obligations.InvariantHoldsAfterReset :=
  ⟨resetWith_inv config_default_valid, fun _ hv => resetWith_inv hv⟩

/-! ## Host accesses -/

theorem setWord_inv {sp : Space} {a : Nat} {v : Word} (h : s.Inv) (ha : a < s.cfg.words sp) :
    (s.setWord sp a v).Inv := by
  obtain ⟨hv, hc, hr, hm⟩ := h
  have hcfg : (s.setWord sp a v).cfg = s.cfg := State.setMem_cfg s sp _
  have hrc : (s.setWord sp a v).rc = s.rc := State.setMem_rc s sp _
  exact ⟨by rwa [hcfg], contextsOk_same hc hcfg (State.ctx_setMem s sp _), by rwa [hrc], hm.setWord ha⟩

theorem serve_inv (a : HostAccess) (h : s.Inv) : (serve a s).Inv := by
  rcases serve_cases a s with ⟨r, e⟩ | ⟨-, addr, v, l, -, hl, e⟩ <;> rw [e]
  · exact (sameCore_resp s _).inv h
  · refine (sameCore_resp _ _).inv ?_
    rcases writeLoc_core s l v with e | ⟨sp, a, rfl, e⟩ | hsame
    · rw [e]; exact softReset_inv h
    · rw [e]; exact setWord_inv h (locate_mem hl)
    · exact hsame.inv h

/-! ## The reservoir record -/

/-- `RCINIT` replaces the record by one that its checks have found to satisfy `RcInv` (R125). -/
theorem rcinitState_rc_ok (h : RcinitOk s) : (rcinitState s).rc.Ok := by
  obtain ⟨⟨hsize, hmin, hmax, havg, hborrow, hlevel⟩, horder, hle⟩ := h
  exact fun _ => ⟨⟨hlevel, hsize, hmin, hmax, havg, hborrow⟩, horder, hle⟩

/-- The level `RCUPD` commits is clamped to `0 … RC_SIZE` (R127). -/
theorem rcupdOutcome_level_le (v : Int) (r : RateCtl) (f : Flags) :
    (rcupdOutcome v r f).1.toNat ≤ r.size.toNat := by
  unfold rcupdOutcome
  split_ifs with h0 h1
  · exact Nat.zero_le _
  · exact le_rfl
  · have hs := r.size.isLt
    have h0 : 0 ≤ v := not_lt.1 h0
    have h1 : v ≤ (r.size.toNat : Int) := not_lt.1 h1
    simp only [BitVec.toNat_ofInt]
    omega

theorem rcupdState_rc_ok {m : Bool} (hs : s.rc.Ok) : (rcupdState m s).rc.Ok := by
  intro hv
  obtain ⟨⟨-, hsize, hrest⟩, horder, -⟩ := hs hv
  have hle := rcupdOutcome_level_le (rcupdLevel m s) s.rc s.flags
  exact ⟨⟨lt_of_le_of_lt hle hsize, hsize, hrest⟩, horder, hle⟩

/-- Only `RCINIT` and `RCUPD` write the record. -/
theorem EffectOf.rc_eq {i : Instr} {c : Code} (h : EffectOf i s t c) (h1 : i ≠ .rcinit)
    (h2 : ∀ m, i ≠ .rcupd m) : t.rc = s.rc := by
  cases i <;> simp only [EffectOf] at h
  case rcinit => exact absurd rfl h1
  case rcupd m => exact absurd rfl (h2 m)
  case nop => obtain ⟨-, rfl⟩ := h; simp
  case gain => obtain ⟨-, rfl⟩ := h; simp
  case rcallow => obtain ⟨-, rfl⟩ := h; simp
  case init => obtain ⟨-, rfl, -⟩ := h; simp [initState]
  case free => obtain ⟨-, rfl, -⟩ := h; simp
  case ctxld => obtain ⟨-, rfl, -⟩ := h; simp
  case fwd => obtain ⟨-, rfl, -⟩ := h; simp [fwdState, fwdMemories]
  case adapt => obtain ⟨-, rfl, -⟩ := h; simp [adaptState]
  case inv => obtain ⟨-, rfl, -⟩ := h; simp [invState, invMemories]
  case drain => obtain ⟨-, rfl, -⟩ := h; simp [drainState]
  case peek => obtain ⟨-, rfl, -⟩ := h; simp [peekState]

theorem EffectOf.rc_ok {i : Instr} {c : Code} (h : EffectOf i s t c) (hs : s.rc.Ok) : t.rc.Ok := by
  by_cases h1 : i = .rcinit
  · subst h1
    obtain ⟨-, rfl, hok⟩ := h
    exact rcinitState_rc_ok hok
  · by_cases h2 : ∃ m, i = .rcupd m
    · obtain ⟨m, rfl⟩ := h2
      obtain ⟨-, rfl, -⟩ := h
      exact rcupdState_rc_ok hs
    · rw [h.rc_eq h1 fun m e => h2 ⟨m, e⟩]
      exact hs

/-- What a command's own rule keeps, and what depends on nothing that the bookkeeping writes, every complete
step keeps. -/
theorem complete_keeps {P : State → Prop} (hsame : ∀ s t, SameCore s t → P s → P t)
    (heffect : ∀ i s u c, EffectOf i s u c → P s → P u) (hs : P s) (h : complete s = .next t) : P t := by
  rcases complete_cases h with ⟨c, -, rfl⟩ | ⟨-, rfl, -⟩ | ⟨-, i, u, c, -, hu, -, -, rfl⟩
  · exact hsame _ _ (sameCore_refuse _ _ _ s) hs
  · exact hsame _ _ (sameCore_enterFatal _ _ s) hs
  · exact hsame _ _ (sameCore_finish _ _ _ u) (heffect i s u c hu hs)

theorem serve_rc_ok (a : HostAccess) (h : s.rc.Ok) : (serve a s).rc.Ok := by
  rcases serve_cases a s with ⟨r, e⟩ | ⟨-, addr, v, l, -, -, e⟩ <;> rw [e]
  · exact h
  · change (writeLoc s l v).rc.Ok
    rcases writeLoc_core s l v with e | ⟨sp, a, -, e⟩ | hsame
    · rw [e]; exact RateCtl.ok_blank
    · rw [e, State.setWord, State.setMem_rc]; exact h
    · rw [hsame.rc]; exact h

/-- Settles O41: every turn keeps `RcInv`; of the commands only `RCINIT` and `RCUPD` write the record. -/
theorem reservoirStaysInBounds : Obligations.ReservoirStaysInBounds := by
  intro s t hs h
  refine step_keeps (P := fun s => s.rc.Ok) (fun _ _ h => h) (fun a _ h => serve_rc_ok a h)
    (fun _ _ => RateCtl.ok_blank) (fun s t hs h => ?_) hs h
  exact complete_keeps (fun s t hsame h => by rw [hsame.rc]; exact h) (fun _ _ _ _ hu hs => hu.rc_ok hs) hs h

end Core

end Sys2Proof.Machine
end

section
/-! # The effect of each command's own rule on contexts and memories: O54

The new context of a command's channel satisfies `CtxInv` there, the words it stores lie inside their memories,
and it touches no other context. With that, every complete step keeps the invariant. -/

namespace Sys2Proof.Machine

variable {s u : State} {ch d : Chan}

/-! ## The context file after a rule -/

theorem initState_ctx : (initState ch s).ctx d = if d = ch then initContext s else s.ctx d := by
  simp [initState, State.ctx_setCtx]

theorem fwdState_ctx :
    (fwdState ch s).ctx d = if d = ch then fwdContext s (s.ctx ch) else s.ctx d := by
  simp [fwdState, fwdMemories, State.ctx_setCtx]

theorem adaptState_ctx :
    (adaptState ch s).ctx d = if d = ch then (adaptCase s (s.ctx ch)).1 else s.ctx d := by
  simp [adaptState, State.ctx_setCtx]

theorem invState_ctx :
    (invState ch s).ctx d = if d = ch then invContext s (s.ctx ch) else s.ctx d := by
  simp [invState, invMemories, State.ctx_setCtx]

/-- The context after `DRAIN` (R118). -/
def drainContext (ch : Chan) (s : State) : Ctx :=
  { s.ctx ch with fill := w32n ((s.ctx ch).fill.toNat - drainCount ch s) }

theorem drainState_ctx : (drainState ch s).ctx d = if d = ch then drainContext ch s else s.ctx d := by
  simp [drainState, drainContext, State.ctx_setCtx]

theorem peekState_ctx : (peekState ch s).ctx d = s.ctx d := by
  simp [peekState]

/-- The context that the own rule of a command leaves in the command's channel. -/
def newContext (i : Instr) (ch : Chan) (s : State) : Ctx :=
  match i with
  | .init _ => initContext s
  | .free _ => Ctx.blank
  | .ctxld _ => ctxldImage s
  | .fwd _ => fwdContext s (s.ctx ch)
  | .adapt _ => (adaptCase s (s.ctx ch)).1
  | .inv _ => invContext s (s.ctx ch)
  | .drain _ => drainContext ch s
  | _ => s.ctx ch

/-- A command on a channel replaces the context of that channel and no other. -/
theorem EffectOf.ctx_of_chan {i : Instr} {c : Code} (h : EffectOf i s u c) (hch : i.chan? = some ch)
    (d : Chan) : u.ctx d = if d = ch then newContext i ch s else s.ctx d := by
  cases i <;> simp only [EffectOf, Instr.chan?, Option.some.injEq, reduceCtorEq] at h hch <;> subst hch
  case init => obtain ⟨-, rfl, -⟩ := h; exact initState_ctx
  case free => obtain ⟨-, rfl, -⟩ := h; exact State.ctx_setCtx s _ d _
  case ctxld => obtain ⟨-, rfl, -⟩ := h; exact State.ctx_setCtx s _ d _
  case fwd => obtain ⟨-, rfl, -⟩ := h; exact fwdState_ctx
  case adapt => obtain ⟨-, rfl, -⟩ := h; exact adaptState_ctx
  case inv => obtain ⟨-, rfl, -⟩ := h; exact invState_ctx
  case drain => obtain ⟨-, rfl, -⟩ := h; exact drainState_ctx
  case peek =>
    obtain ⟨-, rfl, -⟩ := h
    rw [peekState_ctx]
    split
    · subst_vars; rfl
    · rfl

/-- A command without a channel leaves the context file alone. -/
theorem EffectOf.ctx_of_no_chan {i : Instr} {c : Code} (h : EffectOf i s u c) (hch : i.chan? = none)
    (d : Chan) : u.ctx d = s.ctx d := by
  cases i <;> simp only [EffectOf, Instr.chan?, reduceCtorEq] at h hch
  case nop => obtain ⟨-, rfl⟩ := h; rfl
  case gain => obtain ⟨-, rfl⟩ := h; simp
  case rcinit => obtain ⟨-, rfl, -⟩ := h; simp [rcinitState]
  case rcallow => obtain ⟨-, rfl⟩ := h; simp
  case rcupd => obtain ⟨-, rfl, -⟩ := h; simp [rcupdState]

/-! ## The new context satisfies `CtxInv` -/

/-- Item 5 of `CtxInv` (R21): the geometry of the previous block. -/
abbrev Ctx.BlockGeometry (x : Ctx) (wmWords : Nat) : Prop :=
  LegalTl x.prevTl.toNat x.tlMax.toNat ∧
  (x.prevFr.toNat % 2 = 0 ∧ x.prevFr.toNat ≤ x.prevTl.toNat) ∧
  x.prevNr.toNat = (x.prevTl.toNat - x.prevFr.toNat) / 2 ∧
  x.prevWrs.toNat + x.prevFr.toNat ≤ wmWords

section CtxInv

variable {x : Ctx} (h : s.CtxInv ch x)
include h

theorem ctxInv_tlMax_le : x.tlMax.toNat ≤ s.cfg.tlMax := by
  obtain ⟨⟨-, -, hle⟩, -⟩ := h
  exact hle

theorem ctxInv_tlMax_le_ovSize : x.tlMax.toNat ≤ x.ovSize.toNat := by
  obtain ⟨-, ⟨hle, -⟩, -⟩ := h
  exact hle

theorem ctxInv_regionFree : s.RegionFree ch x.ovBase.toNat x.ovSize.toNat := by
  obtain ⟨-, ⟨-, -, hfree⟩, -⟩ := h
  exact hfree

theorem ctxInv_dir_ne_illegal : x.dir ≠ .illegal := by
  obtain ⟨-, -, hne, -⟩ := h
  exact hne

theorem ctxInv_geometry (hd : x.dir ≠ .none) : x.BlockGeometry s.cfg.wmWords := by
  obtain ⟨-, -, -, -, hg, -⟩ := h
  exact hg hd

theorem ctxInv_fill_inv (hd : x.dir = .inv) : x.fill.toNat + x.prevTl.toNat / 2 ≤ x.ovSize.toNat := by
  obtain ⟨-, -, -, -, -, -, hfill⟩ := h
  exact hfill hd

/-- A context that keeps its region and its largest length satisfies `CtxInv` again once it has a direction, a
legal block geometry, and the fill level of that direction. -/
theorem ctxInv_of_geometry {y : Ctx} (hb : y.ovBase = x.ovBase) (hz : y.ovSize = x.ovSize)
    (hm : y.tlMax = x.tlMax) (hd : y.dir = .fwd ∨ y.dir = .inv) (hg : y.BlockGeometry s.cfg.wmWords)
    (hfwd : y.dir = .fwd → y.fill.toNat = y.prevFr.toNat / 2 + y.tlMax.toNat / 2)
    (hinv : y.dir = .inv → y.fill.toNat + y.prevTl.toNat / 2 ≤ y.ovSize.toNat) : s.CtxInv ch y := by
  obtain ⟨htl, hregion, -⟩ := h
  rw [← hm] at htl hregion
  rw [← hb, ← hz] at hregion
  have hne : y.dir ≠ .illegal ∧ y.dir ≠ .none := by rcases hd with e | e <;> rw [e] <;> decide
  exact ⟨htl, hregion, hne.1, fun e => absurd e hne.2, fun _ => hg, hfwd, hinv⟩

end CtxInv

theorem initContext_inv (h : InitOk ch s) : s.CtxInv ch (initContext s) := by
  obtain ⟨htl, hsize, hbase, hfree⟩ := h
  have hdir : (initContext s).dir = .none := rfl
  exact ⟨htl, ⟨hsize, hbase, hfree⟩, by rw [hdir]; decide, fun _ => ⟨rfl, rfl, rfl, rfl, rfl⟩,
    fun hd => absurd hdir hd, fun hd => absurd (hdir.symm.trans hd) (by decide),
    fun hd => absurd (hdir.symm.trans hd) (by decide)⟩

/-- `FWD` (R100). -/
theorem fwdContext_inv (hv : s.cfg.Valid) (hi : s.CtxInv ch (s.ctx ch)) (h : FwdOk ch s) :
    s.CtxInv ch (fwdContext s (s.ctx ch)) := by
  obtain ⟨-, htl, ⟨hfr, hle, hnr, -⟩, -, hwrs, -⟩ := h
  have hfill : ((fwdContext s (s.ctx ch)).fill).toNat =
      (fwdOperands s).fr / 2 + (s.ctx ch).tlMax.toNat / 2 := by
    have hle := ctxInv_tlMax_le hi
    obtain ⟨-, ⟨-, -, hmax⟩, -⟩ := hv
    simp only [fwdContext, BitVec.toNat_ofNat]
    omega
  exact ctxInv_of_geometry hi rfl rfl rfl (.inl rfl) ⟨htl, ⟨hfr, hle⟩, hnr, hwrs⟩ (fun _ => hfill)
    fun hd => by cases hd

/-- `ADAPT` (R106): a fresh context becomes an inverse one with an empty block, an inverse one may get a
shorter right slope. -/
theorem adaptCase_inv (hi : s.CtxInv ch (s.ctx ch)) (h : AdaptOk ch s) :
    s.CtxInv ch (adaptCase s (s.ctx ch)).1 := by
  obtain ⟨hdir, -, ⟨hfl, -⟩, hnone, hwls⟩ := h
  have hnr (n : Nat) (hn : n < 2 ^ 32) : (w32n (n / 2)).toNat = n / 2 := by
    rw [BitVec.toNat_ofNat, Nat.mod_eq_of_lt (by omega)]
  unfold adaptCase
  dsimp only
  split_ifs with hd heq hlt
  · obtain ⟨hnout, hflnout⟩ := hnone hd
    refine ctxInv_of_geometry hi rfl rfl rfl (.inr rfl)
      ⟨hnout, ⟨hfl, hflnout⟩, hnr _ ?_, hwls⟩ (fun hd => by cases hd) fun _ => ?_
    · exact lt_of_le_of_lt (Nat.sub_le _ _) (s.arg 4).isLt
    · have hsize := ctxInv_tlMax_le_ovSize hi
      obtain ⟨-, -, hbound⟩ := hnout
      change 0 + (adaptOperands s).nout / 2 ≤ (s.ctx ch).ovSize.toNat
      omega
  · exact hi
  · obtain ⟨hptl, ⟨-, hpfr⟩, -, -⟩ := ctxInv_geometry hi hd
    have hfill := ctxInv_fill_inv hi
    refine ctxInv_of_geometry hi rfl rfl rfl ?_
      ⟨hptl, ⟨hfl, (lt_of_lt_of_le hlt hpfr).le⟩, hnr _ ?_, hwls⟩
      (fun hd => absurd hd hdir) hfill
    · have hne := ctxInv_dir_ne_illegal hi
      cases e : (s.ctx ch).dir <;> simp_all
    · exact lt_of_le_of_lt (Nat.sub_le _ _) (s.ctx ch).prevTl.isLt
  · exact hi

/-- `INV` (R116). -/
theorem invContext_inv (hi : s.CtxInv ch (s.ctx ch)) (h : InvOk ch s) :
    s.CtxInv ch (invContext s (s.ctx ch)) := by
  obtain ⟨hdir, htl, -, ⟨-, hfr, hle⟩, -, hwrs, -, -, hroom⟩ := h
  have hnr : ((invContext s (s.ctx ch)).prevNr).toNat = ((invOperands s).tl - (invOperands s).fr) / 2 := by
    have : (invOperands s).tl < 2 ^ 32 := (s.arg 4).isLt
    simp only [invContext, BitVec.toNat_ofNat]
    omega
  have hfill : ((invContext s (s.ctx ch)).fill).toNat =
      invTotal (invOperands s) (s.ctx ch) - invDelivered (invOperands s) (s.ctx ch) := by
    have := (s.ctx ch).ovSize.isLt
    simp only [invContext, BitVec.toNat_ofNat]
    omega
  refine ctxInv_of_geometry hi rfl rfl rfl (.inr hdir) ⟨htl, ⟨hfr, hle⟩, hnr, hwrs⟩
    (fun hd => absurd (hdir.symm.trans hd) (by decide)) fun _ => ?_
  rw [hfill]
  exact hroom

/-- `DRAIN` (R118). -/
theorem drainContext_inv (hi : s.CtxInv ch (s.ctx ch)) (hdir : (s.ctx ch).dir = .inv) :
    s.CtxInv ch (drainContext ch s) := by
  have hg := ctxInv_geometry hi (by rw [hdir]; decide)
  have hroom := ctxInv_fill_inv hi hdir
  have hfill : (drainContext ch s).fill.toNat ≤ (s.ctx ch).fill.toNat := by
    have := (s.ctx ch).fill.isLt
    simp only [drainContext, BitVec.toNat_ofNat]
    omega
  refine ctxInv_of_geometry hi rfl rfl rfl (.inr hdir) hg
    (fun hd => absurd (hdir.symm.trans hd) (by decide)) fun _ => ?_
  exact le_trans (Nat.add_le_add_right hfill _) hroom

/-- The new context of the channel is valid and satisfies `CtxInv` there, or it is blank. -/
theorem EffectOf.newContext_ok {i : Instr} {c : Code} (hv : s.cfg.Valid) (h : EffectOf i s u c)
    (hch : i.chan? = some ch) :
    ch.val < s.cfg.nch ∧ ((newContext i ch s).valid = true → s.CtxInv ch (newContext i ch s)) ∧
      ((newContext i ch s).valid = false → newContext i ch s = Ctx.blank) := by
  have bound {x : Ctx} (hx : x.valid = true) (hn : ch.val < s.cfg.nch) (hi : s.CtxInv ch x) :
      ch.val < s.cfg.nch ∧ (x.valid = true → s.CtxInv ch x) ∧ (x.valid = false → x = Ctx.blank) :=
    ⟨hn, fun _ => hi, fun e => absurd (hx.symm.trans e) (by decide)⟩
  cases i <;> simp only [EffectOf, Instr.chan?, Option.some.injEq, reduceCtorEq] at h hch <;> subst hch
  case init => obtain ⟨-, -, hok, -, hn⟩ := h; exact bound rfl hn (initContext_inv hok)
  case free => obtain ⟨-, -, -, hn⟩ := h; exact ⟨hn, fun e => (by cases e), fun _ => rfl⟩
  case ctxld => obtain ⟨-, -, hi, -, hn⟩ := h; exact bound rfl hn hi
  case fwd =>
    obtain ⟨-, -, ⟨⟨-, hn⟩, hx, hi⟩, hok⟩ := h
    exact bound hx hn (fwdContext_inv hv hi hok)
  case adapt =>
    obtain ⟨-, -, ⟨⟨-, hn⟩, hx, hi⟩, hok⟩ := h
    exact bound (by simp only [newContext, adaptCase]; split_ifs <;> exact hx) hn (adaptCase_inv hi hok)
  case inv =>
    obtain ⟨-, -, ⟨⟨-, hn⟩, hx, hi⟩, hok⟩ := h
    exact bound hx hn (invContext_inv hi hok)
  case drain =>
    obtain ⟨-, -, ⟨⟨-, hn⟩, hx, hi⟩, hdir, -⟩ := h
    exact bound hx hn (drainContext_inv hi hdir)
  case peek => obtain ⟨-, -, ⟨⟨-, hn⟩, hx, hi⟩, -⟩ := h; exact bound hx hn hi

theorem EffectOf.cfg_eq {i : Instr} {c : Code} (h : EffectOf i s u c) : u.cfg = s.cfg := by
  obtain ⟨-, -, -, -, -, hcfg, -⟩ := h.status
  exact hcfg

theorem EffectOf.contextsOk {i : Instr} {c : Code} (hv : s.cfg.Valid) (h : EffectOf i s u c)
    (hs : s.ContextsOk) : u.ContextsOk := by
  rcases hch : i.chan? with _ | ch
  · exact contextsOk_same hs h.cfg_eq (h.ctx_of_no_chan hch)
  · have hctx := h.ctx_of_chan hch
    obtain ⟨hn, hx, hb⟩ := h.newContext_ok hv hch
    exact contextsOk_set hs hn h.cfg_eq ((hctx ch).trans (if_pos rfl))
      (fun c hc => (hctx c).trans (if_neg hc)) hx hb

/-! ## The memories after a rule -/

theorem initState_memoriesOk (hs : s.MemoriesOk) (h : InitOk ch s) : (initState ch s).MemoriesOk := by
  obtain ⟨-, -, hbase, -⟩ := h
  have hlen : (initOperands s).base + (List.replicate (initOperands s).size 0#32).length ≤
      s.cfg.words .ov := by rw [List.length_replicate]; exact hbase
  exact memOk_same (hs.putWords hlen) rfl fun sp => by simp [initState]

theorem fwdState_memoriesOk (hs : s.MemoriesOk) (hi : s.CtxInv ch (s.ctx ch)) (h : FwdOk ch s) :
    (fwdState ch s).MemoriesOk := by
  obtain ⟨-, -, -, hdm, hov⟩ := fwdEffect_ok (fwdEffect_of_pass hi h)
  have h1 := hs.putWords (sp := .dm) (a := (fwdOperands s).out)
    (vs := (fwdSpectrum ch s).map fun p => w32 p.1) (by rw [List.length_map]; exact hdm)
  have h2 := h1.putWords (sp := .ov) (a := (s.ctx ch).ovBase.toNat) (vs := fwdKept ch s)
    (by rw [State.setMem_cfg]; exact hov)
  exact memOk_same h2 (by simp [fwdState, fwdMemories]) fun sp => by simp [fwdState, fwdMemories]

theorem invState_memoriesOk (hs : s.MemoriesOk) (hi : s.CtxInv ch (s.ctx ch)) (h : InvOk ch s) :
    (invState ch s).MemoriesOk := by
  obtain ⟨-, -, hdm, hov, hcarry⟩ := invEffect_ok (invEffect_of_pass hi h)
  have h1 := hs.putWords (sp := .dm) (a := (invOperands s).out)
    (vs := ((invEnd ch s).q.take (invDelivered (invOperands s) (s.ctx ch))).map w32)
    (by rw [List.length_map]; exact hdm)
  have h2 := h1.putWords (sp := .ov) (a := (s.ctx ch).ovBase.toNat)
    (vs := ((invEnd ch s).q.drop (invDelivered (invOperands s) (s.ctx ch))).map w32)
    (by rw [List.length_map, State.setMem_cfg]; exact hov)
  have h3 := h2.putWords (sp := .ov)
    (a := (s.ctx ch).ovBase.toNat + (s.ctx ch).ovSize.toNat - (invOperands s).tl / 2)
    (vs := (invEnd ch s).c.map w32)
    (by rw [List.length_map, State.setMem_cfg, State.setMem_cfg]; exact hcarry)
  exact memOk_same h3 (by simp [invState, invMemories]) fun sp => by simp [invState, invMemories]

theorem length_pendingWords (n : Nat) : (pendingWords ch s n).length = n := by simp [pendingWords]

theorem drainState_memoriesOk (hs : s.MemoriesOk) (hi : s.CtxInv ch (s.ctx ch)) (h : DrainOk ch s) :
    (drainState ch s).MemoriesOk := by
  obtain ⟨-, -, hdm, hov⟩ := drainEffect_ok (drainEffect_of_pass hi h)
  have h1 := hs.putWords (sp := .dm) (a := (copyOperands s).out)
    (vs := (pendingWords ch s (s.ctx ch).fill.toNat).take (drainCount ch s))
    (le_trans (Nat.add_le_add_left (List.length_take_le _ _) _) hdm)
  have h2 := h1.putWords (sp := .ov) (a := (s.ctx ch).ovBase.toNat)
    (vs := (pendingWords ch s (s.ctx ch).fill.toNat).drop (drainCount ch s))
    (by
      rw [List.length_drop, length_pendingWords, State.setMem_cfg]
      exact le_trans (Nat.add_le_add_left (Nat.sub_le _ _) _) hov)
  exact memOk_same h2 (by simp [drainState]) fun sp => by simp [drainState]

theorem peekState_memoriesOk (hs : s.MemoriesOk) (hi : s.CtxInv ch (s.ctx ch)) (h : PeekOk ch s) :
    (peekState ch s).MemoriesOk := by
  obtain ⟨-, -, hdm⟩ := peekEffect_ok (peekEffect_of_pass hi h)
  have h1 := hs.putWords (sp := .dm) (a := (copyOperands s).out)
    (vs := pendingWords ch s (min (peekCount ch s) (s.ctx ch).fill.toNat) ++
      (peekTail ch s).map fun p => w32 p.1)
    (by
      have : s.cfg.words .dm = s.cfg.dmWords := rfl
      rw [List.length_append, List.length_map, length_pendingWords, length_peekTail]
      omega)
  exact memOk_same h1 (by simp [peekState]) fun sp => by simp [peekState]

theorem EffectOf.memoriesOk {i : Instr} {c : Code} (h : EffectOf i s u c) (hs : s.MemoriesOk) :
    u.MemoriesOk := by
  have keep (e : ∀ sp, u.mem sp = s.mem sp) : u.MemoriesOk := memOk_same hs h.cfg_eq e
  cases i <;> simp only [EffectOf] at h
  case init => obtain ⟨-, rfl, hok, -⟩ := h; exact initState_memoriesOk hs hok
  case fwd => obtain ⟨-, rfl, ⟨-, -, hi⟩, hok⟩ := h; exact fwdState_memoriesOk hs hi hok
  case inv => obtain ⟨-, rfl, ⟨-, -, hi⟩, hok⟩ := h; exact invState_memoriesOk hs hi hok
  case drain => obtain ⟨-, rfl, ⟨-, -, hi⟩, hok⟩ := h; exact drainState_memoriesOk hs hi hok
  case peek => obtain ⟨-, rfl, ⟨-, -, hi⟩, hok⟩ := h; exact peekState_memoriesOk hs hi hok
  case nop => obtain ⟨-, rfl⟩ := h; exact keep fun sp => by simp
  case gain => obtain ⟨-, rfl⟩ := h; exact keep fun sp => by simp
  case free => obtain ⟨-, rfl, -⟩ := h; exact keep fun sp => by simp
  case ctxld => obtain ⟨-, rfl, -⟩ := h; exact keep fun sp => by simp
  case adapt => obtain ⟨-, rfl, -⟩ := h; exact keep fun sp => by simp [adaptState]
  case rcinit => obtain ⟨-, rfl, -⟩ := h; exact keep fun sp => by simp [rcinitState]
  case rcallow => obtain ⟨-, rfl⟩ := h; exact keep fun sp => by simp
  case rcupd => obtain ⟨-, rfl, -⟩ := h; exact keep fun sp => by simp [rcupdState]

/-! ## Every step -/

theorem EffectOf.inv {i : Instr} {c : Code} (h : EffectOf i s u c) (hs : s.Inv) : u.Inv := by
  obtain ⟨hv, hc, hr, hm⟩ := hs
  exact ⟨by rwa [h.cfg_eq], h.contextsOk hv hc, h.rc_ok hr, h.memoriesOk hm⟩

/-- Settles O54: host accesses and resets keep the invariant, the bookkeeping of a complete step writes nothing
it reads, and each command's own rule keeps each of its four parts. -/
theorem stepKeepsInvariant : Obligations.StepKeepsInvariant := by
  intro s t hs h
  refine step_keeps (P := State.Inv) (fun s rest hs => (sameCore_turns s rest).inv hs)
    (fun a _ hs => serve_inv a hs) (fun _ hs => hardReset_inv hs) (fun s t hs h => ?_) hs h
  exact complete_keeps (fun _ _ hsame hs => hsame.inv hs) (fun _ _ _ _ hu hs => hu.inv hs) hs h

end Sys2Proof.Machine
end

section
/-! # The interrupt and the isolation of channels: O19, O52 -/

namespace Sys2Proof.Machine

variable {s t u : State}

/-! ## The interrupt bits -/

theorem Code.setsDone_iff (c : Code) :
    c.setsDone = true ↔ c.byte = 0x00#8 ∨ (0x40 ≤ c.byte.toNat ∧ c.byte.toNat ≤ 0x5F) := by
  cases c <;> decide

theorem Code.setsErr_iff (c : Code) : c.setsErr = true ↔ c.byte ≠ 0x00#8 := by
  cases c <;> decide

/-- Every complete step raises the interrupt bits of the code it leaves in `STATUS`. -/
theorem complete_irqStat (h : complete s = .next t) : t.irqStat = s.irqStat.raise t.status.code := by
  rcases complete_cases h with ⟨c, -, rfl⟩ | ⟨-, rfl, -⟩ | ⟨-, i, u, c, -, hu, -, -, rfl⟩
  · rfl
  · rfl
  · obtain ⟨-, hirq, -⟩ := hu.status
    rw [finish_irqStat, hirq]
    rfl

theorem irqLevel_iff (q e : IrqBits) :
    ((q.done && e.done) || (q.err && e.err)) = true ↔ q.word &&& e.word &&& 3#32 ≠ 0#32 := by
  obtain ⟨qd, qe⟩ := q
  obtain ⟨ed, ee⟩ := e
  revert qd qe ed ee
  decide

/-- Settles O19: the bits from `complete_irqStat` and the classes of the codes, the level from the words. -/
theorem interruptBitsAndLevel : Obligations.InterruptBitsAndLevel := by
  refine ⟨fun s t h => ?_, fun s => irqLevel_iff s.irqStat s.irqEn⟩
  rw [complete_irqStat h, IrqBits.raise]
  exact ⟨by rw [Bool.or_eq_true, Code.setsDone_iff], by rw [Bool.or_eq_true, Code.setsErr_iff]⟩

/-! ## The footprint of a command in OVMEM -/

/-- Every OVMEM word outside the `size` words from `base` on reads as before. -/
def SameOvOutside (base size : Nat) (s t : State) : Prop :=
  ∀ k, (k < base ∨ base + size ≤ k) → t.wordAt .ov k = s.wordAt .ov k

theorem initState_footprint (ch : Chan) (s : State) :
    SameOvOutside (initOperands s).base (initOperands s).size s (initState ch s) := by
  intro k hk
  simp only [initState, State.wordAt_setRet, State.wordAt_setCtx, State.wordAt_putWords,
    List.length_replicate]
  rw [if_neg (by omega)]

theorem fwdState_footprint {ch : Chan} (hi : s.CtxInv ch (s.ctx ch)) (h : FwdOk ch s) :
    SameOvOutside (s.ctx ch).ovBase.toNat (s.ctx ch).ovSize.toNat s (fwdState ch s) := by
  intro k hk
  obtain ⟨hdir, ⟨-, -, htl⟩, ⟨-, hfr, -⟩, -⟩ := h
  have hlen := length_fwdKept hi hdir hfr
  have hsize := ctxInv_tlMax_le_ovSize hi
  simp only [fwdState, fwdMemories, State.wordAt_setRet, State.wordAt_setFlags, State.wordAt_setArg,
    State.wordAt_setCtx, State.wordAt_putWords]
  rw [if_neg (by omega), State.wordAt_setMem_ne _ _ (by decide)]

theorem invState_footprint {ch : Chan} (hi : s.CtxInv ch (s.ctx ch)) (h : InvOk ch s) :
    SameOvOutside (s.ctx ch).ovBase.toNat (s.ctx ch).ovSize.toNat s (invState ch s) := by
  intro k hk
  have g := h.geometry hi
  have hq := length_invEnd_q g
  have hc := length_invEnd_c (ch := ch) (s := s) g.pos
  obtain ⟨-, -, -, -, -, -, -, -, hroom⟩ := h
  simp only [invState, invMemories, State.wordAt_setRet, State.wordAt_setFlags, State.wordAt_setCtx,
    State.wordAt_putWords, List.length_map, List.length_drop, hq, hc]
  rw [if_neg (by omega), if_neg (by omega), State.wordAt_setMem_ne _ _ (by decide)]

theorem drainState_footprint {ch : Chan} (hi : s.CtxInv ch (s.ctx ch)) (h : DrainOk ch s) :
    SameOvOutside (s.ctx ch).ovBase.toNat (s.ctx ch).ovSize.toNat s (drainState ch s) := by
  intro k hk
  have hfill := ctxInv_fill_inv hi h.1
  simp only [drainState, State.wordAt_setRet, State.wordAt_setCtx, State.wordAt_putWords,
    List.length_drop, length_pendingWords]
  rw [if_neg (by omega), State.wordAt_setMem_ne _ _ (by decide)]

/-- The own rule of a command on a channel writes OVMEM only inside a region that is free of every other valid
context's: the operands' for `INIT` (R86 check 4), the context's own for the others (R21 item 2). -/
theorem EffectOf.footprint {i : Instr} {ch : Chan} {c : Code} (h : EffectOf i s u c)
    (hch : i.chan? = some ch) :
    ∃ base size, s.RegionFree ch base size ∧ SameOvOutside base size s u := by
  have untouched (e : ∀ k, u.wordAt .ov k = s.wordAt .ov k) :
      ∃ base size, s.RegionFree ch base size ∧ SameOvOutside base size s u :=
    ⟨0, 0, fun o _ _ _ hm => Nat.not_lt_zero _ hm.2, fun k _ => e k⟩
  cases i <;> simp only [EffectOf, Instr.chan?, Option.some.injEq, reduceCtorEq] at h hch <;> subst hch
  case init =>
    obtain ⟨-, rfl, ⟨-, -, -, hfree⟩, -⟩ := h
    exact ⟨_, _, hfree, initState_footprint _ s⟩
  case fwd =>
    obtain ⟨-, rfl, ⟨-, -, hi⟩, hok⟩ := h
    exact ⟨_, _, ctxInv_regionFree hi, fwdState_footprint hi hok⟩
  case inv =>
    obtain ⟨-, rfl, ⟨-, -, hi⟩, hok⟩ := h
    exact ⟨_, _, ctxInv_regionFree hi, invState_footprint hi hok⟩
  case drain =>
    obtain ⟨-, rfl, ⟨-, -, hi⟩, hok⟩ := h
    exact ⟨_, _, ctxInv_regionFree hi, drainState_footprint hi hok⟩
  case free => obtain ⟨-, rfl, -⟩ := h; exact untouched fun k => by simp
  case ctxld => obtain ⟨-, rfl, -⟩ := h; exact untouched fun k => by simp
  case adapt => obtain ⟨-, rfl, -⟩ := h; exact untouched fun k => by simp [adaptState]
  case peek =>
    obtain ⟨-, rfl, -⟩ := h
    refine untouched fun k => ?_
    simp only [peekState, State.wordAt_setRet, State.wordAt_setFlags]
    exact State.wordAt_setMem_ne _ _ (by decide) k

/-- A context that is bound belongs to a channel that exists. -/
theorem State.ContextsOk.lt_nch {o : Chan} (h : s.ContextsOk) (hv : (s.ctx o).valid = true) :
    o.val < s.cfg.nch := by
  by_contra hn
  obtain ⟨-, -, hblank⟩ := h
  rw [hblank o (not_lt.1 hn)] at hv
  exact absurd hv (by decide)

/-- Settles O52: a refusal and the fatal state change no context and no memory; a rule that runs replaces the
context of its own channel only and stores inside its footprint, which meets no other valid region. -/
theorem channelsAreIsolated : Obligations.ChannelsAreIsolated := by
  intro i ch o s t hs h hch ho
  rcases exec_cases h with ⟨c, -, -, rfl⟩ | ⟨-, -, rfl, -⟩ | ⟨-, u, c, hu, -, -, -, rfl⟩
  · exact ⟨rfl, fun _ k _ => State.wordAt_refuse _ _ _ s .ov _⟩
  · exact ⟨rfl, fun _ k _ => State.wordAt_enterFatal _ _ s .ov _⟩
  · refine ⟨(hu.ctx_of_chan hch o).trans (if_neg ho), fun hv k hk => ?_⟩
    obtain ⟨base, size, hfree, hout⟩ := hu.footprint hch
    obtain ⟨-, hctxs, -⟩ := hs
    have hdisjoint := hfree o (hctxs.lt_nch hv) ho hv
    rw [State.wordAt_finish]
    refine hout _ ?_
    unfold Ctx.Meets at hdisjoint
    omega

end Sys2Proof.Machine
end

section
/-! # The scratch registers: O53

A command commutes with a write of one of `A12 … A15`: its checks do not see the write, and its effect carries
the write along. That the command does not write the register itself follows, by writing the value the register
holds already. -/

namespace Sys2Proof.Machine

/-- The outcome with every next state sent through `f`. -/
def mapNext (f : State → State) : Host.Outcome State Fault Refusal → Host.Outcome State Fault Refusal
  | .next s => .next (f s)
  | .fault r => .fault r
  | .refused r => .refused r

/-- The answer of an effect with its state sent through `f`. -/
def mapState (f : State → State) (x : Except Fault (State × Code)) : Except Fault (State × Code) :=
  x.map fun p => (f p.1, p.2)

/-! ## A write of an argument register, and the other updates -/

section Updates

variable (s : State) (k : Fin 16) (v : Word)

theorem State.setArg_arg_self : s.setArg k (s.arg k) = s := by
  simp [State.setArg, State.arg]

theorem setArg_setRet (w : Word) : (s.setArg k v).setRet w = (s.setRet w).setArg k v := rfl

theorem setArg_setCtx (c : Chan) (x : Ctx) : (s.setArg k v).setCtx c x = (s.setCtx c x).setArg k v := rfl

theorem setArg_setRc (r : RateCtl) : (s.setArg k v).setRc r = (s.setRc r).setArg k v := rfl

theorem setArg_setFlags (f : Flags) : (s.setArg k v).setFlags f = (s.setFlags f).setArg k v := rfl

theorem setArg_setMem (sp : Space) (m : Memory) : (s.setArg k v).setMem sp m = (s.setMem sp m).setArg k v := by
  cases sp <;> rfl

theorem setArg_setArg {j : Fin 16} (w : Word) (h : j ≠ k) :
    (s.setArg k v).setArg j w = (s.setArg j w).setArg k v := by
  have hne : k.val ≠ j.val := fun e => h (Fin.ext e.symm)
  simp only [State.setArg]
  rw [Vector.set_comm _ _ hne]

theorem memRead_setArg (sp : Space) (a n : Nat) : memRead sp a n (s.setArg k v) = memRead sp a n s := by
  simp only [memRead, State.setArg_cfg, State.wordAt_setArg]

theorem memWrite_setArg (sp : Space) (a : Nat) (vs : List Word) :
    memWrite sp a vs (s.setArg k v) = (memWrite sp a vs s).map fun t => t.setArg k v := by
  unfold memWrite
  simp only [State.setArg_cfg, State.mem_setArg, setArg_setMem]
  split <;> rfl

end Updates

/-! ## What commutes -/

/-- `effect` carries a write of `A[k]` along. -/
def Carries (k : Fin 16) (v : Word) (effect : State → Except Fault (State × Code)) (s : State) : Prop :=
  effect (s.setArg k v) = mapState (fun t => t.setArg k v) (effect s)

variable {s : State} {k : Fin 16} {v : Word} {op : BitVec 8} {ch : Chan} {checks : State → List Check}
  {effect : State → Except Fault (State × Code)}

theorem runRule_setArg {cb : BitVec 4} (hc : checks (s.setArg k v) = checks s) (he : Carries k v effect s) :
    runRule op cb checks effect (s.setArg k v) =
      mapNext (fun t => t.setArg k v) (runRule op cb checks effect s) := by
  unfold runRule
  rw [hc, he]
  cases firstFailure (checks s) with
  | some c => rfl
  | none => cases effect s <;> rfl

theorem runGlobal_setArg (hc : checks (s.setArg k v) = checks s) (he : Carries k v effect s) :
    runGlobal op checks effect (s.setArg k v) =
      mapNext (fun t => t.setArg k v) (runGlobal op checks effect s) := by
  unfold runGlobal
  rw [runRule_setArg hc he, State.setArg_status]
  split <;> rfl

theorem runChannel_setArg (hc : checks (s.setArg k v) = checks s) (he : Carries k v effect s) :
    runChannel op ch checks effect (s.setArg k v) =
      mapNext (fun t => t.setArg k v) (runChannel op ch checks effect s) := by
  unfold runChannel
  rw [runRule_setArg hc he, State.setArg_status, State.setArg_cfg]
  split_ifs <;> rfl

theorem runContext_setArg (hc : checks (s.setArg k v) = checks s) (he : Carries k v effect s) :
    runContext op ch checks effect (s.setArg k v) =
      mapNext (fun t => t.setArg k v) (runContext op ch checks effect s) := by
  have hi : (s.setArg k v).CtxInv ch (s.ctx ch) ↔ s.CtxInv ch (s.ctx ch) :=
    ctxInv_congr rfl (fun c => State.ctx_setArg s k v c) ch _
  unfold runContext
  simp only [runRule_setArg hc he, State.setArg_status, State.setArg_cfg, State.ctx_setArg, hi]
  split_ifs <;> rfl

theorem mapState_bind_read {f : State → State} {x : Except Fault (List Word)}
    {g g' : List Word → Except Fault (State × Code)} (h : ∀ l, g' l = mapState f (g l)) :
    (x >>= g') = mapState f (x >>= g) := by
  cases x with
  | error r => rfl
  | ok l => exact h l

theorem mapState_bind_write {f : State → State} {x : Except Fault State}
    {g g' : State → Except Fault (State × Code)} (h : ∀ t, g' (f t) = mapState f (g t)) :
    ((x.map f) >>= g') = mapState f (x >>= g) := by
  cases x with
  | error r => rfl
  | ok t => exact h t

/-! ## The operands -/

section Operands

variable (hk : 12 ≤ k.val)
include hk

theorem arg_scratch (j : Fin 16) (hj : j.val < 12) : (s.setArg k v).arg j = s.arg j :=
  State.arg_setArg_ne s v fun e => by rw [e] at hj; omega

theorem ne_scratch {j : Fin 16} (hj : j.val < 12) : j ≠ k := fun e => by rw [e] at hj; omega

theorem uarg_scratch (j : Fin 16) (hj : j.val < 12) : (s.setArg k v).uarg j = s.uarg j := by
  rw [State.uarg, arg_scratch hk j hj, State.uarg]

theorem sarg_scratch (j : Fin 16) (hj : j.val < 12) : (s.setArg k v).sarg j = s.sarg j := by
  rw [State.sarg, arg_scratch hk j hj, State.sarg]

theorem initOperands_scratch : initOperands (s.setArg k v) = initOperands s := by
  simp (disch := decide) only [initOperands, uarg_scratch hk]

theorem initContext_scratch : initContext (s.setArg k v) = initContext s := by
  simp (disch := decide) only [initContext, arg_scratch hk]

theorem ctxldImage_scratch : ctxldImage (s.setArg k v) = ctxldImage s := by
  simp (disch := decide) only [ctxldImage, arg_scratch hk]

theorem gainOperand_scratch : gainOperand (s.setArg k v) = gainOperand s :=
  uarg_scratch hk 2 (by decide)

theorem fwdOperands_scratch : fwdOperands (s.setArg k v) = fwdOperands s := by
  simp (disch := decide) only [fwdOperands, uarg_scratch hk, sarg_scratch hk]

theorem fwdContext_scratch (x : Ctx) : fwdContext (s.setArg k v) x = fwdContext s x := by
  simp (disch := decide) only [fwdContext, fwdOperands_scratch hk, arg_scratch hk]

theorem adaptOperands_scratch : adaptOperands (s.setArg k v) = adaptOperands s := by
  simp (disch := decide) only [adaptOperands, uarg_scratch hk]

theorem adaptCase_scratch (x : Ctx) : adaptCase (s.setArg k v) x = adaptCase s x := by
  simp (disch := decide) only [adaptCase, adaptOperands_scratch hk, arg_scratch hk]

theorem invOperands_scratch : invOperands (s.setArg k v) = invOperands s := by
  simp (disch := decide) only [invOperands, uarg_scratch hk, sarg_scratch hk]

theorem invContext_scratch (x : Ctx) : invContext (s.setArg k v) x = invContext s x := by
  simp (disch := decide) only [invContext, invOperands_scratch hk, arg_scratch hk]

theorem copyOperands_scratch : copyOperands (s.setArg k v) = copyOperands s := by
  simp (disch := decide) only [copyOperands, uarg_scratch hk]

theorem drainCount_scratch : drainCount ch (s.setArg k v) = drainCount ch s := by
  simp only [drainCount, copyOperands_scratch hk, State.ctx_setArg]

theorem peekCount_scratch : peekCount ch (s.setArg k v) = peekCount ch s := by
  simp only [peekCount, copyOperands_scratch hk, State.ctx_setArg]

theorem rcinitOperands_scratch : rcinitOperands (s.setArg k v) = rcinitOperands s := by
  simp (disch := decide) only [rcinitOperands, uarg_scratch hk]

theorem budgetOperand_scratch (m : Bool) : budgetOperand m (s.setArg k v) = budgetOperand m s := by
  simp (disch := decide) only [budgetOperand, uarg_scratch hk, State.setArg_rc]

theorem actualOperand_scratch : actualOperand (s.setArg k v) = actualOperand s :=
  uarg_scratch hk 1 (by decide)

/-! ## The commands, one by one -/

theorem execInit_setArg :
    execInit ch (s.setArg k v) = mapNext (fun t => t.setArg k v) (execInit ch s) := by
  refine runChannel_setArg ?_ ?_
  · simp only [initChecks, initOperands_scratch hk, State.setArg_cfg, State.RegionFree, State.ctx_setArg]
  · simp only [Carries, initEffect, initOperands_scratch hk, initContext_scratch hk, memWrite_setArg]
    exact mapState_bind_write fun t => rfl

theorem execCtxld_setArg :
    execCtxld ch (s.setArg k v) = mapNext (fun t => t.setArg k v) (execCtxld ch s) := by
  refine runChannel_setArg ?_ ?_
  · simp only [ctxldChecks, ctxldImage_scratch hk,
      ctxInv_congr (State.setArg_cfg s k v) (fun c => State.ctx_setArg s k v c)]
  · simp only [Carries, ctxldEffect, ctxldImage_scratch hk]
    rfl

theorem execGain_setArg : execGain (s.setArg k v) = mapNext (fun t => t.setArg k v) (execGain s) := by
  refine runGlobal_setArg ?_ ?_
  · simp only [gainChecks, gainOperand_scratch hk, State.setArg_cfg]
  · simp only [Carries, gainEffect, gainOperand_scratch hk, State.setArg_cfg,
      setArg_setArg _ k v _ (ne_scratch hk (j := 0) (by decide)),
      setArg_setArg _ k v _ (ne_scratch hk (j := 1) (by decide))]
    rfl

theorem execFwd_setArg : execFwd ch (s.setArg k v) = mapNext (fun t => t.setArg k v) (execFwd ch s) := by
  refine runContext_setArg ?_ ?_
  · simp only [fwdChecks, fwdOperands_scratch hk, State.setArg_cfg, State.ctx_setArg]
    rfl
  · simp only [Carries, fwdEffect, fwdOperands_scratch hk, fwdContext_scratch hk, State.ctx_setArg,
      State.setArg_flags, memRead_setArg, memWrite_setArg]
    refine mapState_bind_read fun line => mapState_bind_read fun new => mapState_bind_read fun lt =>
      mapState_bind_read fun rt => mapState_bind_write fun t => ?_
    rw [memWrite_setArg]
    refine mapState_bind_write fun t => ?_
    simp only [setArg_setCtx, setArg_setArg _ k v _ (ne_scratch hk (j := 1) (by decide)), setArg_setFlags,
      setArg_setRet]
    rfl

theorem execAdapt_setArg :
    execAdapt ch (s.setArg k v) = mapNext (fun t => t.setArg k v) (execAdapt ch s) := by
  refine runContext_setArg ?_ ?_
  · simp only [adaptChecks, adaptOperands_scratch hk, State.setArg_cfg, State.ctx_setArg]
    rfl
  · simp only [Carries, adaptEffect, adaptOperands_scratch hk, adaptCase_scratch hk, State.ctx_setArg,
      setArg_setCtx, setArg_setArg _ k v _ (ne_scratch hk (j := 0) (by decide)),
      setArg_setArg _ k v _ (ne_scratch hk (j := 1) (by decide))]
    rfl

theorem execInv_setArg : execInv ch (s.setArg k v) = mapNext (fun t => t.setArg k v) (execInv ch s) := by
  refine runContext_setArg ?_ ?_
  · simp only [invChecks, invOperands_scratch hk, State.setArg_cfg, State.ctx_setArg]
    rfl
  · simp only [Carries, invEffect, invOperands_scratch hk, invContext_scratch hk, State.ctx_setArg,
      State.setArg_flags, memRead_setArg, memWrite_setArg]
    refine mapState_bind_read fun pend => mapState_bind_read fun carry => mapState_bind_read fun mants =>
      mapState_bind_read fun scales => mapState_bind_read fun lt => mapState_bind_read fun rt =>
      mapState_bind_write fun t => ?_
    rw [memWrite_setArg]
    refine mapState_bind_write fun t => ?_
    rw [memWrite_setArg]
    exact mapState_bind_write fun t => rfl

theorem execDrain_setArg :
    execDrain ch (s.setArg k v) = mapNext (fun t => t.setArg k v) (execDrain ch s) := by
  refine runContext_setArg ?_ ?_
  · simp only [drainChecks, copyOperands_scratch hk, drainCount_scratch hk, State.setArg_cfg,
      State.ctx_setArg]
    rfl
  · simp only [Carries, drainEffect, copyOperands_scratch hk, drainCount_scratch hk, State.ctx_setArg,
      memRead_setArg, memWrite_setArg]
    refine mapState_bind_read fun old => mapState_bind_write fun t => ?_
    rw [memWrite_setArg]
    exact mapState_bind_write fun t => rfl

theorem execPeek_setArg :
    execPeek ch (s.setArg k v) = mapNext (fun t => t.setArg k v) (execPeek ch s) := by
  refine runContext_setArg ?_ ?_
  · simp only [peekChecks, copyOperands_scratch hk, peekCount_scratch hk, State.setArg_cfg, State.ctx_setArg]
    rfl
  · simp only [Carries, peekEffect, copyOperands_scratch hk, peekCount_scratch hk, State.ctx_setArg,
      State.setArg_flags, memRead_setArg, memWrite_setArg]
    exact mapState_bind_read fun pend => mapState_bind_read fun top => mapState_bind_write fun t => rfl

theorem execRcinit_setArg :
    execRcinit (s.setArg k v) = mapNext (fun t => t.setArg k v) (execRcinit s) := by
  refine runGlobal_setArg ?_ ?_
  · simp only [rcinitChecks, rcinitOperands_scratch hk]
  · simp (disch := decide) only [Carries, rcinitEffect, arg_scratch hk]
    rfl

theorem execRcallow_setArg (m : Bool) :
    execRcallow m (s.setArg k v) = mapNext (fun t => t.setArg k v) (execRcallow m s) := by
  refine runGlobal_setArg ?_ ?_
  · simp only [rcallowChecks, budgetOperand_scratch hk, State.setArg_rc]
    rfl
  · simp only [Carries, rcallowEffect, budgetOperand_scratch hk, State.setArg_rc]
    rfl

theorem execRcupd_setArg (m : Bool) :
    execRcupd m (s.setArg k v) = mapNext (fun t => t.setArg k v) (execRcupd m s) := by
  refine runGlobal_setArg ?_ ?_
  · simp only [rcupdChecks, budgetOperand_scratch hk, actualOperand_scratch hk, State.setArg_rc]
    rfl
  · simp only [Carries, rcupdEffect, rcupdLevel, budgetOperand_scratch hk, actualOperand_scratch hk,
      State.setArg_rc, State.setArg_flags, setArg_setRc, setArg_setFlags,
      setArg_setArg _ k v _ (ne_scratch hk (j := 2) (by decide))]
    rfl

/-- Every command carries a write of a scratch register along. -/
theorem exec_setArg (i : Instr) : exec i (s.setArg k v) = mapNext (fun t => t.setArg k v) (exec i s) := by
  cases i with
  | nop => exact runGlobal_setArg rfl rfl
  | init ch => exact execInit_setArg hk
  | free ch => exact runChannel_setArg rfl rfl
  | ctxld ch => exact execCtxld_setArg hk
  | fwd ch => exact execFwd_setArg hk
  | adapt ch => exact execAdapt_setArg hk
  | gain => exact execGain_setArg hk
  | inv ch => exact execInv_setArg hk
  | drain ch => exact execDrain_setArg hk
  | peek ch => exact execPeek_setArg hk
  | rcinit => exact execRcinit_setArg hk
  | rcallow m => exact execRcallow_setArg hk m
  | rcupd m => exact execRcupd_setArg hk m

end Operands

/-- Settles O53: the outcome carries every write of a scratch register along; the write of the value that it
holds already shows that the command leaves it as it was. -/
theorem scratchArgumentsAreUntouched : Obligations.ScratchArgumentsAreUntouched := by
  intro i s t k v hk h
  have carried (w : Word) : exec i (s.setArg k w) = .next (t.setArg k w) := by
    rw [exec_setArg hk i, h, mapNext]
  refine ⟨?_, carried v⟩
  have hsame := carried (s.arg k)
  rw [State.setArg_arg_self, h] at hsame
  have ht : t = t.setArg k (s.arg k) := by injection hsame
  rw [ht, State.arg_setArg_self]

end Sys2Proof.Machine
end

section
/-! # The address map and the rights of a host access: O42, O43, O44, O46

What `locate` answers is said once in each direction: `locate_cases` for an address that reaches something,
`locate_window` (with `locate_low` and `locate_ctx`) for an address that is given. The statements about the port
follow from these (spec/20_memory.md R36 to R40). -/

namespace Sys2Proof.Machine

variable {c : Config} {s : State} {sp : Space} {l : Loc} {addr : Word} {n : Nat}

/-! ## The address map -/

theorem windowLoc_eq_some {b : Nat} :
    windowLoc c sp b = some l ↔
      (windowBase sp ≤ b ∧ b < windowBase sp + 4 * c.words sp) ∧ l = .mem sp ((b - windowBase sp) / 4) := by
  unfold windowLoc
  split_ifs with hw
  · simp only [hw, true_and, Option.some.injEq, eq_comm]
  · simp only [hw, false_and]

/-- Everything the address map can answer: a register, a register of a context, or a word in a memory's
window. -/
theorem locate_cases {b : Nat} (h : locate c b = some l) :
    b % 4 = 0 ∧
      ((b < 0x9C ∧ l = lowRegister c (b / 4)) ∨
       (0x400 ≤ b ∧ b < 0x400 + 0x40 * c.nch ∧ ∃ ch r, l = .ctx ch r) ∨
       ∃ sp, windowLoc c sp b = some l) := by
  unfold locate at h
  split_ifs at h with halign hlow hctx
  · exact ⟨not_not.1 halign, .inl ⟨hlow, (Option.some.inj h).symm⟩⟩
  · exact ⟨not_not.1 halign, .inr (.inl ⟨hctx.1, hctx.2, _, _, (Option.some.inj h).symm⟩)⟩
  · refine ⟨not_not.1 halign, .inr (.inr ?_)⟩
    rw [Option.or_eq_some_iff, Option.or_eq_some_iff] at h
    rcases h with h | ⟨-, h | ⟨-, h⟩⟩
    · exact ⟨.dm, h⟩
    · exact ⟨.wm, h⟩
    · exact ⟨.ov, h⟩

/-- `STATUS` stands at one address only (R36). -/
theorem locate_status {b : Nat} (h : locate c b = some .status) : b = 0x24 := by
  obtain ⟨halign, ⟨hlow, hreg⟩ | ⟨-, -, ch, r, hctx⟩ | ⟨sp, hmem⟩⟩ := locate_cases h
  · have hk : b / 4 = 9 := by
      unfold lowRegister at hreg
      split at hreg <;> cases hreg
      assumption
    omega
  · cases hctx
  · cases (windowLoc_eq_some.1 hmem).2

theorem words_le_of_valid (hv : c.Valid) (sp : Space) : c.words sp ≤ 2 ^ 18 := by
  obtain ⟨-, -, ⟨-, hdm⟩, ⟨-, hwm⟩, ⟨-, hov⟩, -⟩ := hv
  cases sp
  · exact hdm
  · exact hwm
  · exact hov

theorem windowLoc_self {a : Nat} (ha : a < c.words sp) :
    windowLoc c sp (windowBase sp + 4 * a) = some (.mem sp a) := by
  rw [windowLoc_eq_some, Nat.add_sub_cancel_left, Nat.mul_div_cancel_left a (by decide)]
  exact ⟨⟨Nat.le_add_right _ _, by omega⟩, rfl⟩

/-- The windows are `2^20` bytes apart and no memory is larger than that (R5), so they do not meet. -/
theorem windowLoc_ne (hv : c.Valid) {sp' : Space} (hne : sp' ≠ sp) {a : Nat} (ha : a < c.words sp) :
    windowLoc c sp' (windowBase sp + 4 * a) = none := by
  refine if_neg fun hw => hne ?_
  have hsp := words_le_of_valid hv sp
  have hsp' := words_le_of_valid hv sp'
  cases sp <;> cases sp' <;> simp only [windowBase] at hw ⊢ <;> omega

/-- A word of a memory stands in that memory's window. -/
theorem locate_window (hv : c.Valid) {a : Nat} (ha : a < c.words sp) :
    locate c (windowBase sp + 4 * a) = some (.mem sp a) := by
  have hother := fun sp' (hne : sp' ≠ sp) => windowLoc_ne hv hne ha
  have hself := windowLoc_self ha
  have hbase : 0x100000 ≤ windowBase sp ∧ windowBase sp % 4 = 0 := by cases sp <;> decide
  obtain ⟨⟨-, hnch⟩, -⟩ := hv
  unfold locate
  rw [if_neg (by omega), if_neg (by omega), if_neg (by omega)]
  cases sp
  · rw [hself, Option.some_or]
  · rw [hother .dm (by decide), hself, Option.none_or, Option.some_or]
  · rw [hother .dm (by decide), hother .wm (by decide), hself, Option.none_or, Option.none_or]

theorem toNat_memAddr (hv : c.Valid) {a : Nat} (ha : a < c.words sp) :
    (memAddr sp a).toNat = windowBase sp + 4 * a := by
  have hle := words_le_of_valid hv sp
  have hbase : windowBase sp ≤ 0x300000 := by cases sp <;> decide
  rw [memAddr, BitVec.toNat_ofNat, Nat.mod_eq_of_lt (by omega)]

/-! ## Accesses that answer `ERROR` -/

theorem serve_read_error (h : reach s true addr n = none) :
    serve (.read addr n) s = { s with resp := some .error } := by
  simp only [serve, h]

theorem serve_write_error (h : reach s false addr n = none) (v : Word) :
    serve (.write addr n v) s = { s with resp := some .error } := by
  simp only [serve, h]

theorem reach_eq_none {isRead : Bool} (h : n ≠ 4 ∨ locate s.cfg addr.toNat = none) :
    reach s isRead addr n = none := by
  unfold reach
  rcases h with hn | hl
  · rw [if_neg hn]
  · rw [hl, ite_self]

/-- A busy port reaches `STATUS` by a word read and nothing else (R40). -/
theorem reach_busy {isRead : Bool} (hb : s.status.busy = true) (h : reach s isRead addr n = some l) :
    isRead = true ∧ addr = 0x24#32 ∧ n = 4 := by
  unfold reach at h
  split_ifs at h with hn
  split at h
  · rename_i l' hl
    split_ifs at h with hstop
    have hread : isRead = true ∧ l' = .status := by
      by_contra hnot
      exact hstop ⟨hb, hnot⟩
    obtain ⟨hr, rfl⟩ := hread
    exact ⟨hr, BitVec.eq_of_toNat_eq (locate_status hl), hn⟩
  · cases h

/-- Nothing stands at a misaligned address or in a reserved range (R36, R37). -/
theorem locate_eq_none (hv : c.Valid) {b : Nat}
    (h : b % 4 ≠ 0 ∨ (0x9C ≤ b ∧ b < 0x400) ∨ (0x400 + 0x40 * c.nch ≤ b ∧ b < 0x100000) ∨
      (0x100000 + 4 * c.dmWords ≤ b ∧ b < 0x200000) ∨ (0x200000 + 4 * c.wmWords ≤ b ∧ b < 0x300000) ∨
      0x300000 + 4 * c.ovWords ≤ b) : locate c b = none := by
  obtain ⟨⟨-, hnch⟩, -, ⟨-, hdm⟩, ⟨-, hwm⟩, ⟨-, hov⟩, -⟩ := hv
  rw [Option.eq_none_iff_forall_ne_some]
  intro l hl
  obtain ⟨halign, ⟨hlow, -⟩ | ⟨hge, hlt, -⟩ | ⟨sp, hmem⟩⟩ := locate_cases hl
  · omega
  · omega
  · obtain ⟨hwindow, -⟩ := windowLoc_eq_some.1 hmem
    cases sp <;> simp only [windowBase, Config.words] at hwindow <;> omega

/-- Settles O43: such an access reaches nothing, because of its width or because nothing stands there. -/
theorem badAccessAnswersError : Obligations.BadAccessAnswersError := by
  intro addr n v s hv h
  have hnone : n ≠ 4 ∨ locate s.cfg addr.toNat = none := h.imp_right (locate_eq_none hv)
  exact ⟨serve_read_error (reach_eq_none hnone), serve_write_error (reach_eq_none hnone) v⟩

/-! ## A busy port -/

/-- Busy or idle, a word read of `STATUS` is served. -/
theorem serve_read_status (s : State) :
    serve (.read 0x24#32 4) s = { s with resp := some (.okayData s.status.word) } := by
  have hl : locate s.cfg (0x24#32).toNat = some .status := locate_low (k := 9) (by decide)
  have hr : reach s true 0x24#32 4 = some .status := by
    unfold reach
    rw [if_pos rfl, hl]
    exact if_neg fun hstop => hstop.2 ⟨rfl, rfl⟩
  simp only [serve, hr, readLoc]

theorem serve_busy_error {a : HostAccess} (hb : s.status.busy = true) (ha : a ≠ .read 0x24#32 4) :
    serve a s = { s with resp := some .error } := by
  cases a with
  | read addr n =>
    refine serve_read_error (Option.eq_none_iff_forall_ne_some.2 fun l hl => ha ?_)
    obtain ⟨-, rfl, rfl⟩ := reach_busy hb hl
    rfl
  | write addr n v =>
    refine serve_write_error (Option.eq_none_iff_forall_ne_some.2 fun l hl => ?_) v
    obtain ⟨hread, -⟩ := reach_busy hb hl
    cases hread

/-- Settles O42: `reach_busy` leaves the word read of `STATUS` only, whose bit 31 is `BUSY`. -/
theorem busyPortServesOnlyStatus : Obligations.BusyPortServesOnlyStatus := by
  refine ⟨fun a s hb => ⟨?_, serve_busy_error hb, ?_⟩, fun _ _ => rfl⟩
  · rintro rfl
    exact serve_read_status s
  · obtain ⟨-, -, -, -, -, hbusy⟩ := s.status.word_fields
    exact hbusy.trans hb

/-! ## Access rights -/

/-- The locations a host write does not change (R39): the constant registers with the hole at `0x1C`, `STATUS`,
`RET`, `CMDCNT`, the reservoir record and the contexts. -/
def Loc.readOnly : Loc → Bool
  | .constant _ => true
  | .status => true
  | .ret => true
  | .cmdCnt => true
  | .rc _ => true
  | .ctx _ _ => true
  | _ => false

theorem writeLoc_readOnly (hl : l.readOnly = true) (v : Word) : writeLoc s l v = s := by
  cases l <;> first | rfl | cases hl

theorem serve_write_readOnly (hb : s.status.busy = false) (hloc : locate s.cfg addr.toNat = some l)
    (hl : l.readOnly = true) (v : Word) : serve (.write addr 4 v) s = { s with resp := some .okay } := by
  rw [serve_write hb hloc, writeLoc_readOnly hl]

theorem lowRegister_readOnly {k : Nat}
    (hk : k < 8 ∨ k = 9 ∨ k = 10 ∨ k = 14 ∨ (32 ≤ k ∧ k < 39)) : (lowRegister c k).readOnly = true := by
  have hlt : k < 39 := by omega
  interval_cases k <;> first | rfl | omega

/-- The read-only registers stand where R36 puts them. -/
theorem locate_readOnly (hv : c.Valid) {b : Nat} (halign : b % 4 = 0)
    (h : b < 0x20 ∨ b = 0x24 ∨ b = 0x28 ∨ b = 0x38 ∨ (0x80 ≤ b ∧ b < 0x9C) ∨
      (0x400 ≤ b ∧ b < 0x400 + 0x40 * c.nch)) : ∃ l, locate c b = some l ∧ l.readOnly = true := by
  by_cases hlow : b < 0x9C
  · obtain ⟨k, rfl⟩ : ∃ k, b = 4 * k := ⟨b / 4, by omega⟩
    exact ⟨_, locate_low (by omega), lowRegister_readOnly (by omega)⟩
  · obtain ⟨⟨-, hnch⟩, -⟩ := hv
    obtain ⟨ch, k, hch, hk, rfl⟩ :
        ∃ (ch : Chan) (k : Nat), ch.val < c.nch ∧ k < 16 ∧ b = 0x400 + 0x40 * ch.val + 4 * k :=
      ⟨⟨(b - 0x400) / 0x40, by omega⟩, b % 0x40 / 4, by simp only; omega, by omega, by simp only; omega⟩
    exact ⟨_, locate_ctx hch hk, rfl⟩

/-- A read changes the port's answer only. -/
theorem serve_read_resp (addr : Word) (n : Nat) (s : State) :
    ∃ r, serve (.read addr n) s = { s with resp := some r } := by
  rcases serve_cases (.read addr n) s with h | ⟨-, _, _, _, hwrite, -⟩
  · exact h
  · cases hwrite

/-- Settles O44: a read is no write; what stands at the listed addresses is read-only; `CMD` and `CTRL` are the
registers of word index 8 and 15. -/
theorem hostAccessRights : Obligations.HostAccessRights := by
  refine ⟨serve_read_resp, fun s v hv hb => ⟨fun addr halign h => ?_, reads_low hb 8, reads_low hb 15⟩⟩
  obtain ⟨l, hloc, hl⟩ := locate_readOnly hv halign h
  exact serve_write_readOnly hb hloc hl v

/-! ## Memory words -/

theorem byteAt_resp (s : State) (r : Option HostResponse) (sp : Space) (b : Nat) :
    State.byteAt { s with resp := r } sp b = s.byteAt sp b := by
  cases sp <;> rfl

theorem wordAt_resp (s : State) (r : Option HostResponse) (sp : Space) (a : Nat) :
    State.wordAt { s with resp := r } sp a = s.wordAt sp a := by
  cases sp <;> rfl

/-- Settles O46: the address is located in its window before and after the write, and the write is one
`setWord`. -/
theorem hostMemoryReadAfterWrite : Obligations.HostMemoryReadAfterWrite := by
  intro sp a v s hv hb ha
  have hloc : locate s.cfg (memAddr sp a).toNat = some (.mem sp a) := by
    rw [toNat_memAddr hv ha, locate_window hv ha]
  have hcfg : (s.setWord sp a v).cfg = s.cfg := State.setMem_cfg s sp _
  have hstatus : (s.setWord sp a v).status = s.status := State.setMem_status s sp _
  refine ⟨_, serve_write hb hloc v, rfl, ?_, fun b hout => ?_, fun sp' hne b => ?_, ?_⟩
  · have hread := serve_read (s := { s.setWord sp a v with resp := some .okay })
      (by rw [hstatus]; exact hb) (by rw [hcfg]; exact hloc)
    rwa [readLoc, wordAt_resp, State.wordAt_setWord, if_pos rfl] at hread
  · rw [byteAt_resp]
    exact State.byteAt_setWord_of_ne s sp a b v (by omega)
  · rw [byteAt_resp]
    exact State.byteAt_setWord_ne s a b v hne
  · simp [writeLoc, State.setWord]

end Sys2Proof.Machine
end

section
/-! # Every command answers, and writes only its memories: O16, O51 -/

namespace Sys2Proof.Machine

variable {op : BitVec 8} {cb : BitVec 4} {ch : Chan} {checks : State → List Check}
  {effect : State → Except Fault (State × Code)} {i : Instr} {s u : State}

/-! ## Every command answers a next state -/

/-- The outcome is a next state: neither a fault nor a refusal of the model. -/
def Answers (o : Host.Outcome State Fault Refusal) : Prop := ∃ t, o = .next t

/-- The effect answers whenever the checks pass, so that no range fault of `memRead` or `memWrite` comes up
(spec/20_memory.md R44). -/
def EffectAnswers (checks : State → List Check) (effect : State → Except Fault (State × Code))
    (s : State) : Prop :=
  firstFailure (checks s) = none → ∃ p, effect s = .ok p

theorem runRule_answers (h : EffectAnswers checks effect s) : Answers (runRule op cb checks effect s) := by
  cases hc : firstFailure (checks s) with
  | some c => exact ⟨_, runRule_refuses hc⟩
  | none =>
    obtain ⟨⟨t, c⟩, he⟩ := h hc
    exact ⟨_, runRule_ok hc he⟩

theorem runGlobal_answers (h : EffectAnswers checks effect s) :
    Answers (runGlobal op checks effect s) := by
  cases hf : s.status.fatal
  · rw [runGlobal_ready hf]; exact runRule_answers h
  · exact ⟨_, runGlobal_fatal hf⟩

theorem runChannel_answers (h : EffectAnswers checks effect s) :
    Answers (runChannel op ch checks effect s) := by
  cases hf : s.status.fatal
  · rcases Nat.lt_or_ge ch.val s.cfg.nch with hn | hn
    · rw [runChannel_ready hf hn]; exact runRule_answers h
    · exact ⟨_, runChannel_absent hf hn⟩
  · exact ⟨_, runChannel_fatal hf⟩

/-- Only a context that satisfies `CtxInv` gets as far as the effect (spec/30_encoding.md R56 step 5). -/
theorem runContext_answers (h : s.CtxInv ch (s.ctx ch) → EffectAnswers checks effect s) :
    Answers (runContext op ch checks effect s) := by
  cases hf : s.status.fatal
  · rcases Nat.lt_or_ge ch.val s.cfg.nch with hn | hn
    · cases hv : (s.ctx ch).valid
      · exact ⟨_, runContext_unbound hf hn hv⟩
      · by_cases hi : s.CtxInv ch (s.ctx ch)
        · rw [runContext_ready hf hn hv hi]; exact runRule_answers (h hi)
        · exact ⟨_, runContext_broken hf hn hv hi⟩
    · exact ⟨_, runContext_absent hf hn⟩
  · exact ⟨_, runContext_fatal hf⟩

theorem exec_answers (i : Instr) (s : State) : Answers (exec i s) := by
  cases i with
  | nop => exact runGlobal_answers fun _ => ⟨_, rfl⟩
  | init ch => exact runChannel_answers fun h => ⟨_, initEffect_of_pass (initChecks_pass.1 h)⟩
  | free ch => exact runChannel_answers fun _ => ⟨_, rfl⟩
  | ctxld ch => exact runChannel_answers fun _ => ⟨_, rfl⟩
  | fwd ch => exact runContext_answers fun hi h => ⟨_, fwdEffect_of_pass hi (fwdChecks_pass.1 h)⟩
  | adapt ch => exact runContext_answers fun _ _ => ⟨_, rfl⟩
  | gain => exact runGlobal_answers fun _ => ⟨_, rfl⟩
  | inv ch => exact runContext_answers fun hi h => ⟨_, invEffect_of_pass hi (invChecks_pass.1 h)⟩
  | drain ch => exact runContext_answers fun hi h => ⟨_, drainEffect_of_pass hi (drainChecks_pass.1 h)⟩
  | peek ch => exact runContext_answers fun hi h => ⟨_, peekEffect_of_pass hi (peekChecks_pass.1 h)⟩
  | rcinit => exact runGlobal_answers fun _ => ⟨_, rfl⟩
  | rcallow m => exact runGlobal_answers fun _ => ⟨_, rfl⟩
  | rcupd m => exact runGlobal_answers fun _ => ⟨_, rfl⟩

theorem complete_answers (s : State) : Answers (complete s) := by
  cases hd : decode s.latch with
  | ok i => rw [complete_of_decode hd]; exact exec_answers i s
  | error e => exact ⟨completeIllegal e s, by simp only [complete, latched, hd]⟩

theorem engineTurn_answers (s : State) : Answers (engineTurn s) := by
  cases hb : s.status.busy
  · exact ⟨s, engineTurn_idle hb⟩
  · rw [engineTurn_busy hb]; exact complete_answers s

theorem step_answers (s : State) : Answers (step s) := by
  rcases ht : s.turns with _ | ⟨turn, rest⟩
  · rw [step_no_turn ht]; exact engineTurn_answers s
  · cases turn with
    | host a => exact ⟨_, step_host ht⟩
    | engine => rw [step_engine ht]; exact engineTurn_answers _
    | rst => exact ⟨_, step_rst ht⟩

/-- Settles O16: the checks of each command cover every region its effect touches; a step takes one turn, and
each turn answers. -/
theorem everyCommandCompletes : Obligations.EveryCommandCompletes :=
  ⟨exec_answers, step_answers⟩

/-! ## Which memories a command writes -/

/-- The memories that spec/20_memory.md R35 lets a command write. -/
def storedSpaces : Instr → List Space
  | .init _ => [.ov]
  | .fwd _ => [.dm, .ov]
  | .inv _ => [.dm, .ov]
  | .drain _ => [.dm, .ov]
  | .peek _ => [.dm]
  | _ => []

theorem initState_sameBytes {sp : Space} (h : sp ≠ .ov) : SameBytes sp s (initState ch s) := fun b => by
  simp only [initState, State.byteAt_setRet, State.byteAt_setCtx, State.byteAt_setMem_ne _ _ h]

theorem fwdState_sameBytes {sp : Space} (hd : sp ≠ .dm) (ho : sp ≠ .ov) :
    SameBytes sp s (fwdState ch s) := fun b => by
  simp only [fwdState, fwdMemories, State.byteAt_setRet, State.byteAt_setFlags, State.byteAt_setArg,
    State.byteAt_setCtx, State.byteAt_setMem_ne _ _ hd, State.byteAt_setMem_ne _ _ ho]

theorem invState_sameBytes {sp : Space} (hd : sp ≠ .dm) (ho : sp ≠ .ov) :
    SameBytes sp s (invState ch s) := fun b => by
  simp only [invState, invMemories, State.byteAt_setRet, State.byteAt_setFlags, State.byteAt_setCtx,
    State.byteAt_setMem_ne _ _ hd, State.byteAt_setMem_ne _ _ ho]

theorem drainState_sameBytes {sp : Space} (hd : sp ≠ .dm) (ho : sp ≠ .ov) :
    SameBytes sp s (drainState ch s) := fun b => by
  simp only [drainState, State.byteAt_setRet, State.byteAt_setCtx, State.byteAt_setMem_ne _ _ hd,
    State.byteAt_setMem_ne _ _ ho]

theorem peekState_sameBytes {sp : Space} (hd : sp ≠ .dm) : SameBytes sp s (peekState ch s) := fun b => by
  simp only [peekState, State.byteAt_setRet, State.byteAt_setFlags, State.byteAt_setMem_ne _ _ hd]

/-- A command's own rule leaves every memory but those of R35 as it was. -/
theorem EffectOf.sameBytes {c : Code} (h : EffectOf i s u c) {sp : Space} (hsp : sp ∉ storedSpaces i) :
    SameBytes sp s u := by
  cases i <;> simp only [EffectOf, storedSpaces, List.mem_cons, List.not_mem_nil, or_false, not_or,
    not_false_eq_true] at h hsp
  case init => obtain ⟨-, rfl, -⟩ := h; exact initState_sameBytes hsp
  case fwd => obtain ⟨-, rfl, -⟩ := h; exact fwdState_sameBytes hsp.1 hsp.2
  case inv => obtain ⟨-, rfl, -⟩ := h; exact invState_sameBytes hsp.1 hsp.2
  case drain => obtain ⟨-, rfl, -⟩ := h; exact drainState_sameBytes hsp.1 hsp.2
  case peek => obtain ⟨-, rfl, -⟩ := h; exact peekState_sameBytes hsp
  case nop => obtain ⟨-, rfl⟩ := h; exact State.byteAt_setRet s _ sp
  case gain => obtain ⟨-, rfl⟩ := h; exact fun b => by simp
  case free => obtain ⟨-, rfl, -⟩ := h; exact fun b => by simp
  case ctxld => obtain ⟨-, rfl, -⟩ := h; exact fun b => by simp
  case adapt => obtain ⟨-, rfl, -⟩ := h; exact fun b => by simp [adaptState]
  case rcinit => obtain ⟨-, rfl, -⟩ := h; exact fun b => by simp [rcinitState]
  case rcallow => obtain ⟨-, rfl⟩ := h; exact State.byteAt_setRet s _ sp
  case rcupd => obtain ⟨-, rfl, -⟩ := h; exact fun b => by simp [rcupdState]

/-- A refusal and the fatal state touch no memory at all. -/
theorem exec_sameBytes {t : State} (h : exec i s = .next t) {sp : Space} (hsp : sp ∉ storedSpaces i) :
    SameBytes sp s t := by
  rcases exec_cases h with ⟨c, -, -, rfl⟩ | ⟨-, -, rfl, -⟩ | ⟨-, u, c, hu, -, -, -, rfl⟩
  · exact State.byteAt_refuse _ _ c s sp
  · exact State.byteAt_enterFatal _ _ s sp
  · exact fun b => (State.byteAt_finish _ _ c u sp b).trans (hu.sameBytes hsp b)

theorem wm_not_mem_storedSpaces (i : Instr) : Space.wm ∉ storedSpaces i := by
  cases i <;> simp [storedSpaces]

theorem ov_not_mem_storedSpaces
    (h : ∀ ch, i ≠ .init ch ∧ i ≠ .fwd ch ∧ i ≠ .inv ch ∧ i ≠ .drain ch) : Space.ov ∉ storedSpaces i := by
  cases i <;> simp_all [storedSpaces]

theorem dm_not_mem_storedSpaces
    (h : ∀ ch, i ≠ .fwd ch ∧ i ≠ .inv ch ∧ i ≠ .drain ch ∧ i ≠ .peek ch) : Space.dm ∉ storedSpaces i := by
  cases i <;> simp_all [storedSpaces]

/-- Settles O51: the table of R35, and `exec_sameBytes` for what it leaves out. -/
theorem commandsWriteOnlyTheirMemories : Obligations.CommandsWriteOnlyTheirMemories := by
  intro i s t h
  exact ⟨exec_sameBytes h (wm_not_mem_storedSpaces i),
    fun hov => exec_sameBytes h (ov_not_mem_storedSpaces hov),
    fun hdm => exec_sameBytes h (dm_not_mem_storedSpaces hdm)⟩

end Sys2Proof.Machine
end

section
/-! # Decoding and encoding: O1, O2, O3

A word is its five fields (spec/30_encoding.md R55), so a word decodes to a command exactly when its fields are
the command's (R57), and a mask and match are conditions on the fields one by one. -/

namespace Sys2Proof

variable {w : Word} {i : Instr}

/-! ## The fields of a word -/

theorem append_eq_append_iff {m n : Nat} {x x' : BitVec m} {y y' : BitVec n} :
    x ++ y = x' ++ y' ↔ x = x' ∧ y = y' := by
  constructor
  · intro h
    constructor
    · rw [← BitVec.extractLsb'_append_eq_left (a := x) (b := y), h, BitVec.extractLsb'_append_eq_left]
    · rw [← BitVec.extractLsb'_append_eq_right (a := x) (b := y), h, BitVec.extractLsb'_append_eq_right]
  · rintro ⟨rfl, rfl⟩
    rfl

theorem append_fields_inj {o o' : BitVec 8} {r r' : BitVec 12} {c c' : BitVec 4} {z z' : BitVec 7}
    {b b' : BitVec 1} :
    o ++ r ++ c ++ z ++ b = o' ++ r' ++ c' ++ z' ++ b' ↔ o = o' ∧ r = r' ∧ c = c' ∧ z = z' ∧ b = b' := by
  simp only [append_eq_append_iff, and_assoc]

/-- A word has given fields exactly when it is those fields in the order of R55. -/
theorem eq_append_iff_fields {o : BitVec 8} {r : BitVec 12} {c : BitVec 4} {z : BitVec 7} {b : BitVec 1} :
    w = o ++ r ++ c ++ z ++ b ↔
      opcField w = o ∧ rsv1Field w = r ∧ chField w = c ∧ rsv0Field w = z ∧ mField w = b := by
  conv_lhs => rw [word_eq_fields w]
  exact append_fields_inj

/-! ## The decoder accepts exactly the command words -/

/-- The bit of `M` that a decoded modifier stands for (R59). -/
theorem ofBool_decide_eq_one (b : BitVec 1) : BitVec.ofBool (decide (b = 1)) = b := by
  revert b; decide

/-- A word that decodes has its reserved fields 0 and the modifier bit of its command; `decode_fields` says the
same of `OPC` and `CH`. -/
theorem decode_reserved (h : decode w = .ok i) :
    rsv1Field w = 0 ∧ rsv0Field w = 0 ∧ mField w = modBits i := by
  unfold decode at h
  split at h
  case h_1 | h_7 | h_11 =>
    obtain ⟨rfl, hr1, hr0, hm, -⟩ := decodePlain_ok.1 h
    exact ⟨hr1, hr0, hm⟩
  case h_2 | h_3 | h_4 | h_5 | h_6 | h_8 | h_9 | h_10 =>
    obtain ⟨rfl, hr1, hr0, hm⟩ := decodeChan_ok.1 h
    exact ⟨hr1, hr0, hm⟩
  case h_12 | h_13 =>
    obtain ⟨rfl, hr1, hr0, -⟩ := decodeMod_ok.1 h
    exact ⟨hr1, hr0, (ofBool_decide_eq_one _).symm⟩
  case h_14 => cases h

theorem eq_encode_of_decode (h : decode w = .ok i) : w = encode i := by
  obtain ⟨hopc, hch⟩ := decode_fields h
  obtain ⟨hr1, hr0, hm⟩ := decode_reserved h
  exact eq_append_iff_fields.2 ⟨hopc, hr1, hch, hr0, hm⟩

theorem decode_encode (i : Instr) : decode (encode i) = .ok i := by
  obtain ⟨hopc, hr1, hch, hr0, hm⟩ := eq_append_iff_fields.1 (rfl : encode i = encode i)
  unfold decode
  rw [hopc]
  cases i with
  | nop | gain | rcinit => exact decodePlain_ok.2 ⟨rfl, hr1, hr0, hm, hch⟩
  | init ch | free ch | ctxld ch | fwd ch | adapt ch | inv ch | drain ch | peek ch =>
    exact decodeChan_ok.2 ⟨by rw [hch]; rfl, hr1, hr0, hm⟩
  | rcallow m | rcupd m => exact decodeMod_ok.2 ⟨by rw [hm]; cases m <;> rfl, hr1, hr0, hch⟩

theorem decode_eq_ok_iff : decode w = .ok i ↔ w = encode i :=
  ⟨eq_encode_of_decode, fun h => h ▸ decode_encode i⟩

/-- The fields of the words that decode to a given command. -/
theorem decode_eq_ok_iff_fields :
    decode w = .ok i ↔
      opcField w = opcode i ∧ rsv1Field w = 0 ∧ chField w = chanBits i ∧ rsv0Field w = 0 ∧
        mField w = modBits i :=
  decode_eq_ok_iff.trans eq_append_iff_fields

/-! ## Illegal opcodes -/

theorem decodePlain_ne_illegalOpcode : decodePlain w i ≠ .error .illegalOpcode := by
  unfold decodePlain
  split <;> simp

theorem decodeChan_ne_illegalOpcode {f : Chan → Instr} : decodeChan w f ≠ .error .illegalOpcode := by
  unfold decodeChan
  split <;> simp

theorem decodeMod_ne_illegalOpcode {f : Bool → Instr} : decodeMod w f ≠ .error .illegalOpcode := by
  unfold decodeMod
  split <;> simp

/-- Column `OPC` of R57: the opcodes that stand for a command. -/
def assignedOpcodes : List Nat :=
  [0x00, 0x10, 0x11, 0x12, 0x14, 0x18, 0x19, 0x1A, 0x1B, 0x1C, 0x20, 0x21, 0x22]

theorem decode_eq_illegalOpcode_iff :
    decode w = .error .illegalOpcode ↔ (opcField w).toNat ∉ assignedOpcodes := by
  unfold decode
  split
  case h_1 ho | h_7 ho | h_11 ho =>
    rw [ho]
    exact iff_of_false decodePlain_ne_illegalOpcode (by decide)
  case h_2 ho | h_3 ho | h_4 ho | h_5 ho | h_6 ho | h_8 ho | h_9 ho | h_10 ho =>
    rw [ho]
    exact iff_of_false decodeChan_ne_illegalOpcode (by decide)
  case h_12 ho | h_13 ho =>
    rw [ho]
    exact iff_of_false decodeMod_ne_illegalOpcode (by decide)
  case h_14 => simp_all [assignedOpcodes]

/-- Settles O1: an accepted word has the fields of its command and a command word is accepted as it; the
opcode alone decides `illegalOpcode`. -/
theorem decodeInvertsEncode : Obligations.DecodeInvertsEncode :=
  ⟨fun _ _ => decode_eq_ok_iff, fun _ => decode_eq_illegalOpcode_iff⟩

/-! ## Masks and matches -/

/-- The mask of a row without channel and modifier covers the whole word. -/
theorem decode_eq_ok_iff_mask : decode w = .ok i ↔ w &&& 0xFFFFFFFF#32 = encode i := by
  rw [show 0xFFFFFFFF#32 = BitVec.allOnes 32 from rfl, BitVec.and_allOnes, decode_eq_ok_iff]

theorem opcField_and (w v : Word) : opcField (w &&& v) = opcField w &&& opcField v := BitVec.extractLsb'_and
theorem rsv1Field_and (w v : Word) : rsv1Field (w &&& v) = rsv1Field w &&& rsv1Field v :=
  BitVec.extractLsb'_and
theorem chField_and (w v : Word) : chField (w &&& v) = chField w &&& chField v := BitVec.extractLsb'_and
theorem rsv0Field_and (w v : Word) : rsv0Field (w &&& v) = rsv0Field w &&& rsv0Field v :=
  BitVec.extractLsb'_and
theorem mField_and (w v : Word) : mField (w &&& v) = mField w &&& mField v := BitVec.extractLsb'_and

/-- Column "match" of R57: the opcode, and 0 in every other field. -/
def matchWord (o : BitVec 8) : Word := o ++ 0#12 ++ 0#4 ++ 0#7 ++ 0#1

/-- A mask and its match, field by field. -/
theorem and_eq_matchWord_iff {v : Word} {o : BitVec 8} :
    w &&& v = matchWord o ↔
      opcField w &&& opcField v = o ∧ rsv1Field w &&& rsv1Field v = 0#12 ∧
        chField w &&& chField v = 0#4 ∧ rsv0Field w &&& rsv0Field v = 0#7 ∧ mField w &&& mField v = 0#1 := by
  rw [matchWord, eq_append_iff_fields, opcField_and, rsv1Field_and, chField_and, rsv0Field_and, mField_and]

/-- The mask of a row with a channel leaves `CH` free. -/
theorem and_chanMask_iff {o : BitVec 8} :
    w &&& 0xFFFFF0FF#32 = matchWord o ↔
      opcField w = o ∧ rsv1Field w = 0 ∧ rsv0Field w = 0 ∧ mField w = 0 := by
  have hopc : opcField 0xFFFFF0FF#32 = BitVec.allOnes 8 := rfl
  have hrsv1 : rsv1Field 0xFFFFF0FF#32 = BitVec.allOnes 12 := rfl
  have hch : chField 0xFFFFF0FF#32 = 0#4 := rfl
  have hrsv0 : rsv0Field 0xFFFFF0FF#32 = BitVec.allOnes 7 := rfl
  have hm : mField 0xFFFFF0FF#32 = BitVec.allOnes 1 := rfl
  simp only [and_eq_matchWord_iff, hopc, hrsv1, hch, hrsv0, hm, BitVec.and_allOnes, BitVec.and_zero, true_and,
    BitVec.ofNat_eq_ofNat]

/-- The mask of a row with a modifier leaves `M` free. -/
theorem and_modMask_iff {o : BitVec 8} :
    w &&& 0xFFFFFFFE#32 = matchWord o ↔
      opcField w = o ∧ rsv1Field w = 0 ∧ chField w = 0 ∧ rsv0Field w = 0 := by
  have hopc : opcField 0xFFFFFFFE#32 = BitVec.allOnes 8 := rfl
  have hrsv1 : rsv1Field 0xFFFFFFFE#32 = BitVec.allOnes 12 := rfl
  have hch : chField 0xFFFFFFFE#32 = BitVec.allOnes 4 := rfl
  have hrsv0 : rsv0Field 0xFFFFFFFE#32 = BitVec.allOnes 7 := rfl
  have hm : mField 0xFFFFFFFE#32 = 0#1 := rfl
  simp only [and_eq_matchWord_iff, hopc, hrsv1, hch, hrsv0, hm, BitVec.and_allOnes, BitVec.and_zero, and_true,
    BitVec.ofNat_eq_ofNat]

/-- A row with a channel (R57, R58): `CH` may be anything. -/
theorem exists_decode_eq_ok_chan_iff {f : Chan → Instr} {o : BitVec 8}
    (hf : ∀ ch, opcode (f ch) = o ∧ (f ch).chan? = some ch ∧ (f ch).modifier? = none) :
    (∃ ch, decode w = .ok (f ch)) ↔ w &&& 0xFFFFF0FF#32 = matchWord o := by
  simp only [decode_eq_ok_iff_fields, and_chanMask_iff, chanBits, modBits, hf]
  constructor
  · rintro ⟨ch, ho, hr1, -, hr0, hm⟩
    exact ⟨ho, hr1, hr0, hm⟩
  · rintro ⟨ho, hr1, hr0, hm⟩
    exact ⟨(chField w).toFin, ho, hr1, rfl, hr0, hm⟩

/-- A row with a modifier (R57, R59): `M` may be either bit. -/
theorem exists_decode_eq_ok_mod_iff {f : Bool → Instr} {o : BitVec 8}
    (hf : ∀ m, opcode (f m) = o ∧ (f m).chan? = none ∧ (f m).modifier? = some m) :
    (∃ m, decode w = .ok (f m)) ↔ w &&& 0xFFFFFFFE#32 = matchWord o := by
  simp only [decode_eq_ok_iff_fields, and_modMask_iff, chanBits, modBits, hf]
  constructor
  · rintro ⟨m, ho, hr1, hc, hr0, -⟩
    exact ⟨ho, hr1, hc, hr0⟩
  · rintro ⟨ho, hr1, hc, hr0⟩
    exact ⟨decide (mField w = 1), ho, hr1, hc, hr0, (ofBool_decide_eq_one _).symm⟩

/-- Settles O2: each row of R57 by the kind of its mask. -/
theorem maskAndMatchSelectCommand : Obligations.MaskAndMatchSelectCommand := fun _ =>
  ⟨decode_eq_ok_iff_mask,
    exists_decode_eq_ok_chan_iff (o := 0x10#8) fun _ => ⟨rfl, rfl, rfl⟩,
    exists_decode_eq_ok_chan_iff (o := 0x11#8) fun _ => ⟨rfl, rfl, rfl⟩,
    exists_decode_eq_ok_chan_iff (o := 0x12#8) fun _ => ⟨rfl, rfl, rfl⟩,
    exists_decode_eq_ok_chan_iff (o := 0x14#8) fun _ => ⟨rfl, rfl, rfl⟩,
    exists_decode_eq_ok_chan_iff (o := 0x18#8) fun _ => ⟨rfl, rfl, rfl⟩,
    decode_eq_ok_iff_mask,
    exists_decode_eq_ok_chan_iff (o := 0x1A#8) fun _ => ⟨rfl, rfl, rfl⟩,
    exists_decode_eq_ok_chan_iff (o := 0x1B#8) fun _ => ⟨rfl, rfl, rfl⟩,
    exists_decode_eq_ok_chan_iff (o := 0x1C#8) fun _ => ⟨rfl, rfl, rfl⟩,
    decode_eq_ok_iff_mask,
    exists_decode_eq_ok_mod_iff (o := 0x21#8) fun _ => ⟨rfl, rfl, rfl⟩,
    exists_decode_eq_ok_mod_iff (o := 0x22#8) fun _ => ⟨rfl, rfl, rfl⟩⟩

/-- Settles O3: the first four words are the encodings of their commands; a reserved bit is an illegal field;
opcode 0x15 is unassigned. -/
theorem specWordsDecode : Obligations.SpecWordsDecode :=
  ⟨decode_encode .nop, decode_encode (.fwd 1), decode_encode (.inv 15), decode_encode (.rcupd true),
    by decide, decode_eq_illegalOpcode_iff.2 (by decide)⟩

end Sys2Proof
end

section
/-! # Illegal words, the common checks, the fetched word: O6, O7, O9 -/

namespace Sys2Proof.Machine

variable {s : State} {i : Instr} {ch : Chan}

/-! ## A word placed in the latch -/

theorem withFetchWord_eq_armLatch (s : State) (w : Word) : s.withFetchWord 32 w.toNat = armLatch s w := by
  have hw : w32n w.toNat = w := by simp
  rw [State.withFetchWord, Nat.mod_eq_of_lt w.isLt, hw]

/-- Settles O6: the armed engine's turn comes first, its engine is busy, and its latch decodes to `i`. -/
theorem fetchWordRunsNext : Obligations.FetchWordRunsNext := by
  intro s w i hd
  rw [withFetchWord_eq_armLatch, step_engine (s := armLatch s w) rfl, engineTurn_busy rfl]
  exact complete_of_decode hd

/-! ## Illegal words -/

theorem complete_of_decode_error {e : DecodeError} (h : decode s.latch = .error e) :
    complete s = .next (completeIllegal e s) := by
  simp only [complete, latched, h]

theorem Code.setsDone_of_isRefusal {c : Code} (h : c.isRefusal = true) : c.setsDone = false := by
  revert h; cases c <;> decide

theorem Code.setsErr_of_isRefusal {c : Code} (h : c.isRefusal = true) : c.setsErr = true := by
  revert h; cases c <;> decide

/-- The whole state after a refusal (spec/60_exceptions.md R137). -/
theorem refuse_of_isRefusal {c : Code} (hc : c.isRefusal = true) (op : BitVec 8) (cb : BitVec 4)
    (s : State) :
    refuse op cb c s = { s with
      status := { code := c, lastOp := op, lastCh := cb, fatal := s.status.fatal, busy := false }
      ret := 0#32
      irqStat := { done := s.irqStat.done, err := true } } := by
  have hret : c.zeroesRet = true := by simp [Code.zeroesRet, hc]
  have hirq : s.irqStat.raise c = { done := s.irqStat.done, err := true } := by
    simp [IrqBits.raise, Code.setsDone_of_isRefusal hc, Code.setsErr_of_isRefusal hc]
  simp [refuse, finish, hret, hirq]

theorem illegalCode_isRefusal (e : DecodeError) : (illegalCode e).isRefusal = true := by
  cases e <;> rfl

/-- Settles O7: the code is a refusal, fatal or not, so the state after it is that of a refusal. -/
theorem illegalWordRefused : Obligations.IllegalWordRefused := by
  intro s e hd
  have hc : (if s.status.fatal then Code.eFatal else illegalCode e).isRefusal = true := by
    split
    · rfl
    · exact illegalCode_isRefusal e
  rw [complete_of_decode_error hd, completeIllegal, refuse_of_isRefusal hc]
  rfl

/-! ## The common checks -/

/-- The commands that need a bound context (R56 steps 4 and 5). -/
def contextCommands (ch : Chan) : List Instr := [.fwd ch, .adapt ch, .inv ch, .drain ch, .peek ch]

theorem exec_eq_runContext (h : i ∈ contextCommands ch) (s : State) :
    ∃ checks effect, exec i s = runContext (opcode i) ch checks effect s := by
  simp only [contextCommands, List.mem_cons, List.not_mem_nil, or_false] at h
  rcases h with rfl | rfl | rfl | rfl | rfl <;> exact ⟨_, _, rfl⟩

/-- A command with a channel is one on a bound context, or runs through `runChannel`. -/
theorem exec_of_chan (h : i.chan? = some ch) (s : State) :
    i ∈ contextCommands ch ∨
      ∃ checks effect, exec i s = runChannel (opcode i) ch checks effect s := by
  cases i <;> cases h
  case init | free | ctxld => exact .inr ⟨_, _, rfl⟩
  case fwd | adapt | inv | drain | peek => exact .inl (by simp [contextCommands])

theorem exec_chan_fatal (h : i.chan? = some ch) (hf : s.status.fatal = true) :
    exec i s = .next (refuse (opcode i) (BitVec.ofFin ch) .eFatal s) := by
  rcases exec_of_chan h s with hm | ⟨checks, effect, he⟩
  · obtain ⟨checks, effect, he⟩ := exec_eq_runContext hm s
    rw [he, runContext_fatal hf]
  · rw [he, runChannel_fatal hf]

theorem exec_chan_absent (h : i.chan? = some ch) (hf : s.status.fatal = false)
    (hn : s.cfg.nch ≤ ch.val) :
    exec i s = .next (refuse (opcode i) (BitVec.ofFin ch) .eIllfld s) := by
  rcases exec_of_chan h s with hm | ⟨checks, effect, he⟩
  · obtain ⟨checks, effect, he⟩ := exec_eq_runContext hm s
    rw [he, runContext_absent hf hn]
  · rw [he, runChannel_absent hf hn]

theorem exec_unbound (h : i ∈ contextCommands ch)
    (hr : ChannelReady ch s) (hv : (s.ctx ch).valid = false) :
    exec i s = .next (refuse (opcode i) (BitVec.ofFin ch) .eNoctx s) := by
  obtain ⟨checks, effect, he⟩ := exec_eq_runContext h s
  obtain ⟨hf, hn⟩ := hr
  rw [he, runContext_unbound hf hn hv]

theorem exec_broken (h : i ∈ contextCommands ch)
    (hr : ChannelReady ch s) (hv : (s.ctx ch).valid = true) (hi : ¬ s.CtxInv ch (s.ctx ch)) :
    exec i s = .next (enterFatal (opcode i) (BitVec.ofFin ch) s) := by
  obtain ⟨checks, effect, he⟩ := exec_eq_runContext h s
  obtain ⟨hf, hn⟩ := hr
  rw [he, runContext_broken hf hn hv hi]

/-- Settles O9: every command answers, and each common check that fails fixes the answer. -/
theorem commonChecksInOrder : Obligations.CommonChecksInOrder := by
  intro i ch s hch
  obtain ⟨t, ht⟩ := exec_answers i s
  have answer {u : State} (hu : exec i s = .next u) : t = u := by
    rw [hu] at ht; cases ht; rfl
  refine ⟨t, ht, fun hf => ?_, fun hf hn => ?_, fun hm hr => ⟨fun hv => ?_, fun hv hi => ?_⟩⟩
  · rw [answer (exec_chan_fatal hch hf), refuse_status]
  · rw [answer (exec_chan_absent hch hf hn), refuse_status]
  · rw [answer (exec_unbound hm hr hv), refuse_status]
  · rw [answer (exec_broken hm hr hv hi), enterFatal_status]
    exact ⟨rfl, rfl⟩

end Sys2Proof.Machine
end

section
/-! # The rounding shift, saturation and the integer logarithms: O57, O58 -/

namespace Sys2Proof.Machine

/-! ## The rounding shift and saturation -/

/-- `rshr` over the rationals, for a right shift (R71). -/
theorem rshr_eq_floor {v s : Int} (h : 0 < s) :
    rshr v s = ⌊((v : ℚ) + (2 : ℚ) ^ (s - 1)) / (2 : ℚ) ^ s⌋ := by
  obtain ⟨n, rfl⟩ : ∃ n : Nat, s = (n + 1 : Nat) := ⟨(s - 1).toNat, by omega⟩
  have hs : ((n + 1 : Nat) : Int) - 1 = (n : Nat) := by omega
  have hq : ((v : ℚ) + (2 : ℚ) ^ n) / (2 : ℚ) ^ (n + 1) =
      ((v + 2 ^ n : Int) : ℚ) / ((2 ^ (n + 1) : Nat) : ℚ) := by push_cast; rfl
  rw [rshr_of_pos h, hs, zpow_natCast, zpow_natCast, hq, Rat.floor_intCast_div_natCast]
  simp

/-- `rshr` over the rationals, for a left shift (R71). -/
theorem rshr_cast_of_nonpos {v s : Int} (h : s ≤ 0) : (rshr v s : ℚ) = (v : ℚ) * (2 : ℚ) ^ (-s) := by
  obtain ⟨n, hn⟩ : ∃ n : Nat, -s = n := ⟨(-s).toNat, by omega⟩
  rw [rshr_of_nonpos h, hn, zpow_natCast]
  simp

theorem rshr_eq_zero_of_cast {v s : Int} (h : 0 < s) (h1 : -(2 : ℚ) ^ (s - 1) ≤ (v : ℚ))
    (h2 : (v : ℚ) < (2 : ℚ) ^ (s - 1)) : rshr v s = 0 := by
  have hs : s - 1 = ((s.toNat - 1 : Nat) : Int) := by omega
  rw [hs, zpow_natCast] at h1 h2
  exact rshr_eq_zero h (by exact_mod_cast h1) (by exact_mod_cast h2)

theorem clamp_of_lt {v lo hi : Int} (h : v < lo) : clamp v lo hi = lo := if_pos h

theorem clamp_of_gt {v lo hi : Int} (h1 : lo ≤ v) (h2 : hi < v) : clamp v lo hi = hi := by
  rw [clamp, if_neg (by omega), if_pos h2]

theorem clamp_of_mem {v lo hi : Int} (h1 : lo ≤ v) (h2 : v ≤ hi) : clamp v lo hi = v := by
  rw [clamp, if_neg (by omega), if_neg (by omega)]

/-- The range of `sat32`, written with powers of two as R72 does. -/
theorem sat32_eq_clamp (v : Int) : sat32 v = clamp v (-2 ^ 31) (2 ^ 31 - 1) := rfl

theorem saturates_eq_true {v : Int} : saturates v = true ↔ i32Max < v ∨ v < i32Min := by
  rw [saturates, Bool.or_eq_true, decide_eq_true_eq, decide_eq_true_eq, or_comm]

theorem saturates_eq_false {v : Int} : saturates v = false ↔ i32Min ≤ v ∧ v ≤ i32Max := by
  rw [← Bool.not_eq_true, saturates_eq_true, not_or, not_lt, not_lt, and_comm]

/-- Settles O57: the rule over the rationals is `rshr_eq_floor` and `rshr_cast_of_nonpos`, and `sat32` is a
`clamp`. -/
theorem roundingShift : Obligations.RoundingShift := by
  refine ⟨fun v s => rshr_eq_floor, fun v s => rshr_cast_of_nonpos, fun v s => rshr_eq_zero_of_cast,
    by decide, by decide, by decide, by decide, by decide, by decide, by decide, by decide,
    fun v => ⟨fun h => ?above, fun h => ?below, fun h1 h2 => ?inside, ?flag⟩,
    fun v lo hi => ⟨clamp_of_lt, clamp_of_gt, clamp_of_mem⟩⟩
  case above => rw [sat32_eq_clamp]; exact clamp_of_gt (by omega) h
  case below => rw [sat32_eq_clamp]; exact clamp_of_lt h
  case inside => rw [sat32_eq_clamp]; exact clamp_of_mem h1 h2
  case flag => exact saturates_eq_true

/-! ## The integer logarithms -/

/-- `clog2` is the inverse of the powers of two from above (R77). -/
theorem clog2_le_iff {n c : Nat} : clog2 n ≤ c ↔ n ≤ 2 ^ c := by
  have hp := Nat.one_le_two_pow (n := c)
  unfold clog2
  split
  case isTrue h => omega
  case isFalse h => rw [Nat.succ_le_iff, Nat.log2_lt (by omega)]; omega

/-- `flog2` is the inverse of the powers of two from below (R77). -/
theorem le_flog2_iff {n c : Nat} (h : 1 ≤ n) : c ≤ flog2 n ↔ 2 ^ c ≤ n := Nat.le_log2 (by omega)

theorem le_two_pow_clog2 (n : Nat) : n ≤ 2 ^ clog2 n := clog2_le_iff.1 le_rfl

/-- Settles O58, from the two characterisations `clog2_le_iff` and `le_flog2_iff`. -/
theorem integerLogarithms : Obligations.IntegerLogarithms := by
  refine ⟨fun n _ => ⟨le_two_pow_clog2 n, fun c => clog2_le_iff.2⟩,
    fun n h => ⟨(le_flog2_iff h).1 le_rfl, fun c => (le_flog2_iff h).2⟩, fun tl => rfl, ?_⟩
  decide

end Sys2Proof.Machine
end

section
/-! # The symmetries of the coefficient ROM: O59 -/

namespace Sys2Proof.Machine

/-! ## Symmetries of the ROM (R75) -/

/-- `COSQ(N, r)` for an angle inside one period, `0 ≤ r ≤ 8N`, by the quadrant `r` lies in. -/
def cosqPeriod (N r : Nat) : Int :=
  let q := if 4 * N < r then 8 * N - r else r
  if 2 * N < q then -cosqQuarter N (4 * N - q) else cosqQuarter N q

section
variable {N r : Nat}

theorem cosqPeriod_first (h : r ≤ 2 * N) : cosqPeriod N r = cosqQuarter N r := by
  simp only [cosqPeriod, if_neg (show ¬ 4 * N < r by omega), if_neg (show ¬ 2 * N < r by omega)]

theorem cosqPeriod_second (h1 : 2 * N < r) (h2 : r ≤ 4 * N) :
    cosqPeriod N r = -cosqQuarter N (4 * N - r) := by
  simp only [cosqPeriod, if_neg (show ¬ 4 * N < r by omega), if_pos h1]

/-- The second half of the period mirrors the first. -/
theorem cosqPeriod_mirror (h : r ≤ 8 * N) : cosqPeriod N (8 * N - r) = cosqPeriod N r := by
  have hq : (if 4 * N < 8 * N - r then 8 * N - (8 * N - r) else 8 * N - r) =
      if 4 * N < r then 8 * N - r else r := by split_ifs <;> omega
  simp only [cosqPeriod, hq]

/-- Off the two zeros of the cosine, the first half is odd about its middle. -/
theorem cosqPeriod_reflect (h : r ≤ 4 * N) (hr : r ≠ 2 * N) :
    cosqPeriod N (4 * N - r) = -cosqPeriod N r := by
  rcases lt_or_gt_of_ne hr with h1 | h1
  · rw [cosqPeriod_first h1.le, cosqPeriod_second (by omega) (by omega), Nat.sub_sub_self h]
  · rw [cosqPeriod_second h1 h, cosqPeriod_first (by omega), neg_neg]

/-- The entry of an angle is found at its residue in the period. -/
theorem cosq_add_mul (h : r < 8 * N) (k : Int) : cosq N (r + 8 * N * k) = cosqPeriod N r := by
  have hr : (((r : Int) + 8 * N * k) % (8 * N : Nat)).toNat = r := by
    push_cast
    rw [Int.add_mul_emod_self_left, Int.emod_eq_of_lt (by omega) (by omega), Int.toNat_natCast]
  rw [cosq, hr, cosqPeriod]
end

/-- Every angle is a residue in the period and a number of periods. -/
theorem exists_eq_add_period {N : Nat} (hN : 1 ≤ N) (m : Int) :
    ∃ (r : Nat) (k : Int), r < 8 * N ∧ m = r + 8 * N * k := by
  have h0 := Int.emod_nonneg m (b := 8 * N) (by omega)
  have h1 := Int.emod_lt_of_pos m (b := 8 * N) (by omega)
  exact ⟨(m % (8 * N)).toNat, m / (8 * N), by omega, by
    rw [Int.toNat_of_nonneg h0, Int.emod_add_mul_ediv]⟩

theorem cosq_add_period {N : Nat} (hN : 1 ≤ N) (m k : Int) : cosq N (m + 8 * N * k) = cosq N m := by
  obtain ⟨r, j, hr, rfl⟩ := exists_eq_add_period hN m
  rw [add_assoc, ← mul_add, cosq_add_mul hr, cosq_add_mul hr]

theorem cosq_neg {N : Nat} (hN : 1 ≤ N) {m : Int} (hm : m % 2 = 1) : cosq N (-m) = cosq N m := by
  obtain ⟨r, j, hr, rfl⟩ := exists_eq_add_period hN m
  have h0 : r ≠ 0 := by
    rintro rfl
    rw [show ((0 : Nat) : Int) + 8 * N * j = 2 * (4 * N * j) by push_cast; ring] at hm
    omega
  have he : -((r : Int) + 8 * N * j) = (8 * N - r : Nat) + 8 * N * (-j - 1) := by
    push_cast [hr.le]; ring
  rw [he, cosq_add_mul (by omega), cosq_add_mul hr, cosqPeriod_mirror hr.le]

/-- Evenness reduces the reflection to the first half of the period. -/
theorem cosq_reflect {N : Nat} (hN : 1 ≤ N) {m : Int} (hm : m % 2 = 1) :
    cosq N (4 * N - m) = -cosq N m := by
  obtain ⟨r, j, hr, rfl⟩ := exists_eq_add_period hN m
  have hodd : r % 2 = 1 := by
    rw [show (r : Int) + 8 * N * j = r + 2 * (4 * N * j) by ring] at hm
    omega
  rw [cosq_add_mul hr]
  by_cases h : r ≤ 4 * N
  · have he : 4 * (N : Int) - (r + 8 * N * j) = (4 * N - r : Nat) + 8 * N * (-j) := by
      push_cast [h]; ring
    rw [he, cosq_add_mul (by omega), cosqPeriod_reflect h (by omega)]
  · have he : 4 * (N : Int) - (r + 8 * N * j) = (8 * N - (4 * N - (8 * N - r)) : Nat) +
        8 * N * (-j - 1) := by
      push_cast [show 4 * N - (8 * N - r) ≤ 8 * N by omega, show 8 * N - r ≤ 4 * N by omega, hr.le]; ring
    rw [he, cosq_add_mul (by omega), cosqPeriod_mirror (by omega), cosqPeriod_reflect (by omega) (by omega),
      cosqPeriod_mirror hr.le]

/-- Settles O59. -/
theorem romSymmetries : Obligations.RomSymmetries := fun N m hN _ hm =>
  have hN : 1 ≤ N := by omega
  ⟨cosq_add_period hN m, cosq_neg hN hm, cosq_reflect hN hm, abs_le.2 (cosq_bounds N m)⟩

end Sys2Proof.Machine
end

section
/-! # `FWD` never saturates: O28

The bounds of spec/40_numeric.md R82, stage by stage: samples and table words, window products, folded block, first
rounding, kernel, second rounding. -/

namespace Sys2Proof.Machine

variable {ch : Chan} {s : State}

theorem abs_s32_le (v : Word) : |s32 v| ≤ 2 ^ 31 := abs_le.2 ⟨v.le_toInt, v.toInt_lt.le⟩

theorem abs_fwdSample_le (d : Int) : |fwdSample s ch d| ≤ 2 ^ 31 := by
  rw [fwdSample, fwdLine]
  split_ifs <;> exact abs_s32_le _

theorem abs_mul_le_two_pow_62 {x w : Int} (hx : |x| ≤ 2 ^ 31) (hw : |w| ≤ 2 ^ 31) : |x * w| ≤ 2 ^ 62 :=
  calc |x * w| = |x| * |w| := abs_mul x w
    _ ≤ 2 ^ 31 * 2 ^ 31 := mul_le_mul hx hw (abs_nonneg w) (by norm_num)
    _ = 2 ^ 62 := by norm_num

/-- `|Pz| ≤ 2^62` (R82): a sample times a word of a slope table, times one, or nothing. -/
theorem abs_fwdPz_le (n : Nat) : |fwdPz s ch n| ≤ 2 ^ 62 := by
  unfold fwdPz
  dsimp only
  split_ifs
  · norm_num
  · exact abs_mul_le_two_pow_62 (abs_fwdSample_le _) (abs_s32_le _)
  · exact abs_mul_le_two_pow_62 (abs_fwdSample_le _) (by norm_num)
  · exact abs_mul_le_two_pow_62 (abs_fwdSample_le _) (abs_s32_le _)
  · norm_num

/-- `|P| ≤ 2^63` (R82). -/
theorem abs_fwdP_le (n : Nat) : |fwdP s ch n| ≤ 2 ^ 63 := by
  have hz := fun i => abs_le.1 (abs_fwdPz_le (s := s) (ch := ch) i)
  unfold fwdP
  dsimp only
  split_ifs
  · have h1 := hz (3 * (fwdOperands s).tl / 2 - 1 - n)
    have h2 := hz (3 * (fwdOperands s).tl / 2 + n)
    exact abs_le.2 (by omega)
  · have h1 := hz (n - (fwdOperands s).tl / 2)
    have h2 := hz (3 * (fwdOperands s).tl / 2 - 1 - n)
    exact abs_le.2 (by omega)

/-- A right shift keeps a bound that is a whole number of its steps. -/
theorem abs_rshr_le {v b k : Int} (hk : 0 < k) (h : |v| ≤ b * 2 ^ k.toNat) : |rshr v k| ≤ b := by
  obtain ⟨h1, h2⟩ := abs_le.1 h
  exact abs_le.2 ⟨le_rshr hk (by rw [neg_mul]; exact h1), rshr_le hk h2⟩

/-- `|U| ≤ 2^32` (R82). -/
theorem abs_rshr_fwdP_le (n : Nat) : |rshr (fwdP s ch n) 31| ≤ 2 ^ 32 :=
  abs_rshr_le (by norm_num) (by simpa [← pow_add] using abs_fwdP_le n)

/-- The kernel grows a bound by the length and by the ROM's greatest entry. -/
theorem abs_kernelSum_le {N : Nat} {a : Nat → Int} {b : Int} (ha : ∀ n, |a n| ≤ b) (k : Nat) :
    |kernelSum N a k| ≤ N * (b * (2 ^ 31 - 1)) := by
  have hterm : ∀ n ∈ Finset.range N,
      |a n * cosq N ((2 * n + 1) * (2 * k + 1) : Nat)| ≤ b * (2 ^ 31 - 1) := fun n _ => by
    rw [abs_mul]
    exact mul_le_mul (ha n) (abs_le.2 (cosq_bounds _ _)) (abs_nonneg _) ((abs_nonneg _).trans (ha n))
  calc |kernelSum N a k| ≤ ∑ n ∈ Finset.range N, |a n * cosq N ((2 * n + 1) * (2 * k + 1) : Nat)| :=
        Finset.abs_sum_le_sum_abs _ _
    _ ≤ (Finset.range N).card • (b * (2 ^ 31 - 1)) := Finset.sum_le_card_nsmul _ _ _ hterm
    _ = N * (b * (2 ^ 31 - 1)) := by rw [Finset.card_range, nsmul_eq_mul]

/-- `|rshr(Y, 31 + hs)| ≤ 2^31 − 1` (R82): the shift takes back the bit of the fold and the growth of the kernel,
because `tl ≤ 2^clog2(tl)`. -/
theorem abs_rshr_fwdY_le (k : Nat) : |rshr (fwdY s ch k) (31 + hs (fwdOperands s).tl)| ≤ 2 ^ 31 - 1 := by
  have hlen : ((fwdOperands s).tl : Int) ≤ 2 ^ clog2 (fwdOperands s).tl := by
    exact_mod_cast le_two_pow_clog2 (fwdOperands s).tl
  have hshift : (31 + (hs (fwdOperands s).tl : Int)).toNat = 32 + clog2 (fwdOperands s).tl := by
    unfold hs; omega
  refine abs_rshr_le (by omega) ?_
  rw [hshift]
  calc |fwdY s ch k| ≤ (fwdOperands s).tl * (2 ^ 32 * (2 ^ 31 - 1)) := abs_kernelSum_le abs_rshr_fwdP_le k
    _ ≤ 2 ^ clog2 (fwdOperands s).tl * (2 ^ 32 * (2 ^ 31 - 1)) := mul_le_mul_of_nonneg_right hlen (by norm_num)
    _ = (2 ^ 31 - 1) * 2 ^ (32 + clog2 (fwdOperands s).tl) := by rw [pow_add]; ring

theorem saturates_fwdY (s : State) (ch : Chan) (k : Nat) :
    saturates (rshr (fwdY s ch k) (31 + hs (fwdOperands s).tl)) = false := by
  have h := abs_le.1 (abs_rshr_fwdY_le (s := s) (ch := ch) k)
  exact saturates_eq_false.2 ⟨(by norm_num : i32Min ≤ -(2 ^ 31 - 1)).trans h.1, h.2⟩

/-- No line of the spectrum that `FWD` computes raises the flag. -/
theorem fwdSpectrum_any_saturates (g : FwdGeometry ch s) : ((fwdSpectrum ch s).any fun p => p.2) = false := by
  rw [List.any_eq_false]
  intro p hp
  obtain ⟨k, hk, rfl⟩ := List.mem_iff_getElem.1 hp
  rw [fwdSpectrum_getElem g (by simpa using hk), satPair_snd, saturates_fwdY]
  decide

theorem fwdState_flags (hi : s.CtxInv ch (s.ctx ch)) (h : FwdOk ch s) : (fwdState ch s).flags = s.flags := by
  simp [fwdState, fwdSpectrum_any_saturates (h.geometry hi), Flags.raiseSat]

/-- Settles O28: a refusal and the fatal entry keep `FLAGS`, and the rule itself raises no flag. -/
theorem forwardNeverSaturates : Obligations.ForwardNeverSaturates := by
  refine ⟨fun ch s t h => ?_, fun ch s _ _ k _ => saturates_fwdY s ch k⟩
  rcases exec_cases h with ⟨c, -, -, rfl⟩ | ⟨-, -, rfl, -⟩ |
    ⟨-, u, c, ⟨-, rfl, ⟨-, -, hinv⟩, hok⟩, -, -, -, rfl⟩
  · rw [refuse_flags]
  · rw [enterFatal_flags]
  · rw [finish_flags, fwdState_flags hinv hok]

end Sys2Proof.Machine
end

section
/-! # The coefficient ROM against the real cosine: O60

`cosSeries` is compared with the same Horner scheme over the reals (rounding), that with the cosine of the root of
its argument (truncation), and that root with the angle `πr/4N` (the argument's own rounding, and `piScaled`). The
first quadrant then carries over to every odd `m` by the symmetries of R75. -/

namespace Sys2Proof.Machine

/-! ## Fixed point -/

/-- The real number that a word of the ROM's evaluation stands for: 128 fraction bits. -/
noncomputable def fixVal (a : Nat) : ℝ := a / 2 ^ 128

theorem cast_fixOne : (fixOne : ℝ) = 2 ^ 128 := by norm_num [fixOne]

theorem fixVal_fixOne : fixVal fixOne = 1 := by rw [fixVal, cast_fixOne]; norm_num

theorem fixVal_nonneg (a : Nat) : 0 ≤ fixVal a := by unfold fixVal; positivity

/-- A quotient of naturals is its real quotient rounded down. -/
theorem cast_div_bounds (p q : Nat) : (p : ℝ) / q - 1 ≤ (p / q : Nat) ∧ ((p / q : Nat) : ℝ) ≤ p / q :=
  ⟨by rw [← Nat.floor_div_eq_div (K := ℝ)]; exact (Nat.sub_one_lt_floor _).le, Nat.cast_div_le⟩

/-- So a quotient of fixed-point numbers is rounded by less than one unit. -/
theorem fixVal_div_bounds (p q : Nat) :
    (p : ℝ) / q / 2 ^ 128 - 1 / 2 ^ 128 ≤ fixVal (p / q) ∧ fixVal (p / q) ≤ (p : ℝ) / q / 2 ^ 128 := by
  obtain ⟨h1, h2⟩ := cast_div_bounds p q
  unfold fixVal
  exact ⟨by rw [← sub_div]; gcongr, by gcongr⟩

/-! ## The cosine series -/

/-- The scheme of `cosSeries` over the reals, on `t = x²`. -/
noncomputable def cosHorner (t : ℝ) : Nat → Nat → ℝ
  | 0, _ => 1
  | n + 1, k => 1 - t * cosHorner t n (k + 1) / ((2 * k + 1) * (2 * k + 2))

theorem cosHorner_succ (t : ℝ) (n k : Nat) :
    cosHorner t (n + 1) k = 1 - t * cosHorner t n (k + 1) / ((2 * k + 1) * (2 * k + 2)) := rfl

theorem cosHorner_eq_sum (t : ℝ) (n k : Nat) :
    cosHorner t n k =
      ∑ j ∈ Finset.range (n + 1), (-t) ^ j * ((2 * k).factorial / (2 * k + 2 * j).factorial : ℝ) := by
  induction n generalizing k with
  | zero =>
    have hne : ((2 * k).factorial : ℝ) ≠ 0 := Nat.cast_ne_zero.2 (Nat.factorial_ne_zero _)
    simp [cosHorner, div_self hne]
  | succ n ih =>
    have hf : ((2 * (k + 1)).factorial : ℝ) = (2 * k + 1) * (2 * k + 2) * (2 * k).factorial := by
      rw [show 2 * (k + 1) = 2 * k + 1 + 1 by ring, Nat.factorial_succ, Nat.factorial_succ]; push_cast; ring
    have hne : ((2 * k).factorial : ℝ) ≠ 0 := Nat.cast_ne_zero.2 (Nat.factorial_ne_zero _)
    rw [cosHorner_succ, ih, Finset.sum_range_succ' _ (n + 1), Finset.mul_sum, Finset.sum_div, sub_eq_neg_add,
      ← Finset.sum_neg_distrib]
    congr 1
    · refine Finset.sum_congr rfl fun j _ => ?_
      rw [show 2 * (k + 1) + 2 * j = 2 * k + 2 * (j + 1) by ring, hf]
      field_simp
      ring
    · simp [div_self hne]

/-- The terms of the cosine series fall by at least `1/64` each, from a large constant. -/
theorem abs_cosTerm_le {x : ℝ} (h0 : 0 ≤ x) (h2 : x ≤ 2) (j : Nat) :
    ‖(-1 : ℝ) ^ j * x ^ (2 * j) / ((2 * j).factorial : ℝ)‖ ≤ 2 ^ 32 * (1 / 64) ^ j := by
  have hexp : Real.exp (8 * x) ≤ 2 ^ 32 :=
    calc Real.exp (8 * x) ≤ Real.exp (16 : ℕ) := Real.exp_le_exp.2 (by push_cast; linarith)
      _ = Real.exp 1 ^ 16 := by rw [← Real.exp_nat_mul, mul_one]
      _ ≤ 4 ^ 16 := by gcongr; linarith [Real.exp_one_lt_d9]
      _ = 2 ^ 32 := by norm_num
  have hterm : (8 * x) ^ (2 * j) / ((2 * j).factorial : ℝ) ≤ 2 ^ 32 :=
    (Real.pow_div_factorial_le_exp (8 * x) (by positivity) (2 * j)).trans hexp
  have hscale : (8 * x) ^ (2 * j) = 64 ^ j * x ^ (2 * j) := by rw [mul_pow, pow_mul 8]; norm_num
  rw [norm_div, norm_mul, norm_pow, norm_neg, norm_one, one_pow, one_mul, Real.norm_of_nonneg (by positivity),
    Real.norm_of_nonneg (by positivity)]
  calc x ^ (2 * j) / ((2 * j).factorial : ℝ)
      = (8 * x) ^ (2 * j) / ((2 * j).factorial : ℝ) * (1 / 64) ^ j := by
        rw [hscale, one_div_pow]; field_simp
    _ ≤ 2 ^ 32 * (1 / 64) ^ j := by gcongr

/-- Truncation: 24 terms give the cosine. -/
theorem abs_cosHorner_sub_cos_le {x : ℝ} (h0 : 0 ≤ x) (h2 : x ≤ 2) :
    |cosHorner (x ^ 2) 24 0 - Real.cos x| ≤ 1 / 2 ^ 100 := by
  have hsum : cosHorner (x ^ 2) 24 0 =
      ∑ j ∈ Finset.range 25, (-1 : ℝ) ^ j * x ^ (2 * j) / ((2 * j).factorial : ℝ) := by
    rw [cosHorner_eq_sum]
    refine Finset.sum_congr rfl fun j _ => ?_
    rw [neg_pow, pow_mul]
    simp [div_eq_mul_inv]
  rw [hsum]
  exact (norm_sub_le_of_geometric_bound_of_hasSum (by norm_num) (abs_cosTerm_le h0 h2) (Real.hasSum_cos x) 25).trans
    (by norm_num)

/-- After the first term the scheme stays between 0 and 1. -/
theorem cosHorner_mem {t : ℝ} (h0 : 0 ≤ t) (h3 : t ≤ 3) (n : Nat) {k : Nat} (hk : 1 ≤ k) :
    0 ≤ cosHorner t n k ∧ cosHorner t n k ≤ 1 := by
  induction n generalizing k with
  | zero => simp [cosHorner]
  | succ n ih =>
    obtain ⟨i0, i1⟩ := ih (k := k + 1) (by omega)
    have hk' : (1 : ℝ) ≤ k := by exact_mod_cast hk
    have hq0 : 0 ≤ t * cosHorner t n (k + 1) / ((2 * k + 1) * (2 * k + 2)) := by positivity
    have hq1 : t * cosHorner t n (k + 1) / ((2 * k + 1) * (2 * k + 2)) ≤ 1 :=
      div_le_one_of_le₀ (by nlinarith) (by positivity)
    rw [cosHorner_succ]
    exact ⟨by linarith, by linarith⟩

/-! ## Rounding of the series -/

/-- Natural subtraction from the number 1 stops at 0, which brings it no farther from a number that is not negative. -/
theorem abs_fixVal_sub_le {y : ℝ} (hy : 0 ≤ y) (q : Nat) :
    |fixVal (fixOne - q) - y| ≤ |1 - fixVal q - y| := by
  rcases le_total q fixOne with h | h
  · have hsub : fixVal (fixOne - q) = 1 - fixVal q := by
      rw [← fixVal_fixOne]; unfold fixVal; rw [Nat.cast_sub h, sub_div]
    rw [hsub]
  · have hq : 1 ≤ fixVal q := by
      rw [← fixVal_fixOne]; unfold fixVal; gcongr
    have hz : fixVal (fixOne - q) = 0 := by simp [fixVal, Nat.sub_eq_zero_of_le h]
    rw [hz, zero_sub, abs_neg, abs_of_nonneg hy, abs_of_nonpos (by linarith)]
    linarith

/-- One turn of `cosSeries` is one turn of the real scheme and one rounding. -/
theorem abs_cosSeries_succ_sub_le {y : ℝ} (hy : 0 ≤ y) (x2 n k : Nat) :
    |fixVal (cosSeries x2 (n + 1) k) - y| ≤
      |1 - fixVal x2 * fixVal (cosSeries x2 n (k + 1)) / ((2 * k + 1) * (2 * k + 2)) - y| + 1 / 2 ^ 128 := by
  set p := x2 * cosSeries x2 n (k + 1) with hp
  set c := fixOne * ((2 * k + 1) * (2 * k + 2)) with hc
  have hdiv : (p : ℝ) / c / 2 ^ 128 =
      fixVal x2 * fixVal (cosSeries x2 n (k + 1)) / ((2 * k + 1) * (2 * k + 2)) := by
    rw [hp, hc, fixVal, fixVal]
    push_cast [cast_fixOne]
    field_simp
  obtain ⟨h1, h2⟩ := fixVal_div_bounds p c
  rw [hdiv] at h1 h2
  calc |fixVal (cosSeries x2 (n + 1) k) - y| ≤ |1 - fixVal (p / c) - y| := abs_fixVal_sub_le hy _
    _ ≤ |1 - fixVal x2 * fixVal (cosSeries x2 n (k + 1)) / ((2 * k + 1) * (2 * k + 2)) - y| +
        |fixVal x2 * fixVal (cosSeries x2 n (k + 1)) / ((2 * k + 1) * (2 * k + 2)) - fixVal (p / c)| := by
      refine le_trans (le_of_eq ?_) (abs_add_le _ _)
      congr 1; ring
    _ ≤ _ := by gcongr; exact abs_le.2 ⟨by linarith, by linarith⟩

/-- Rounding, after the first term: every turn divides the error so far by 4 or more and adds one rounding. -/
theorem abs_cosSeries_sub_cosHorner_le {x2 : Nat} (h3 : fixVal x2 ≤ 3) (n : Nat) {k : Nat} (hk : 1 ≤ k) :
    |fixVal (cosSeries x2 n k) - cosHorner (fixVal x2) n k| ≤ 2 / 2 ^ 128 := by
  induction n generalizing k with
  | zero =>
    rw [cosSeries, cosHorner, fixVal_fixOne, sub_self, abs_zero]
    positivity
  | succ n ih =>
    have hk' : (1 : ℝ) ≤ k := by exact_mod_cast hk
    have hfac0 : 0 ≤ fixVal x2 / ((2 * k + 1) * (2 * k + 2)) := div_nonneg (fixVal_nonneg _) (by positivity)
    have hfac : fixVal x2 / ((2 * k + 1) * (2 * k + 2)) ≤ 1 / 4 := by
      rw [div_le_iff₀ (by positivity)]; nlinarith
    have hstep := abs_cosSeries_succ_sub_le (cosHorner_mem (fixVal_nonneg x2) h3 (n + 1) hk).1 x2 n k
    have herr : 1 - fixVal x2 * fixVal (cosSeries x2 n (k + 1)) / ((2 * k + 1) * (2 * k + 2)) -
        cosHorner (fixVal x2) (n + 1) k = -(fixVal x2 / ((2 * k + 1) * (2 * k + 2)) *
          (fixVal (cosSeries x2 n (k + 1)) - cosHorner (fixVal x2) n (k + 1))) := by
      rw [cosHorner_succ]; ring
    rw [herr, abs_neg, abs_mul, abs_of_nonneg hfac0] at hstep
    have hprod := mul_le_mul hfac (ih (k := k + 1) (by omega)) (abs_nonneg _) (by norm_num)
    linarith

/-- The whole series, against any number `y ≥ 0`: the cosine of the root of its argument, up to `2^−90`. -/
theorem abs_cosSeries_sub_le {x2 : Nat} (h3 : fixVal x2 ≤ 3) {y : ℝ} (hy : 0 ≤ y) :
    |fixVal (cosSeries x2 24 0) - y| ≤ |Real.cos √(fixVal x2) - y| + 1 / 2 ^ 90 := by
  have ht := fixVal_nonneg x2
  have hroot : √(fixVal x2) ≤ 2 := Real.sqrt_le_iff.2 ⟨by norm_num, by linarith⟩
  have htrunc := abs_le.1 (abs_cosHorner_sub_cos_le (Real.sqrt_nonneg _) hroot)
  rw [Real.sq_sqrt ht, cosHorner_succ] at htrunc
  have hround := abs_le.1 (abs_cosSeries_sub_cosHorner_le h3 23 (le_refl 1))
  have hstep := abs_cosSeries_succ_sub_le hy x2 23 0
  simp only [Nat.cast_zero, mul_zero, zero_add, one_mul] at hstep htrunc
  set s := fixVal (cosSeries x2 23 1)
  set h := cosHorner (fixVal x2) 23 1
  have hgap : |1 - fixVal x2 * s / 2 - Real.cos √(fixVal x2)| ≤ 3 / 2 ^ 128 + 1 / 2 ^ 100 := by
    have : |fixVal x2 * (s - h)| ≤ 3 * (2 / 2 ^ 128) := by
      rw [abs_mul, abs_of_nonneg ht]
      exact mul_le_mul h3 (abs_le.2 hround) (abs_nonneg _) (by norm_num)
    obtain ⟨h1, h2⟩ := abs_le.1 this
    exact abs_le.2 ⟨by linarith, by linarith⟩
  have htri := abs_sub_le (1 - fixVal x2 * s / 2) (Real.cos √(fixVal x2)) y
  norm_num at hstep hgap htri ⊢
  linarith

/-! ## The argument of the series -/

theorem abs_fixVal_piScaled_sub_pi_le : |fixVal piScaled - Real.pi| ≤ 1 / 10 ^ 20 := by
  have h1 := Real.pi_gt_d20
  have h2 := Real.pi_lt_d20
  have h3 : 3.14159265358979323846 ≤ fixVal piScaled := by norm_num [fixVal, piScaled]
  have h4 : fixVal piScaled ≤ 3.14159265358979323847 := by norm_num [fixVal, piScaled]
  norm_num at h1 h2 h3 h4 ⊢
  exact abs_le.2 ⟨by linarith, by linarith⟩

/-- `πr/4N`, the angle of entry `r` of the ROM. -/
noncomputable def romAngle (N : Nat) (m : Int) : ℝ := Real.pi * m / (4 * N)

section
variable {N r : Nat}

theorem romAngle_natCast (N r : Nat) : romAngle N r = Real.pi * (r / (4 * N)) := by
  rw [romAngle, Int.cast_natCast, mul_div_assoc]

theorem ratio_le_half (hN : 1 ≤ N) (h : r ≤ 2 * N) : (r : ℝ) / (4 * N) ≤ 1 / 2 := by
  have hN' : (1 : ℝ) ≤ N := by exact_mod_cast hN
  have h' : (r : ℝ) ≤ 2 * N := by exact_mod_cast h
  rw [div_le_iff₀ (by positivity)]
  linarith

theorem romAngle_nonneg (N r : Nat) : 0 ≤ romAngle N r := by
  rw [romAngle_natCast]; positivity

theorem romAngle_le_half_pi (hN : 1 ≤ N) (h : r ≤ 2 * N) : romAngle N r ≤ Real.pi / 2 := by
  rw [romAngle_natCast]
  nlinarith [Real.pi_pos, ratio_le_half hN h]

/-- The argument before it is squared. -/
theorem abs_fixVal_angle_sub_le (hN : 1 ≤ N) (h : r ≤ 2 * N) :
    |fixVal (piScaled * r / (4 * N)) - romAngle N r| ≤ 1 / 10 ^ 20 := by
  obtain ⟨h1, h2⟩ := fixVal_div_bounds (piScaled * r) (4 * N)
  have hr := ratio_le_half hN h
  have hr0 : 0 ≤ (r : ℝ) / (4 * N) := by positivity
  have hval : ((piScaled * r : Nat) : ℝ) / (4 * N : Nat) / 2 ^ 128 = fixVal piScaled * (r / (4 * N)) := by
    rw [fixVal]; push_cast; ring
  rw [hval] at h1 h2
  have hpi : |(fixVal piScaled - Real.pi) * (r / (4 * N))| ≤ 1 / 10 ^ 20 * (1 / 2) := by
    rw [abs_mul, abs_of_nonneg hr0]
    exact mul_le_mul abs_fixVal_piScaled_sub_pi_le hr hr0 (by norm_num)
  obtain ⟨h3, h4⟩ := abs_le.1 hpi
  rw [romAngle_natCast]
  norm_num at h1 h3 h4 ⊢
  exact abs_le.2 ⟨by linarith, by linarith⟩

/-- Squaring and rounding down moves the root by at most `2^−64`. -/
theorem abs_sqrt_fixVal_sub_le (a : Nat) : |√(fixVal (a ^ 2 / fixOne)) - fixVal a| ≤ 1 / 2 ^ 64 := by
  obtain ⟨h1, h2⟩ := fixVal_div_bounds (a ^ 2) fixOne
  have hsq : ((a ^ 2 : Nat) : ℝ) / fixOne / 2 ^ 128 = fixVal a ^ 2 := by
    rw [cast_fixOne, fixVal]; push_cast; ring
  rw [hsq] at h1 h2
  set t := fixVal (a ^ 2 / fixOne)
  have hroot0 := Real.sqrt_nonneg t
  have hroot : √t ^ 2 = t := Real.sq_sqrt (fixVal_nonneg _)
  have hle : √t ≤ fixVal a := Real.sqrt_le_iff.2 ⟨fixVal_nonneg a, h2⟩
  have hge : fixVal a ≤ √t + 1 / 2 ^ 64 := by
    refine le_of_sq_le_sq ?_ (by positivity)
    norm_num at h1 ⊢
    nlinarith
  exact abs_le.2 ⟨by linarith, by linarith [show (0 : ℝ) ≤ 1 / 2 ^ 64 by positivity]⟩

/-! ## The first quadrant -/

theorem abs_quarterCos_sub_le (hN : 1 ≤ N) (h : r ≤ 2 * N) :
    |fixVal (quarterCos N r) - Real.cos (romAngle N r)| ≤ 1 / 2 ^ 62 := by
  set a := piScaled * r / (4 * N) with ha
  have hangle := abs_le.1 (abs_fixVal_angle_sub_le hN h)
  have hroot := abs_le.1 (abs_sqrt_fixVal_sub_le a)
  have hhalf := romAngle_le_half_pi hN h
  have hcos0 : 0 ≤ Real.cos (romAngle N r) :=
    Real.cos_nonneg_of_neg_pi_div_two_le_of_le (by linarith [romAngle_nonneg N r, Real.pi_pos]) hhalf
  have harg : |√(fixVal (a ^ 2 / fixOne)) - romAngle N r| ≤ 1 / 2 ^ 63 := by
    rw [← ha] at hangle
    norm_num at hangle hroot ⊢
    exact abs_le.2 ⟨by linarith, by linarith⟩
  have h3 : fixVal (a ^ 2 / fixOne) ≤ 3 := by
    have hpi := Real.pi_lt_d2
    have hle : √(fixVal (a ^ 2 / fixOne)) ≤ 1.6 := by
      have := (abs_le.1 harg).2
      norm_num at this hpi ⊢
      linarith
    have := (Real.sqrt_le_left (by norm_num)).1 hle
    norm_num at this ⊢
    linarith
  have hseries := abs_cosSeries_sub_le h3 hcos0
  have hlip := Real.abs_cos_sub_cos_le √(fixVal (a ^ 2 / fixOne)) (romAngle N r)
  rw [quarterCos, ← ha]
  norm_num at hseries harg ⊢
  linarith

/-- For the lengths the engine allows, the first odd angle keeps the cosine half a unit of the ROM below 1. -/
theorem cos_romAngle_le (hN : 1 ≤ N) (hN' : N ≤ 32768) (h1 : 1 ≤ r) (h : r ≤ 2 * N) :
    Real.cos (romAngle N r) ≤ 1 - 1 / 2 ^ 32 := by
  have hN0 : (1 : ℝ) ≤ N := by exact_mod_cast hN
  have hN1 : (N : ℝ) ≤ 32768 := by exact_mod_cast hN'
  have hr : (1 : ℝ) ≤ r := by exact_mod_cast h1
  have hpi := Real.pi_gt_d2
  have hpi' := Real.pi_lt_d2
  have hle : Real.pi / 131072 ≤ romAngle N r := by
    have : (1 : ℝ) / 131072 ≤ r / (4 * N) := by
      rw [div_le_div_iff₀ (by norm_num) (by positivity)]; linarith
    rw [romAngle_natCast, div_eq_mul_one_div]
    gcongr
  have hsmall : |Real.pi / 131072| ≤ 1 := abs_le.2 ⟨by linarith, by linarith⟩
  have hbound := (abs_le.1 (Real.cos_bound hsmall)).2
  rw [abs_of_pos (by positivity)] at hbound
  have hsq : (9.8 : ℝ) ≤ Real.pi ^ 2 := by nlinarith
  have hsq' : Real.pi ^ 2 ≤ 10 := by nlinarith
  have hquad : (Real.pi / 131072) ^ 4 ≤ (Real.pi / 131072) ^ 2 / 1000 := by
    have : (Real.pi / 131072) ^ 2 ≤ 1 / 1000 := by rw [div_pow]; linarith
    nlinarith [sq_nonneg (Real.pi / 131072)]
  have hmono : Real.cos (romAngle N r) ≤ Real.cos (Real.pi / 131072) :=
    Real.cos_le_cos_of_nonneg_of_le_pi (by positivity) (by linarith [romAngle_le_half_pi hN h]) hle
  norm_num at hbound hquad hsq ⊢
  nlinarith

/-- Rounding to the nearest entry, with the clamp of R75 that never makes it worse. -/
theorem abs_cosqQuarter_sub_le (hN : 1 ≤ N) (hN' : N ≤ 32768) (h1 : 1 ≤ r) (h : r ≤ 2 * N) :
    |(cosqQuarter N r : ℝ) - 2 ^ 31 * Real.cos (romAngle N r)| ≤ 1 / 2 + 1 / 2 ^ 30 := by
  have hcos := abs_le.1 (abs_quarterCos_sub_le hN h)
  have hmax := cos_romAngle_le hN hN' h1 h
  obtain ⟨h2, h3⟩ := cast_div_bounds (quarterCos N r * 2 ^ 31 + 2 ^ 127) fixOne
  have hval : ((quarterCos N r * 2 ^ 31 + 2 ^ 127 : Nat) : ℝ) / fixOne =
      2 ^ 31 * fixVal (quarterCos N r) + 1 / 2 := by
    rw [cast_fixOne, fixVal]; push_cast; ring
  rw [hval] at h2 h3
  unfold cosqQuarter
  generalize (quarterCos N r * 2 ^ 31 + 2 ^ 127) / fixOne = v at h2 h3
  push_cast
  norm_num at hcos hmax ⊢
  rcases le_total (v : ℝ) 2147483647 with hv | hv
  · rw [min_eq_right hv]
    exact abs_le.2 ⟨by linarith, by linarith⟩
  · rw [min_eq_left hv]
    exact abs_le.2 ⟨by linarith, by linarith⟩
end

/-! ## Every quadrant -/

/-- What the symmetries of R75 keep, and every odd angle of the first quadrant has, every odd angle has. -/
theorem forall_odd_of_symmetries {N : Nat} (hN : 1 ≤ N) {P : Int → Prop}
    (quadrant : ∀ r : Nat, r % 2 = 1 → r ≤ 2 * N → P r)
    (neg : ∀ m : Int, m % 2 = 1 → P m → P (-m))
    (reflect : ∀ m : Int, m % 2 = 1 → P m → P (4 * N - m))
    (period : ∀ m k : Int, P m → P (m + 8 * N * k)) (m : Int) (hm : m % 2 = 1) : P m := by
  have half : ∀ r : Nat, r % 2 = 1 → r ≤ 4 * N → P r := fun r hodd hr => by
    by_cases h : r ≤ 2 * N
    · exact quadrant r hodd h
    · have hp := reflect _ (by omega) (quadrant (4 * N - r) (by omega) (by omega))
      rwa [show (4 * N : Int) - (4 * N - r : Nat) = r by omega] at hp
  obtain ⟨r, k, hr, rfl⟩ := exists_eq_add_period hN m
  have hodd : r % 2 = 1 := by
    rw [show (r : Int) + 8 * N * k = r + 2 * (4 * N * k) by ring] at hm
    omega
  refine period _ _ ?_
  by_cases h : r ≤ 4 * N
  · exact half r hodd h
  · have hp := period _ 1 (neg _ (by omega) (half (8 * N - r) (by omega) (by omega)))
    rwa [show -((8 * N - r : Nat) : Int) + 8 * N * 1 = r by omega] at hp

section
variable {N : Nat}

theorem cos_romAngle_neg (m : Int) : Real.cos (romAngle N (-m)) = Real.cos (romAngle N m) := by
  rw [← Real.cos_neg, romAngle, romAngle]
  congr 1
  push_cast
  ring

theorem cos_romAngle_reflect (hN : 1 ≤ N) (m : Int) :
    Real.cos (romAngle N (4 * N - m)) = -Real.cos (romAngle N m) := by
  have hN' : (N : ℝ) ≠ 0 := Nat.cast_ne_zero.2 (by omega)
  rw [← Real.cos_pi_sub, romAngle, romAngle]
  congr 1
  push_cast
  field_simp

theorem cos_romAngle_add_period (hN : 1 ≤ N) (m k : Int) :
    Real.cos (romAngle N (m + 8 * N * k)) = Real.cos (romAngle N m) := by
  have hN' : (N : ℝ) ≠ 0 := Nat.cast_ne_zero.2 (by omega)
  rw [← Real.cos_add_int_mul_two_pi (romAngle N m) k, romAngle, romAngle]
  congr 1
  push_cast
  field_simp
  ring
end

/-- Settles O60: the first quadrant is `abs_cosqQuarter_sub_le`, and ROM and cosine have the same symmetries. -/
theorem romApproximatesCosine : Obligations.RomApproximatesCosine := by
  intro N m hN2 _ hN' hm
  have hN : 1 ≤ N := by omega
  refine forall_odd_of_symmetries hN
    (P := fun m => |(cosq N m : ℝ) - 2 ^ 31 * Real.cos (romAngle N m)| ≤ 1 / 2 + 1 / 2 ^ 30)
    (fun r hodd hr => ?quadrant) (fun m hm h => ?neg) (fun m hm h => ?reflect) (fun m k h => ?period) m hm
  case quadrant =>
    have hq : cosq N r = cosqQuarter N r := by
      have := cosq_add_mul (N := N) (r := r) (by omega) 0
      rwa [mul_zero, add_zero, cosqPeriod_first hr] at this
    rw [hq]
    exact abs_cosqQuarter_sub_le hN hN' (by omega) hr
  case neg => rwa [cosq_neg hN hm, cos_romAngle_neg]
  case reflect =>
    rw [cosq_reflect hN hm, cos_romAngle_reflect hN, Int.cast_neg, mul_neg, neg_sub_neg, abs_sub_comm]
    exact h
  case period => rwa [cosq_add_period hN, cos_romAngle_add_period hN]

end Sys2Proof.Machine
end

section
/-! # The codes a command ends with: O10, O14 -/

namespace Sys2Proof.Machine

variable {op : BitVec 8} {cb : BitVec 4} {ch : Chan} {checks : State → List Check}
  {effect : State → Except Fault (State × Code)} {i : Instr} {s u : State} {c : Code}

/-! ## The code of the first failing check -/

/-- A rule ends with the code of its first failing check, or with that of its effect. -/
theorem runRule_code (he : firstFailure (checks s) = none → ∃ u, effect s = .ok (u, c)) :
    ∃ t, runRule op cb checks effect s = .next t ∧
      t.status.code = (firstFailure (checks s)).getD c := by
  cases hc : firstFailure (checks s) with
  | some d => exact ⟨_, runRule_refuses hc, rfl⟩
  | none =>
    obtain ⟨u, hu⟩ := he hc
    exact ⟨_, runRule_ok hc hu, rfl⟩

theorem runGlobal_code (hf : s.status.fatal = false)
    (he : firstFailure (checks s) = none → ∃ u, effect s = .ok (u, c)) :
    ∃ t, runGlobal op checks effect s = .next t ∧
      t.status.code = (firstFailure (checks s)).getD c := by
  rw [runGlobal_ready hf]
  exact runRule_code he

theorem runChannel_code (hr : ChannelReady ch s)
    (he : firstFailure (checks s) = none → ∃ u, effect s = .ok (u, c)) :
    ∃ t, runChannel op ch checks effect s = .next t ∧
      t.status.code = (firstFailure (checks s)).getD c := by
  obtain ⟨hf, hn⟩ := hr
  rw [runChannel_ready hf hn]
  exact runRule_code he

/-- One check of a list, as one branch of the chain a statement writes. -/
theorem getD_firstFailure_cons {fails : Bool} {p : Prop} [Decidable p] (h : fails = true ↔ p) (d : Code)
    (rest : List Check) :
    (firstFailure ((fails, d) :: rest)).getD c = if p then d else (firstFailure rest).getD c := by
  rw [firstFailure_cons]
  by_cases hp : p
  · rw [if_pos hp, if_pos (h.2 hp), Option.getD_some]
  · rw [if_neg hp, if_neg (mt h.1 hp)]

/-! ## `INIT` and `CTXLD` -/

/-- The chain of R86. -/
theorem getD_firstFailure_initChecks (ch : Chan) (s : State) :
    (firstFailure (initChecks ch s)).getD .ok =
      if ¬ LegalTl (initOperands s).tlmax s.cfg.tlMax then .eTl
      else if (initOperands s).size < (initOperands s).tlmax then .eOvsize
      else if s.cfg.ovWords < (initOperands s).base + (initOperands s).size then .eOvmem
      else if ¬ s.RegionFree ch (initOperands s).base (initOperands s).size then .eOvmem
      else .ok := by
  rw [initChecks, getD_firstFailure_cons badTl_eq_true, getD_firstFailure_cons decide_eq_true_iff,
    getD_firstFailure_cons decide_eq_true_iff, getD_firstFailure_cons decide_eq_true_iff, firstFailure_nil,
    Option.getD_none]

/-- The one check of R88. -/
theorem getD_firstFailure_ctxldChecks (ch : Chan) (s : State) :
    (firstFailure (ctxldChecks ch s)).getD .ok =
      if s.CtxInv ch (ctxldImage s) then .ok else .eCtxld := by
  rw [ctxldChecks, getD_firstFailure_cons decide_eq_true_iff, firstFailure_nil, Option.getD_none, ite_not]

/-- Settles O10: each code is that of the first failing check, and the chains are those of R86 and R88. -/
theorem contextCommandChecksInOrder : Obligations.ContextCommandChecksInOrder := by
  intro ch s hr
  rw [← getD_firstFailure_initChecks, ← getD_firstFailure_ctxldChecks]
  exact ⟨runChannel_code hr fun h => ⟨_, initEffect_of_pass (initChecks_pass.1 h)⟩,
    runChannel_code hr fun _ => ⟨_, rfl⟩⟩

/-! ## `GAIN` and the rate commands -/

/-- The one check of R89. -/
theorem getD_firstFailure_gainChecks (s : State) :
    (firstFailure (gainChecks s)).getD .ok = if LegalTl (s.uarg 2) s.cfg.tlMax then .ok else .eTl := by
  rw [gainChecks, getD_firstFailure_cons badTl_eq_true, firstFailure_nil, Option.getD_none, ite_not]
  rfl

/-- The three checks of R125 have one code, so that their order cannot be seen. -/
theorem getD_firstFailure_rcinitChecks (s : State) :
    (firstFailure (rcinitChecks s)).getD .ok = if RcinitOk s then .ok else .eRcCfg := by
  split
  case isTrue h => rw [rcinitChecks_pass.2 h, Option.getD_none]
  case isFalse h =>
    cases hc : firstFailure (rcinitChecks s) with
    | none => exact absurd (rcinitChecks_pass.1 hc) h
    | some c =>
      obtain ⟨x, hx, -, rfl⟩ := firstFailure_mem hc
      simp only [rcinitChecks, List.mem_cons, List.not_mem_nil, or_false] at hx
      rcases hx with rfl | rfl | rfl <;> rfl

/-- The chain of R126. -/
theorem getD_firstFailure_rcallowChecks (m : Bool) (s : State) :
    (firstFailure (rcallowChecks m s)).getD .ok =
      if s.rc.valid = false then .eRcNotinit
      else if 2 ^ 31 ≤ budgetOperand m s then .eRcParam
      else .ok := by
  rw [rcallowChecks, getD_firstFailure_cons decide_eq_true_iff, getD_firstFailure_cons decide_eq_true_iff,
    firstFailure_nil, Option.getD_none]
  rfl

/-- The chain of R127, for a rule that ends with code `c` when its checks pass. -/
theorem getD_firstFailure_rcupdChecks (m : Bool) (s : State) (c : Code) :
    (firstFailure (rcupdChecks m s)).getD c =
      if s.rc.valid = false then .eRcNotinit
      else if 2 ^ 31 ≤ budgetOperand m s ∨ 2 ^ 31 ≤ s.uarg 1 then .eRcParam
      else c := by
  rw [rcupdChecks, getD_firstFailure_cons decide_eq_true_iff, getD_firstFailure_cons decide_eq_true_iff,
    firstFailure_nil, Option.getD_none]
  rfl

/-- The code of `RCUPD` by the unclamped level (R127). -/
theorem rcupdOutcome_code (v : Int) (r : RateCtl) (f : Flags) :
    (rcupdOutcome v r f).2.2.2 =
      if v < 0 then .wResUf else if (r.size.toNat : Int) < v then .wResOf else .ok := by
  unfold rcupdOutcome
  split_ifs <;> rfl

/-- Settles O14: each code is that of the first failing check; a passing `RCUPD` ends with the code of its
outcome. -/
theorem globalCommandChecksInOrder : Obligations.GlobalCommandChecksInOrder := by
  intro s hf
  refine ⟨?gain, ?rcinit, fun m => ?rcallow, fun m => ?rcupd⟩
  case gain =>
    rw [← getD_firstFailure_gainChecks]
    exact runGlobal_code hf fun _ => ⟨_, rfl⟩
  case rcinit =>
    obtain ⟨t, ht, hcode⟩ := runGlobal_code (checks := rcinitChecks) (effect := rcinitEffect)
      (op := 0x20#8) (c := .ok) hf fun _ => ⟨_, rfl⟩
    rw [getD_firstFailure_rcinitChecks] at hcode
    refine ⟨t, ht, ?_⟩
    rw [hcode]
    split
    case isTrue h => exact ⟨iff_of_true rfl h, iff_of_false (by decide) (not_not.2 h)⟩
    case isFalse h => exact ⟨iff_of_false (by decide) h, iff_of_true rfl h⟩
  case rcallow =>
    rw [← getD_firstFailure_rcallowChecks]
    exact runGlobal_code hf fun _ => ⟨_, rfl⟩
  case rcupd =>
    have hcode := rcupdOutcome_code (rcupdLevel m s) s.rc s.flags
    rw [rcupdLevel, actualOperand] at hcode
    rw [← hcode, ← getD_firstFailure_rcupdChecks]
    exact runGlobal_code hf fun _ => ⟨_, rfl⟩

end Sys2Proof.Machine
end

section
/-! # The results of `NOP`, `INIT`, `FREE` and `CTXLD`: O20 to O24 -/

namespace Sys2Proof.Machine

variable {ch : Chan} {i : Instr} {s u : State} {c : Code} {w : Word} {d : Dir}

/-! ## What every result shares -/

/-- The bookkeeping of a complete step (spec/30_encoding.md R56): no rule writes what it is about. -/
theorem EffectOf.completes (h : EffectOf i s u c) :
    Completes i c s (finish (opcode i) (chanBits i) c u) := by
  obtain ⟨hstatus, hirq, hside⟩ := h.status
  exact ⟨by rw [finish_status, hstatus], by rw [finish_irqStat, hirq], hside⟩

/-- Binding, loading or freeing a context writes no memory and no other context. -/
theorem finish_setCtx_frame (op : BitVec 8) (cb : BitVec 4) (c : Code) (x : Ctx) (v : Word) :
    SameContextsBut ch s (finish op cb c ((s.setCtx ch x).setRet v)) ∧
      SameMemories s (finish op cb c ((s.setCtx ch x).setRet v)) :=
  ⟨fun _ hd => State.ctx_setCtx_ne s x hd, fun sp b => by simp⟩

/-! ## `NOP`, `FREE`, `INIT` -/

/-- Settles O20: the effect of `NOP` is `RET <- 0`. -/
theorem nopResult : Obligations.NopResult := by
  intro s hf
  have hmem : SameMemories s (finish 0x00#8 0#4 .ok (s.setRet 0#32)) := fun sp b => by simp
  exact ⟨_, execNop_eq hf, EffectOf.completes (i := .nop) ⟨rfl, rfl⟩, rfl, rfl, rfl, fun _ => rfl, rfl, hmem⟩

/-- Settles O22: the effect of `FREE` does not look at the context it blanks. -/
theorem freeResult : Obligations.FreeResult := by
  intro ch s hr
  obtain ⟨hctx, hmem⟩ := finish_setCtx_frame (ch := ch) (s := s) 0x11#8 (BitVec.ofFin ch) .ok Ctx.blank 0#32
  exact ⟨_, execFree_eq hr, EffectOf.completes (i := .free ch) ⟨rfl, rfl, hr⟩, rfl,
    State.ctx_setCtx_self s ch Ctx.blank, hctx, rfl, rfl, rfl, hmem⟩

/-- The memories after `INIT` (R86): the region is zeroed, every other byte is as before. -/
theorem initState_memory (ch : Chan) (s : State) :
    (∀ k < (initOperands s).size, (initState ch s).wordAt .ov ((initOperands s).base + k) = 0#32) ∧
    SameBytesOutside .ov (initOperands s).base (initOperands s).size s (initState ch s) ∧
    ∀ sp, sp ≠ .ov → SameBytes sp s (initState ch s) := by
  obtain ⟨hin, hout, -⟩ :=
    s.putWords_spec .ov (initOperands s).base (List.replicate (initOperands s).size 0#32)
  rw [List.length_replicate] at hout
  refine ⟨fun k hk => ?_, fun b hb => ?_, fun sp hsp => initState_sameBytes hsp⟩
  · rw [initState, State.wordAt_setRet, State.wordAt_setCtx, hin k (by rwa [List.length_replicate]),
      List.getElem_replicate]
  · rw [initState, State.byteAt_setRet, State.byteAt_setCtx, hout b hb]

theorem initState_ctx_self (ch : Chan) (s : State) : (initState ch s).ctx ch = initContext s := by
  rw [initState, State.ctx_setRet, State.ctx_setCtx_self]

theorem initState_ctx_ne (s : State) : SameContextsBut ch s (initState ch s) := fun d hd => by
  rw [initState, State.ctx_setRet, State.ctx_setCtx_ne _ _ hd, State.ctx_setMem]

/-- Settles O21: the memories after `INIT` are `initState_memory`. -/
theorem initResult : Obligations.InitResult := by
  intro ch s hr h
  obtain ⟨hzero, hout, hother⟩ := initState_memory ch s
  refine ⟨_, execInit_eq hr h, EffectOf.completes (i := .init ch) ⟨rfl, rfl, h, hr⟩, rfl,
    initState_ctx_self ch s, fun k hk => ?zero, fun b hb => ?out, fun b => ?dm, fun b => ?wm, rfl, rfl, rfl,
    initState_ctx_ne s⟩
  case zero => rw [State.wordAt_finish, hzero k hk]
  case out => rw [State.byteAt_finish, hout b hb]
  case dm => rw [State.byteAt_finish, hother .dm (by decide) b]
  case wm => rw [State.byteAt_finish, hother .wm (by decide) b]

/-! ## `CTXLD` -/

/-- `DIR` of an image as the register reads it (R20). -/
theorem Dir.bits_ofWord (h : Dir.ofWord w ≠ .illegal) : (Dir.ofWord w).bits.toNat = w.toNat := by
  rcases hw : w.toNat with _ | _ | _ | n
  case succ.succ.succ => exact absurd (by rw [Dir.ofWord, hw]; rfl) h
  all_goals rw [Dir.ofWord, hw]; rfl

/-- The word a register reads back from `DIR` loads as the same direction. -/
theorem Dir.ofWord_eq (h : w.toNat = d.bits.toNat) : Dir.ofWord w = d := by
  rw [Dir.ofWord, h]
  cases d <;> rfl

/-- Settles O23: the context is the image, and the third item of `CtxInv` gives its direction. -/
theorem ctxldResult : Obligations.CtxldResult := by
  intro ch s hr h
  obtain ⟨hctx, hmem⟩ :=
    finish_setCtx_frame (ch := ch) (s := s) 0x12#8 (BitVec.ofFin ch) .ok (ctxldImage s) 0#32
  have ⟨_, _, hdir, _⟩ := h
  refine ⟨_, execCtxld_eq hr h, EffectOf.completes (i := .ctxld ch) ⟨rfl, rfl, h, hr⟩, rfl, ?_⟩
  rw [State.ctx_finish, State.ctx_setRet, State.ctx_setCtx_self]
  exact ⟨rfl, Dir.bits_ofWord hdir, rfl, rfl, rfl, rfl, rfl, rfl, rfl, rfl, hctx, rfl, rfl, rfl, hmem⟩

theorem State.setCtx_ctx (s : State) (ch : Chan) : s.setCtx ch (s.ctx ch) = s := by
  simp [State.setCtx, State.ctx]

/-- Settles O24: the image is the context itself, so it satisfies `CtxInv` and loading it changes nothing. -/
theorem ctxldRestoresSavedImage : Obligations.CtxldRestoresSavedImage := by
  intro ch s ⟨hr, hv, hi⟩ h0 h1 h2 h3 h4 h5 h6 h7 h8
  have himg : ctxldImage s = s.ctx ch := by
    rw [ctxldImage, h0, h1, h2, Dir.ofWord_eq h3, h4, h5, h6, h7, h8, ← hv]
  rw [← himg] at hi
  refine ⟨_, execCtxld_eq hr hi, rfl, ?_⟩
  rw [finish_ctxs, State.setRet_ctxs, himg, State.setCtx_ctx]

end Sys2Proof.Machine
end

section
/-! # `GAIN`: O25, O26 -/

namespace Sys2Proof.Machine

variable {s : State} {tl L : Nat} {e : Int}

/-! ## The pair of R89 -/

/-- The two bounds of the statements determine `flog2` (R77). -/
theorem flog2_eq (h1 : 2 ^ L ≤ tl) (h2 : tl < 2 ^ (L + 1)) : flog2 tl = L := by
  have hpos : 1 ≤ tl := Nat.one_le_two_pow.trans h1
  have hge : L ≤ flog2 tl := (le_flog2_iff hpos).2 h1
  have hlt : ¬ L + 1 ≤ flog2 tl := fun h => absurd ((le_flog2_iff hpos).1 h) (by omega)
  omega

theorem gainMantissa_two_pow (L : Nat) : gainMantissa (2 ^ L) = 2 ^ 30 := by
  rw [gainMantissa, flog2, Nat.log2_two_pow, if_pos rfl]

theorem gainExponent_two_pow (L : Nat) (e : Int) : gainExponent (2 ^ L) e = 2 - L - e := by
  rw [gainExponent, flog2, Nat.log2_two_pow, if_pos rfl]

/-- `2^(31+L) / tl` rounded to nearest, in the integer form of R89. -/
def gainQuotient (tl L : Nat) : Nat := (2 ^ (32 + L) / tl + 1) / 2

theorem gainMantissa_of_ne (h1 : 2 ^ L ≤ tl) (h2 : tl < 2 ^ (L + 1)) (h : tl ≠ 2 ^ L) :
    gainMantissa tl = gainQuotient tl L := by
  rw [gainMantissa, flog2_eq h1 h2, if_neg h, gainQuotient]

theorem gainExponent_of_ne (h1 : 2 ^ L ≤ tl) (h2 : tl < 2 ^ (L + 1)) (h : tl ≠ 2 ^ L) :
    gainExponent tl e = 1 - L - e := by
  rw [gainExponent, flog2_eq h1 h2, if_neg h]

/-- The integer form of R89 is its exact quotient rounded to nearest. -/
theorem gainQuotient_eq_floor (htl : 0 < tl) (L : Nat) :
    (gainQuotient tl L : Int) = ⌊(2 : ℚ) ^ (31 + L) / tl + 1 / 2⌋ := by
  have htl' : (tl : ℚ) ≠ 0 := Nat.cast_ne_zero.2 htl.ne'
  have hq : (2 : ℚ) ^ (31 + L) / tl + 1 / 2 = ((2 ^ (32 + L) + tl : Nat) : ℚ) / ((tl * 2 : Nat) : ℚ) := by
    push_cast
    field_simp
    ring
  rw [hq, Rat.floor_natCast_div_natCast, ← Int.natCast_div, ← Nat.div_div_eq_div_mul,
    Nat.add_div_right _ htl, gainQuotient]

/-! ## The result -/

/-- The state after `GAIN`. -/
def gainState (s : State) : State :=
  ((s.setArg 0 (w32n (gainMantissa (s.uarg 2)))).setArg 1
    (w32 (gainExponent (s.uarg 2) s.cfg.outGainE))).setRet 0#32

theorem execGain_eq_gainState (hf : s.status.fatal = false) (h : LegalTl (s.uarg 2) s.cfg.tlMax) :
    execGain s = .next (finish 0x19#8 0#4 .ok (gainState s)) :=
  execGain_eq hf h

theorem gainState_arg_zero (s : State) : (gainState s).arg 0 = w32n (gainMantissa (s.uarg 2)) := by
  rw [gainState, State.arg_setRet, State.arg_setArg_ne _ _ (by decide), State.arg_setArg_self]

theorem gainState_arg_one (s : State) :
    (gainState s).arg 1 = w32 (gainExponent (s.uarg 2) s.cfg.outGainE) := by
  rw [gainState, State.arg_setRet, State.arg_setArg_self]

theorem gainState_sameArgs (s : State) : SameArgsBut [0, 1] s (gainState s) := fun j hj => by
  obtain ⟨hj0, hj1⟩ : j ≠ 0 ∧ j ≠ 1 := by simpa using hj
  rw [gainState, State.arg_setRet, State.arg_setArg_ne _ _ hj1, State.arg_setArg_ne _ _ hj0]

theorem gainState_sameMemories (s : State) : SameMemories s (gainState s) := fun sp b => by
  rw [gainState, State.byteAt_setRet, State.byteAt_setArg, State.byteAt_setArg]

/-- Settles O25: the pair of `gainState` by the two cases of R89, and its frame. -/
theorem gainResult : Obligations.GainResult := by
  intro s L hf hl h1 h2
  refine ⟨_, execGain_eq_gainState hf hl, EffectOf.completes (i := .gain) ⟨rfl, rfl⟩, rfl,
    fun h => ⟨?mantissaPow, ?exponentPow⟩, fun h => ⟨?mantissa, ?exponent⟩, gainState_sameArgs s, rfl,
    fun _ => rfl, rfl, fun sp b => ?memory⟩
  case mantissaPow => rw [State.arg_finish, gainState_arg_zero, h, gainMantissa_two_pow]; rfl
  case exponentPow => rw [State.arg_finish, gainState_arg_one, h, gainExponent_two_pow]
  case mantissa =>
    rw [State.arg_finish, gainState_arg_zero, gainMantissa_of_ne h1 h2 h,
      ← gainQuotient_eq_floor (by omega), w32, BitVec.ofInt_natCast]
  case exponent => rw [State.arg_finish, gainState_arg_one, gainExponent_of_ne h1 h2 h]
  case memory => rw [State.byteAt_finish, gainState_sameMemories s sp b]

/-! ## The gain it stands for -/

/-- A length that is no power of two has its quotient strictly between `2^30` and `2^31`. -/
theorem gainQuotient_normalised (h1 : 2 ^ L < tl) (h2 : tl < 2 ^ (L + 1)) (h3 : tl ≤ 32768) :
    2 ^ 30 ≤ gainQuotient tl L ∧ gainQuotient tl L < 2 ^ 31 := by
  have hlow : 2 ^ 31 ≤ 2 ^ (32 + L) / tl := by
    rw [Nat.le_div_iff_mul_le (by omega), show 2 ^ (32 + L) = 2 ^ 31 * 2 ^ (L + 1) by ring]
    exact Nat.mul_le_mul_left _ h2.le
  have hhigh : 2 ^ (32 + L) / tl < 2 ^ 32 - 1 := by
    rw [Nat.div_lt_iff_lt_mul (by omega), show 2 ^ (32 + L) = 2 ^ 32 * 2 ^ L by ring]
    omega
  rw [gainQuotient]
  omega

theorem gainMantissa_normalised (h1 : 2 ^ L ≤ tl) (h2 : tl < 2 ^ (L + 1)) (h3 : tl ≤ 32768) :
    2 ^ 30 ≤ gainMantissa tl ∧ gainMantissa tl < 2 ^ 31 := by
  by_cases h : tl = 2 ^ L
  · rw [h, gainMantissa_two_pow]
    decide
  · rw [gainMantissa_of_ne h1 h2 h]
    exact gainQuotient_normalised (by omega) h2 h3

theorem gainQuotient_two_pow (L : Nat) : gainQuotient (2 ^ L) L = 2 ^ 31 := by
  rw [gainQuotient, Nat.pow_div (by omega) (by omega), Nat.add_sub_cancel]
  rfl

/-- In both cases of R89 the pair stands for the rounded quotient at the one scale `2^(-30-L-e)`: a power of
two has the quotient `2^31`, and its pair the half of that as mantissa and one more in the exponent. -/
theorem gainMantissa_mul_eq (h1 : 2 ^ L ≤ tl) (h2 : tl < 2 ^ (L + 1)) (e : Int) :
    (gainMantissa tl : ℚ) * (2 : ℚ) ^ (gainExponent tl e - 31) =
      gainQuotient tl L * (2 : ℚ) ^ (-30 - L - e) := by
  by_cases h : tl = 2 ^ L
  · rw [h, gainMantissa_two_pow, gainExponent_two_pow, gainQuotient_two_pow,
      show (2 - L - e - 31 : Int) = (-30 - L - e) + 1 by ring, zpow_add_one₀ two_ne_zero]
    push_cast
    ring
  · rw [gainMantissa_of_ne h1 h2 h, gainExponent_of_ne h1 h2 h,
      show (1 - L - e - 31 : Int) = -30 - L - e by ring]

/-- The gain of R89 is the unrounded quotient at the same scale. -/
theorem two_div_mul_zpow_eq (tl L : Nat) (e : Int) :
    2 / (tl : ℚ) * (2 : ℚ) ^ (-e) = (2 : ℚ) ^ (31 + L) / tl * (2 : ℚ) ^ (-30 - L - e : Int) := by
  have h : (2 : ℚ) * (2 : ℚ) ^ (-e) = (2 : ℚ) ^ (31 + L) * (2 : ℚ) ^ (-30 - L - e : Int) := by
    rw [← zpow_natCast, ← zpow_add₀ two_ne_zero, ← zpow_one_add₀ two_ne_zero]
    congr 1
    push_cast
    ring
  rw [div_mul_eq_mul_div, h, div_mul_eq_mul_div]

theorem abs_gainQuotient_sub_le (htl : 0 < tl) (L : Nat) :
    |(gainQuotient tl L : ℚ) - (2 : ℚ) ^ (31 + L) / tl| ≤ 1 / 2 := by
  have hround : (gainQuotient tl L : Int) = round ((2 : ℚ) ^ (31 + L) / tl) := by
    rw [gainQuotient_eq_floor htl, round_eq]
  rw [← Int.cast_natCast, hround, abs_sub_comm]
  exact abs_sub_round _

/-- The rounding error is `2^-31` of the quotient or less, because the quotient is above `2^30`. -/
theorem half_le_quotient_mul (htl : 0 < tl) (h2 : tl < 2 ^ (L + 1)) :
    (1 / 2 : ℚ) ≤ (2 : ℚ) ^ (31 + L) / tl * (2 : ℚ) ^ (-31 : Int) := by
  have htl' : (0 : ℚ) < tl := Nat.cast_pos.2 htl
  have hle : (tl : ℚ) ≤ 2 ^ L * 2 := by exact_mod_cast h2.le
  have hscale : (2 : ℚ) ^ (31 + L) * (2 : ℚ) ^ (-31 : Int) = 2 ^ L := by
    rw [pow_add, mul_right_comm, show (2 : ℚ) ^ 31 * (2 : ℚ) ^ (-31 : Int) = 1 by norm_num, one_mul]
  rw [div_mul_eq_mul_div, hscale, le_div_iff₀ htl']
  linarith

/-- Settles O26: pair and gain are the rounded and the exact quotient at one scale, so the bound is that of the
rounding. -/
theorem gainIsNormalisedReciprocal : Obligations.GainIsNormalisedReciprocal := by
  intro tl e h2 h32768
  obtain ⟨L, hL1, hL2⟩ : ∃ L, 2 ^ L ≤ tl ∧ tl < 2 ^ (L + 1) :=
    ⟨tl.log2, Nat.log2_self_le (by omega), Nat.lt_log2_self⟩
  obtain ⟨hlow, hhigh⟩ := gainMantissa_normalised hL1 hL2 h32768
  refine ⟨hlow, hhigh, ?_⟩
  have hscale : (0 : ℚ) < (2 : ℚ) ^ (-30 - L - e : Int) := by positivity
  have htl : 0 < tl := by omega
  have herror := (abs_gainQuotient_sub_le htl L).trans (half_le_quotient_mul htl hL2)
  rw [gainMantissa_mul_eq hL1 hL2, two_div_mul_zpow_eq tl L e, ← sub_mul, abs_mul, abs_of_pos hscale,
    mul_right_comm]
  exact mul_le_mul_of_nonneg_right herror hscale.le

end Sys2Proof.Machine
end

section
/-! # The codes of the inverse direction: O12, O13 -/

namespace Sys2Proof.Machine

variable {op : BitVec 8} {ch : Chan} {checks : State → List Check}
  {effect : State → Except Fault (State × Code)} {s : State} {c : Code}

theorem runContext_code (hr : ContextReady ch s)
    (he : firstFailure (checks s) = none → ∃ u, effect s = .ok (u, c)) :
    ∃ t, runContext op ch checks effect s = .next t ∧
      t.status.code = (firstFailure (checks s)).getD c := by
  obtain ⟨⟨hf, hn⟩, hv, hi⟩ := hr
  rw [runContext_ready hf hn hv hi]
  exact runRule_code he

/-! ## `ADAPT` and `INV` -/

/-- What R105 check 4 writes out is that the block length is no legal transform length. -/
theorem badFreshLength_iff (x : Ctx) (nout : Nat) :
    decide (x.dir = .none ∧ (nout % 2 = 1 ∨ nout < 2 ∨ x.tlMax.toNat < nout)) = true ↔
      x.dir = .none ∧ ¬ LegalTl nout x.tlMax.toNat := by
  rw [decide_eq_true_iff, ← badTl_eq_true, badTl, decide_eq_true_iff]

/-- The chain of R105. -/
theorem getD_firstFailure_adaptChecks (ch : Chan) (s : State) :
    (firstFailure (adaptChecks ch s)).getD .ok =
      if (s.ctx ch).dir = .fwd then .eDir
      else if ¬ LegalTl (adaptOperands s).tl (s.ctx ch).tlMax.toNat then .eTl
      else if (adaptOperands s).fl % 2 = 1 ∨ (adaptOperands s).tl < (adaptOperands s).fl then .eGeom
      else if (s.ctx ch).dir = .none ∧ ¬ LegalTl (adaptOperands s).nout (s.ctx ch).tlMax.toNat then .eCount
      else if (s.ctx ch).dir = .none ∧ (adaptOperands s).nout < (adaptOperands s).fl then .eGeom
      else if s.cfg.wmWords < (adaptOperands s).wls + (adaptOperands s).fl then .eWmem
      else .ok := by
  rw [adaptChecks, getD_firstFailure_cons decide_eq_true_iff, getD_firstFailure_cons badTl_eq_true,
    getD_firstFailure_cons decide_eq_true_iff, getD_firstFailure_cons (badFreshLength_iff _ _),
    getD_firstFailure_cons decide_eq_true_iff, getD_firstFailure_cons decide_eq_true_iff, firstFailure_nil,
    Option.getD_none]

/-- The chain of R109. -/
theorem getD_firstFailure_invChecks (ch : Chan) (s : State) :
    (firstFailure (invChecks ch s)).getD .ok =
      if (s.ctx ch).dir ≠ .inv then .eDir
      else if ¬ LegalTl (invOperands s).tl (s.ctx ch).tlMax.toNat then .eTl
      else if (invOperands s).fl ≠ (s.ctx ch).prevFr.toNat then .eAdapt
      else if (invOperands s).tl < (invOperands s).fl ∨ (invOperands s).fr % 2 = 1 ∨
          (invOperands s).tl < (invOperands s).fr then .eGeom
      else if (invOperands s).nspec < 1 ∨ 2 ^ 31 ≤ (invOperands s).nspec ∨
          2 ^ 31 ≤ (invOperands s).nout then .eCount
      else if s.cfg.wmWords < (invOperands s).wrs + (invOperands s).fr then .eWmem
      else if s.cfg.dmWords < (invOperands s).spec + (invOperands s).nspec * (invOperands s).tl ∨
          s.cfg.dmWords < (invOperands s).scl + (invOperands s).nspec then .eDmem
      else if s.cfg.dmWords < (invOperands s).out + invDelivered (invOperands s) (s.ctx ch) then .eDmem
      else if (s.ctx ch).ovSize.toNat <
          (invTotal (invOperands s) (s.ctx ch) - invDelivered (invOperands s) (s.ctx ch)) +
            (invOperands s).tl / 2 then .eOvfull
      else .ok := by
  rw [invChecks, getD_firstFailure_cons decide_eq_true_iff, getD_firstFailure_cons badTl_eq_true,
    getD_firstFailure_cons decide_eq_true_iff, getD_firstFailure_cons decide_eq_true_iff,
    getD_firstFailure_cons decide_eq_true_iff, getD_firstFailure_cons decide_eq_true_iff,
    getD_firstFailure_cons decide_eq_true_iff, getD_firstFailure_cons decide_eq_true_iff,
    getD_firstFailure_cons decide_eq_true_iff, firstFailure_nil, Option.getD_none]
  rfl

/-- Settles O12: each code is that of the first failing check, and the chains are those of R105 and R109. -/
theorem inverseChecksInOrder : Obligations.InverseChecksInOrder := by
  intro ch s hr
  obtain ⟨-, -, hi⟩ := id hr
  rw [← getD_firstFailure_adaptChecks, ← getD_firstFailure_invChecks]
  exact ⟨runContext_code hr fun _ => ⟨_, rfl⟩,
    runContext_code hr fun h => ⟨_, invEffect_of_pass hi (invChecks_pass.1 h)⟩⟩

/-! ## `DRAIN` and `PEEK` -/

/-- The chain of R118. -/
theorem getD_firstFailure_drainChecks (ch : Chan) (s : State) :
    (firstFailure (drainChecks ch s)).getD .ok =
      if (s.ctx ch).dir ≠ .inv then .eDir
      else if 2 ^ 31 ≤ (copyOperands s).count then .eCount
      else if s.cfg.dmWords < (copyOperands s).out + drainCount ch s then .eDmem
      else .ok := by
  rw [drainChecks, getD_firstFailure_cons decide_eq_true_iff, getD_firstFailure_cons decide_eq_true_iff,
    getD_firstFailure_cons decide_eq_true_iff, firstFailure_nil, Option.getD_none]
  rfl

/-- The chain of R119. -/
theorem getD_firstFailure_peekChecks (ch : Chan) (s : State) :
    (firstFailure (peekChecks ch s)).getD .ok =
      if (s.ctx ch).dir ≠ .inv then .eDir
      else if 2 ^ 31 ≤ (copyOperands s).count then .eCount
      else if s.cfg.dmWords < (copyOperands s).out + peekCount ch s then .eDmem
      else .ok := by
  rw [peekChecks, getD_firstFailure_cons decide_eq_true_iff, getD_firstFailure_cons decide_eq_true_iff,
    getD_firstFailure_cons decide_eq_true_iff, firstFailure_nil, Option.getD_none]
  rfl

/-- Settles O13: each code is that of the first failing check, and the chains are those of R118 and R119. -/
theorem copyChecksInOrder : Obligations.CopyChecksInOrder := by
  intro ch s hr
  obtain ⟨-, -, hi⟩ := id hr
  have hdrain := getD_firstFailure_drainChecks ch s
  have hpeek := getD_firstFailure_peekChecks ch s
  rw [drainCount] at hdrain
  rw [peekCount] at hpeek
  rw [← hdrain, ← hpeek]
  exact ⟨runContext_code hr fun h => ⟨_, drainEffect_of_pass hi (drainChecks_pass.1 h)⟩,
    runContext_code hr fun h => ⟨_, peekEffect_of_pass hi (peekChecks_pass.1 h)⟩⟩

end Sys2Proof.Machine
end

section
/-! # The result of `ADAPT`: O29 -/

namespace Sys2Proof.Machine

variable {ch : Chan} {s : State} {x : Ctx}

/-! ## The four cases of R106 -/

/-- A fresh context takes the declared block length and slope. -/
theorem adaptCase_fresh (hd : x.dir = .none) :
    adaptCase s x =
      ({ x with
         dir := .inv, fill := 0#32, prevTl := s.arg 4, prevFr := s.arg 0
         prevNr := w32n ((s.uarg 4 - s.uarg 0) / 2), prevWrs := s.arg 3 }, s.uarg 0, 3) := if_pos hd

theorem adaptCase_equal (hd : x.dir = .inv) (h : s.uarg 0 = x.prevFr.toNat) :
    adaptCase s x = (x, s.uarg 0, 0) := by
  have hn : x.dir ≠ .none := by rw [hd]; decide
  exact (if_neg hn).trans (if_pos h)

/-- A shorter left slope replaces the previous right one. -/
theorem adaptCase_shorter (hd : x.dir = .inv) (h : s.uarg 0 < x.prevFr.toNat) :
    adaptCase s x =
      ({ x with
         prevFr := s.arg 0, prevNr := w32n ((x.prevTl.toNat - s.uarg 0) / 2), prevWrs := s.arg 3 },
       s.uarg 0, 1) := by
  have hn : x.dir ≠ .none := by rw [hd]; decide
  exact (if_neg hn).trans ((if_neg h.ne).trans (if_pos h))

/-- A longer left slope is cut to the previous right one. -/
theorem adaptCase_longer (hd : x.dir = .inv) (h : x.prevFr.toNat < s.uarg 0) :
    adaptCase s x = (x, x.prevFr.toNat, 2) := by
  have hn : x.dir ≠ .none := by rw [hd]; decide
  exact (if_neg hn).trans ((if_neg h.ne').trans (if_neg h.asymm))

/-! ## The state it leaves -/

/-- What `ADAPT` answers, by the case that the state before it selects. -/
theorem adaptState_of_case {fl how : Nat} (h : adaptCase s (s.ctx ch) = (x, fl, how)) :
    (adaptState ch s).ret = w32n how ∧ (adaptState ch s).arg 0 = w32n fl ∧
      (adaptState ch s).arg 1 = w32n ((s.uarg 2 - fl) / 2) ∧ (adaptState ch s).ctx ch = x := by
  rw [adaptState, h]
  refine ⟨rfl, ?_, ?_, ?_⟩
  · rw [State.arg_setRet, State.arg_setArg_ne _ _ (by decide), State.arg_setArg_self]
  · rw [State.arg_setRet, State.arg_setArg_self]
    rfl
  · rw [State.ctx_setRet, State.ctx_setArg, State.ctx_setArg, State.ctx_setCtx_self]

theorem adaptState_sameArgs (ch : Chan) (s : State) : SameArgsBut [0, 1] s (adaptState ch s) :=
  fun j hj => by
    obtain ⟨hj0, hj1⟩ : j ≠ 0 ∧ j ≠ 1 := by simpa using hj
    rw [adaptState, State.arg_setRet, State.arg_setArg_ne _ _ hj1, State.arg_setArg_ne _ _ hj0,
      State.arg_setCtx]

theorem adaptState_sameMemories (ch : Chan) (s : State) : SameMemories s (adaptState ch s) :=
  fun sp b => by
    rw [adaptState, State.byteAt_setRet, State.byteAt_setArg, State.byteAt_setArg, State.byteAt_setCtx]

theorem w32n_toNat (v : Word) : w32n v.toNat = v := (BitVec.ofNat_toNat 32 v).trans (BitVec.setWidth_eq v)

theorem w32n_uarg (s : State) (i : Fin 16) : w32n (s.uarg i) = s.arg i := w32n_toNat (s.arg i)

/-- Settles O29: each case of R106 gives `adaptCase`, and `adaptCase` gives what the command answers. -/
theorem adaptResult : Obligations.AdaptResult := by
  intro ch s hr h
  have hmem := adaptState_sameMemories ch s
  refine ⟨_, execAdapt_eq hr h, EffectOf.completes (i := .adapt ch) ⟨rfl, rfl, hr, h⟩,
    adaptState_sameArgs ch s, rfl, rfl, fun d hd => adaptState_ctx.trans (if_neg hd),
    fun sp b => (State.byteAt_finish _ _ _ _ sp b).trans (hmem sp b),
    fun hd => ?fresh, fun hd he => ?equal, fun hd hlt => ?shorter, fun hd hgt => ?longer⟩
  case fresh =>
    have hcase := adaptState_of_case (adaptCase_fresh hd)
    rwa [w32n_uarg] at hcase
  case equal =>
    have hcase := adaptState_of_case (adaptCase_equal hd he)
    rwa [w32n_uarg] at hcase
  case shorter =>
    have hcase := adaptState_of_case (adaptCase_shorter hd hlt)
    rwa [w32n_uarg] at hcase
  case longer =>
    have hcase := adaptState_of_case (adaptCase_longer hd hgt)
    rwa [w32n_toNat] at hcase

end Sys2Proof.Machine
end

section
/-! # The results of `DRAIN` and `PEEK`: O32, O33

Both copy words of the overlap region to DMEM. `shownWord` is the word a context shows at each place: its pending
samples, then the flat tail of its last block (spec/43_inverse_transform.md R119). -/

namespace Sys2Proof.Machine

variable {ch : Chan} {s : State} {k : Nat}

/-- Only a refusal and `E_INTERNAL` write `RET <- 0` (spec/30_encoding.md R56). -/
theorem finish_ok_ret (op : BitVec 8) (cb : BitVec 4) (s : State) : (finish op cb .ok s).ret = s.ret := rfl

/-! ## Stores to DMEM and then to OVMEM -/

/-- The words `vs` at `a` of DMEM, then the words `ws` at `b` of OVMEM. -/
def State.putBoth (s : State) (a : Nat) (vs : List Word) (b : Nat) (ws : List Word) : State :=
  let t := s.setMem .dm ((s.mem .dm).putWords a vs)
  t.setMem .ov ((t.mem .ov).putWords b ws)

/-- Neither store touches the other's memory. -/
theorem State.putBoth_spec (s : State) (a : Nat) (vs : List Word) (b : Nat) (ws : List Word) :
    ((∀ k (h : k < vs.length), (s.putBoth a vs b ws).wordAt .dm (a + k) = vs[k]) ∧
      SameBytesOutside .dm a vs.length s (s.putBoth a vs b ws)) ∧
    (∀ k (h : k < ws.length), (s.putBoth a vs b ws).wordAt .ov (b + k) = ws[k]) ∧
      SameBytesOutside .ov b ws.length s (s.putBoth a vs b ws) := by
  obtain ⟨hdm, hdmOut, hdmOther⟩ := s.putWords_spec .dm a vs
  obtain ⟨hov, hovOut, hovOther⟩ := (s.setMem .dm ((s.mem .dm).putWords a vs)).putWords_spec .ov b ws
  have hkeep := hovOther .dm (by decide)
  exact ⟨⟨fun k h => (hkeep.word _).trans (hdm k h), fun c hc => (hkeep c).trans (hdmOut c hc)⟩,
    hov, fun c hc => (hovOut c hc).trans (hdmOther .ov (by decide) c)⟩

@[simp] theorem State.putBoth_args (s : State) (a : Nat) (vs : List Word) (b : Nat) (ws : List Word) :
    (s.putBoth a vs b ws).args = s.args := by simp [State.putBoth]

@[simp] theorem State.putBoth_flags (s : State) (a : Nat) (vs : List Word) (b : Nat) (ws : List Word) :
    (s.putBoth a vs b ws).flags = s.flags := by simp [State.putBoth]

@[simp] theorem State.putBoth_rc (s : State) (a : Nat) (vs : List Word) (b : Nat) (ws : List Word) :
    (s.putBoth a vs b ws).rc = s.rc := by simp [State.putBoth]

/-! ## `DRAIN` -/

theorem pendingWords_getElem {n : Nat} (h : k < (pendingWords ch s n).length) :
    (pendingWords ch s n)[k] = s.wordAt .ov ((s.ctx ch).ovBase.toNat + k) := by
  simp [pendingWords]

/-- The memories after the words that leave and the words that stay are stored (R118). -/
def drainStored (ch : Chan) (s : State) : State :=
  s.putBoth (copyOperands s).out ((pendingWords ch s (s.ctx ch).fill.toNat).take (drainCount ch s))
    (s.ctx ch).ovBase.toNat ((pendingWords ch s (s.ctx ch).fill.toNat).drop (drainCount ch s))

theorem drainState_eq (ch : Chan) (s : State) :
    drainState ch s =
      ((drainStored ch s).setCtx ch (drainContext ch s)).setRet (w32n (drainCount ch s)) := rfl

theorem drainState_registers (ch : Chan) (s : State) :
    (drainState ch s).args = s.args ∧ (drainState ch s).flags = s.flags ∧ (drainState ch s).rc = s.rc := by
  simp [drainState_eq, drainStored]

theorem drainCount_le_fill (ch : Chan) (s : State) : drainCount ch s ≤ (s.ctx ch).fill.toNat := min_le_left _ _

/-- The oldest pending words go to DMEM (R118). -/
theorem drainState_dm (ch : Chan) (s : State) :
    (∀ k < drainCount ch s, (drainState ch s).wordAt .dm ((copyOperands s).out + k) =
      s.wordAt .ov ((s.ctx ch).ovBase.toNat + k)) ∧
    SameBytesOutside .dm (copyOperands s).out (drainCount ch s) s (drainState ch s) := by
  have hlen : ((pendingWords ch s (s.ctx ch).fill.toNat).take (drainCount ch s)).length =
      drainCount ch s := by
    rw [List.length_take, length_pendingWords, min_eq_left (drainCount_le_fill ch s)]
  obtain ⟨⟨hin, hout⟩, -⟩ := s.putBoth_spec (copyOperands s).out
    ((pendingWords ch s (s.ctx ch).fill.toNat).take (drainCount ch s)) (s.ctx ch).ovBase.toNat
    ((pendingWords ch s (s.ctx ch).fill.toNat).drop (drainCount ch s))
  rw [hlen] at hout
  refine ⟨fun k hk => ?_, fun b hb => ?_⟩
  · rw [drainState_eq, State.wordAt_setRet, State.wordAt_setCtx, drainStored, hin k (by rwa [hlen]),
      List.getElem_take, pendingWords_getElem]
  · rw [drainState_eq, State.byteAt_setRet, State.byteAt_setCtx, drainStored, hout b hb]

/-- The pending words that stay move down (R118). -/
theorem drainState_ov (ch : Chan) (s : State) :
    (∀ k < (s.ctx ch).fill.toNat - drainCount ch s,
      (drainState ch s).wordAt .ov ((s.ctx ch).ovBase.toNat + k) =
        s.wordAt .ov ((s.ctx ch).ovBase.toNat + drainCount ch s + k)) ∧
    SameBytesOutside .ov (s.ctx ch).ovBase.toNat ((s.ctx ch).fill.toNat - drainCount ch s) s
      (drainState ch s) := by
  have hlen : ((pendingWords ch s (s.ctx ch).fill.toNat).drop (drainCount ch s)).length =
      (s.ctx ch).fill.toNat - drainCount ch s := by rw [List.length_drop, length_pendingWords]
  obtain ⟨-, hin, hout⟩ := s.putBoth_spec (copyOperands s).out
    ((pendingWords ch s (s.ctx ch).fill.toNat).take (drainCount ch s)) (s.ctx ch).ovBase.toNat
    ((pendingWords ch s (s.ctx ch).fill.toNat).drop (drainCount ch s))
  rw [hlen] at hout
  refine ⟨fun k hk => ?_, fun b hb => ?_⟩
  · rw [drainState_eq, State.wordAt_setRet, State.wordAt_setCtx, drainStored, hin k (by rwa [hlen]),
      List.getElem_drop, pendingWords_getElem, Nat.add_assoc]
  · rw [drainState_eq, State.byteAt_setRet, State.byteAt_setCtx, drainStored, hout b hb]

/-- Settles O32: the memories after `DRAIN` are `drainState_dm` and `drainState_ov`. -/
theorem drainResult : Obligations.DrainResult := by
  intro ch s hr h
  obtain ⟨hdm, hdmOut⟩ := drainState_dm ch s
  obtain ⟨hov, hovOut⟩ := drainState_ov ch s
  obtain ⟨hargs, hflags, hrc⟩ := drainState_registers ch s
  have hword (sp : Space) (a : Nat) := State.wordAt_finish 0x1B#8 (BitVec.ofFin ch) .ok (drainState ch s) sp a
  have hbyte (sp : Space) (b : Nat) := State.byteAt_finish 0x1B#8 (BitVec.ofFin ch) .ok (drainState ch s) sp b
  refine ⟨_, execDrain_eq hr h, EffectOf.completes (i := .drain ch) ⟨rfl, rfl, hr, h⟩, rfl, hargs,
    fun k hk => (hword _ _).trans (hdm k hk), fun b hb => (hbyte _ _).trans (hdmOut b hb),
    fun k hk => (hword _ _).trans (hov k hk), fun b hb => (hbyte _ _).trans (hovOut b hb),
    fun b => (hbyte _ _).trans (drainState_sameBytes (by decide) (by decide) b), ?own, fun d hd => ?other,
    hflags, hrc⟩
  case own => rw [State.ctx_finish, drainState_ctx, if_pos rfl]; rfl
  case other => rw [State.ctx_finish, drainState_ctx, if_neg hd]

/-! ## `PEEK` -/

/-- Entry `k` of the flat tail before its `sat32` (R119). -/
def flatTailRaw (ch : Chan) (s : State) (k : Nat) : Int :=
  -s32 (s.wordAt .ov ((s.ctx ch).ovBase.toNat + (s.ctx ch).ovSize.toNat - 1 - k)) * 2 ^ HR

/-- Word `k` of what the context shows: pending samples, then the flat tail. -/
def shownWord (ch : Chan) (s : State) (k : Nat) : Word :=
  if k < (s.ctx ch).fill.toNat then s.wordAt .ov ((s.ctx ch).ovBase.toNat + k)
  else w32 (sat32 (flatTailRaw ch s (k - (s.ctx ch).fill.toNat)))

theorem shownWord_pending (h : k < (s.ctx ch).fill.toNat) :
    shownWord ch s k = s.wordAt .ov ((s.ctx ch).ovBase.toNat + k) := if_pos h

theorem shownWord_tail (ch : Chan) (s : State) (k : Nat) :
    shownWord ch s ((s.ctx ch).fill.toNat + k) = w32 (sat32 (flatTailRaw ch s k)) := by
  rw [shownWord, if_neg (by omega), Nat.add_sub_cancel_left]

theorem peekCount_le (ch : Chan) (s : State) :
    peekCount ch s ≤ (s.ctx ch).fill.toNat + (s.ctx ch).prevNr.toNat := min_le_right _ _

/-- The flat tail lies in the carry of the region (R21 items 5 and 7). -/
theorem prevNr_le_ovSize (hi : s.CtxInv ch (s.ctx ch)) (hdir : (s.ctx ch).dir = .inv) :
    (s.ctx ch).prevNr.toNat ≤ (s.ctx ch).prevTl.toNat / 2 ∧
      (s.ctx ch).prevTl.toNat / 2 ≤ (s.ctx ch).ovSize.toNat := by
  obtain ⟨-, -, hnr, -⟩ := ctxInv_geometry hi (by rw [hdir]; decide)
  have hroom := ctxInv_fill_inv hi hdir
  omega

/-- `peekTail` reads the region from its last word downwards. -/
theorem peekTail_eq (hi : s.CtxInv ch (s.ctx ch)) (hdir : (s.ctx ch).dir = .inv) :
    peekTail ch s =
      (List.range (peekCount ch s - (s.ctx ch).fill.toNat)).map fun k => satPair (flatTailRaw ch s k) := by
  have hcount := peekCount_le ch s
  obtain ⟨hnr, hptl⟩ := prevNr_le_ovSize hi hdir
  refine List.ext_getElem (by simp [length_peekTail]) fun k h1 _ => ?_
  rw [length_peekTail] at h1
  simp only [peekTail, flatTail, flatTailRaw, List.getElem_map, List.getElem_reverse, List.getElem_range,
    List.length_map, List.length_range]
  congr 6
  omega

/-- The words that `PEEK` stores. -/
theorem peekWords_eq (hi : s.CtxInv ch (s.ctx ch)) (hdir : (s.ctx ch).dir = .inv) :
    pendingWords ch s (min (peekCount ch s) (s.ctx ch).fill.toNat) ++
      ((peekTail ch s).map fun p => w32 p.1) = (List.range (peekCount ch s)).map (shownWord ch s) := by
  refine List.ext_getElem ?_ fun k h1 h2 => ?_
  · rw [List.length_append, List.length_map, length_pendingWords, length_peekTail, List.length_map,
      List.length_range]
    omega
  rw [List.length_map, List.length_range] at h2
  rw [List.getElem_append, List.getElem_map, List.getElem_range, shownWord]
  simp only [pendingWords_getElem, length_pendingWords, peekTail_eq hi hdir, List.getElem_map,
    List.getElem_range]
  split_ifs with hmin hfill hfill
  · rfl
  · omega
  · omega
  · rw [satPair_fst]
    congr 3
    omega

/-- The memory that `PEEK` writes (R119). -/
theorem peekState_dm (hi : s.CtxInv ch (s.ctx ch)) (hdir : (s.ctx ch).dir = .inv) :
    (∀ k < peekCount ch s, (peekState ch s).wordAt .dm ((copyOperands s).out + k) = shownWord ch s k) ∧
    SameBytesOutside .dm (copyOperands s).out (peekCount ch s) s (peekState ch s) := by
  obtain ⟨hin, hout, -⟩ := s.putWords_spec .dm (copyOperands s).out
    ((List.range (peekCount ch s)).map (shownWord ch s))
  rw [List.length_map, List.length_range] at hout
  refine ⟨fun k hk => ?_, fun b hb => ?_⟩
  · rw [peekState, peekWords_eq hi hdir, State.wordAt_setRet, State.wordAt_setFlags, hin k (by simpa using hk),
      List.getElem_map, List.getElem_range]
  · rw [peekState, peekWords_eq hi hdir, State.byteAt_setRet, State.byteAt_setFlags, hout b hb]

theorem peekState_registers (ch : Chan) (s : State) :
    (peekState ch s).args = s.args ∧ (peekState ch s).rc = s.rc ∧
      (peekState ch s).flags.rcUf = s.flags.rcUf ∧ (peekState ch s).flags.rcOf = s.flags.rcOf := by
  simp [peekState, Flags.raiseSat]

/-- The flag that `PEEK` raises (R72): some word of the flat tail clamped. -/
theorem peekState_sat (hi : s.CtxInv ch (s.ctx ch)) (hdir : (s.ctx ch).dir = .inv) :
    (peekState ch s).flags.sat = true ↔ s.flags.sat = true ∨
      ∃ k < peekCount ch s - (s.ctx ch).fill.toNat, saturates (flatTailRaw ch s k) = true := by
  rw [peekState, State.setRet_flags, State.setFlags_flags, Flags.raiseSat, Bool.or_eq_true,
    peekTail_eq hi hdir, any_satPair]

/-- Settles O33: what `PEEK` stores is `shownWord`, and it writes no memory but DMEM. -/
theorem peekResult : Obligations.PeekResult := by
  intro ch s hr h
  obtain ⟨-, -, hi⟩ := id hr
  obtain ⟨hdm, hout⟩ := peekState_dm hi h.1
  obtain ⟨hargs, hrc, hrcUf, hrcOf⟩ := peekState_registers ch s
  have hword (sp : Space) (a : Nat) := State.wordAt_finish 0x1C#8 (BitVec.ofFin ch) .ok (peekState ch s) sp a
  have hbyte (sp : Space) (b : Nat) := State.byteAt_finish 0x1C#8 (BitVec.ofFin ch) .ok (peekState ch s) sp b
  refine ⟨_, execPeek_eq hr h, EffectOf.completes (i := .peek ch) ⟨rfl, rfl, hr, h⟩, ?ret, ?args, rfl,
    fun k hk => ?pending, fun k hk => ?tail, fun b hb => (hbyte _ _).trans (hout b hb),
    fun b => (hbyte _ _).trans (peekState_sameBytes (by decide) b),
    fun b => (hbyte _ _).trans (peekState_sameBytes (by decide) b), fun d => ?ctx, ?rc,
    ?sat, ?rcUf, ?rcOf⟩
  case ret => rw [finish_ok_ret]; rfl
  case ctx => rw [State.ctx_finish, peekState_ctx]
  case pending =>
    obtain ⟨hcount, hfill⟩ := lt_min_iff.1 hk
    exact (hword _ _).trans ((hdm k hcount).trans (shownWord_pending hfill))
  case tail =>
    rw [Nat.add_assoc]
    exact (hword _ _).trans ((hdm _ (by omega)).trans (shownWord_tail ch s k))
  case args => rw [finish_args, hargs]
  case rc => rw [finish_rc, hrc]
  case sat => rw [finish_flags]; exact peekState_sat hi h.1
  case rcUf => rw [finish_flags, hrcUf]
  case rcOf => rw [finish_flags, hrcOf]

end Sys2Proof.Machine
end

section
/-! # The result of `INV`: O30 -/

namespace Sys2Proof.Machine

variable {ch : Chan} {s : State} {k : Nat}

/-! ## The lists that `INV` stores -/

/-- The samples delivered and the samples that stay pending are the closed formula `invQ` (R115). -/
theorem invEnd_q_getElem (g : InvGeometry ch s) (h : k < (invEnd ch s).q.length) :
    (invEnd ch s).q[k] = invQ s ch k := by
  rw [← getD_eq_of_lt (d := 0) h, invEnd_q_getD g (by rwa [length_invEnd_q g] at h)]

theorem invEnd_c_getElem (g : InvGeometry ch s) (h : k < (invEnd ch s).c.length) :
    (invEnd ch s).c[k] = invTc s ((invOperands s).nspec - 1) k := by
  rw [← getD_eq_of_lt (d := 0) h, invEnd_c_getD g.pos (by rwa [length_invEnd_c g.pos] at h)]

/-- The words delivered. -/
def invDeliveredWords (ch : Chan) (s : State) : List Word :=
  ((invEnd ch s).q.take (invDelivered (invOperands s) (s.ctx ch))).map w32

/-- The words that stay pending. -/
def invPendingWords (ch : Chan) (s : State) : List Word :=
  ((invEnd ch s).q.drop (invDelivered (invOperands s) (s.ctx ch))).map w32

theorem length_invDeliveredWords (g : InvGeometry ch s) :
    (invDeliveredWords ch s).length = invDelivered (invOperands s) (s.ctx ch) := by
  rw [invDeliveredWords, List.length_map, List.length_take, length_invEnd_q g]
  exact min_eq_left (min_le_right _ _)

theorem length_invPendingWords (g : InvGeometry ch s) :
    (invPendingWords ch s).length =
      invTotal (invOperands s) (s.ctx ch) - invDelivered (invOperands s) (s.ctx ch) := by
  rw [invPendingWords, List.length_map, List.length_drop, length_invEnd_q g]

theorem invDeliveredWords_getElem (g : InvGeometry ch s) (h : k < (invDeliveredWords ch s).length) :
    (invDeliveredWords ch s)[k] = w32 (invQ s ch k) := by
  simp only [invDeliveredWords, List.getElem_map, List.getElem_take, invEnd_q_getElem g]

theorem invPendingWords_getElem (g : InvGeometry ch s) (h : k < (invPendingWords ch s).length) :
    (invPendingWords ch s)[k] = w32 (invQ s ch (invDelivered (invOperands s) (s.ctx ch) + k)) := by
  simp only [invPendingWords, List.getElem_map, List.getElem_drop, invEnd_q_getElem g]

/-! ## The memories -/

/-- The first word of the new carry: the region's last `tl/2` words hold it (R116). -/
def invCarryBase (ch : Chan) (s : State) : Nat :=
  (s.ctx ch).ovBase.toNat + (s.ctx ch).ovSize.toNat - (invOperands s).tl / 2

/-- The memories after the delivered and the pending words are stored. -/
def invStored (ch : Chan) (s : State) : State :=
  s.putBoth (invOperands s).out (invDeliveredWords ch s) (s.ctx ch).ovBase.toNat (invPendingWords ch s)

theorem invState_eq (ch : Chan) (s : State) :
    invState ch s =
      ((((invStored ch s).setMem .ov (((invStored ch s).mem .ov).putWords (invCarryBase ch s)
        ((invEnd ch s).c.map w32))).setCtx ch (invContext s (s.ctx ch))).setFlags
          (s.flags.raiseSat (invEnd ch s).sat)).setRet (w32n (invDelivered (invOperands s) (s.ctx ch))) := rfl

theorem invState_dm (g : InvGeometry ch s) :
    (∀ k < invDelivered (invOperands s) (s.ctx ch),
      (invState ch s).wordAt .dm ((invOperands s).out + k) = w32 (invQ s ch k)) ∧
    SameBytesOutside .dm (invOperands s).out (invDelivered (invOperands s) (s.ctx ch)) s
      (invState ch s) := by
  obtain ⟨⟨hin, hout⟩, -⟩ := s.putBoth_spec (invOperands s).out (invDeliveredWords ch s)
    (s.ctx ch).ovBase.toNat (invPendingWords ch s)
  rw [length_invDeliveredWords g] at hout
  refine ⟨fun k hk => ?_, fun b hb => ?_⟩
  · rw [invState_eq, State.wordAt_setRet, State.wordAt_setFlags, State.wordAt_setCtx,
      State.wordAt_setMem_ne _ _ (by decide), invStored, hin k (by rwa [length_invDeliveredWords g]),
      invDeliveredWords_getElem g]
  · rw [invState_eq, State.byteAt_setRet, State.byteAt_setFlags, State.byteAt_setCtx,
      State.byteAt_setMem_ne _ _ (by decide), invStored, hout b hb]

/-- The pending words at the bottom of the region and the carry at its top do not meet (R109 check 9). -/
theorem invState_ov (g : InvGeometry ch s) (h : InvOk ch s) :
    (∀ k < invTotal (invOperands s) (s.ctx ch) - invDelivered (invOperands s) (s.ctx ch),
      (invState ch s).wordAt .ov ((s.ctx ch).ovBase.toNat + k) =
        w32 (invQ s ch (invDelivered (invOperands s) (s.ctx ch) + k))) ∧
    (∀ k < (invOperands s).tl / 2,
      (invState ch s).wordAt .ov (invCarryBase ch s + k) =
        w32 (invTc s ((invOperands s).nspec - 1) k)) ∧
    ∀ b,
      (b < 4 * (s.ctx ch).ovBase.toNat ∨
        4 * ((s.ctx ch).ovBase.toNat +
          (invTotal (invOperands s) (s.ctx ch) - invDelivered (invOperands s) (s.ctx ch))) ≤ b) →
      (b < 4 * invCarryBase ch s ∨ 4 * ((s.ctx ch).ovBase.toNat + (s.ctx ch).ovSize.toNat) ≤ b) →
      (invState ch s).byteAt .ov b = s.byteAt .ov b := by
  obtain ⟨-, -, -, -, -, -, -, -, hroom⟩ := h
  obtain ⟨-, hin, hout⟩ := s.putBoth_spec (invOperands s).out (invDeliveredWords ch s)
    (s.ctx ch).ovBase.toNat (invPendingWords ch s)
  obtain ⟨hcarry, hcarryOut, -⟩ := (invStored ch s).putWords_spec .ov (invCarryBase ch s)
    ((invEnd ch s).c.map w32)
  have hlen : ((invEnd ch s).c.map w32).length = (invOperands s).tl / 2 := by
    rw [List.length_map, length_invEnd_c g.pos]
  rw [length_invPendingWords g] at hout
  rw [hlen] at hcarryOut
  refine ⟨fun k hk => ?_, fun k hk => ?_, fun b hb hb' => ?_⟩
  · rw [invState_eq, State.wordAt_setRet, State.wordAt_setFlags, State.wordAt_setCtx,
      hcarryOut.word (by rw [invCarryBase]; omega), invStored, hin k (by rwa [length_invPendingWords g]),
      invPendingWords_getElem g]
  · rw [invState_eq, State.wordAt_setRet, State.wordAt_setFlags, State.wordAt_setCtx,
      hcarry k (by rwa [hlen]), List.getElem_map, invEnd_c_getElem g]
  · have hsum : invCarryBase ch s + (invOperands s).tl / 2 =
        (s.ctx ch).ovBase.toNat + (s.ctx ch).ovSize.toNat := by rw [invCarryBase]; omega
    rw [invState_eq, State.byteAt_setRet, State.byteAt_setFlags, State.byteAt_setCtx,
      hcarryOut b (by rwa [hsum]), invStored, hout b hb]

theorem invState_registers (ch : Chan) (s : State) :
    (invState ch s).args = s.args ∧ (invState ch s).rc = s.rc ∧
      (invState ch s).flags.rcUf = s.flags.rcUf ∧ (invState ch s).flags.rcOf = s.flags.rcOf := by
  simp [invState_eq, invStored, Flags.raiseSat]

theorem invState_sat (g : InvGeometry ch s) :
    (invState ch s).flags.sat = true ↔ s.flags.sat = true ∨ InvClamps s ch := by
  rw [invState_eq, State.setRet_flags, State.setFlags_flags, Flags.raiseSat, Bool.or_eq_true, invEnd_sat g]

/-- Settles O30: the block loop by the closed formulas of R111 to R114 (`invState_dm`, `invState_ov`), and the
frame. -/
theorem inverseBlocksResult : Obligations.InverseBlocksResult := by
  intro ch s hr h
  obtain ⟨-, -, hi⟩ := id hr
  have g := h.geometry hi
  obtain ⟨hdm, hdmOut⟩ := invState_dm g
  obtain ⟨hpending, hcarry, hovOut⟩ := invState_ov g h
  obtain ⟨hargs, hrc, hrcUf, hrcOf⟩ := invState_registers ch s
  have hword (sp : Space) (a : Nat) := State.wordAt_finish 0x1A#8 (BitVec.ofFin ch) .ok (invState ch s) sp a
  have hbyte (sp : Space) (b : Nat) := State.byteAt_finish 0x1A#8 (BitVec.ofFin ch) .ok (invState ch s) sp b
  refine ⟨_, execInv_eq hr h, EffectOf.completes (i := .inv ch) ⟨rfl, rfl, hr, h⟩, ?ret, hargs,
    fun k hk => (hword _ _).trans (hdm k hk), fun b hb => (hbyte _ _).trans (hdmOut b hb),
    fun k hk => (hword _ _).trans (hpending k hk), fun k hk => (hword _ _).trans (hcarry k hk),
    fun b hb hb' => (hbyte _ _).trans (hovOut b hb hb'),
    fun b => (hbyte _ _).trans (invState_sameBytes (by decide) (by decide) b), ?own, fun d hd => ?other, hrc,
    ?sat, ?rcUf, ?rcOf⟩
  case ret => rw [finish_ok_ret]; rfl
  case sat => rw [finish_flags]; exact invState_sat g
  case rcUf => rw [finish_flags, hrcUf]
  case rcOf => rw [finish_flags, hrcOf]
  case own => rw [State.ctx_finish, invState_ctx, if_pos rfl]; rfl
  case other => rw [State.ctx_finish, invState_ctx, if_neg hd]

end Sys2Proof.Machine
end

section
/-! # `INV` does not read A5: O31 -/

namespace Sys2Proof.Machine

variable {ch : Chan} {s : State} {j k : Fin 16} {v : Word}

/-- `INV` carries along a write of any argument register that is none of its operands. -/
theorem execInv_setArg_of_operands (ho : invOperands (s.setArg k v) = invOperands s)
    (hx : invContext (s.setArg k v) (s.ctx ch) = invContext s (s.ctx ch)) :
    execInv ch (s.setArg k v) = mapNext (fun t => t.setArg k v) (execInv ch s) := by
  refine runContext_setArg ?_ ?_
  · simp only [invChecks, ho, State.setArg_cfg, State.ctx_setArg]
    rfl
  · simp only [Carries, invEffect, ho, hx, State.ctx_setArg, State.setArg_flags, memRead_setArg,
      memWrite_setArg]
    refine mapState_bind_read fun pend => mapState_bind_read fun carry => mapState_bind_read fun mants =>
      mapState_bind_read fun scales => mapState_bind_read fun lt => mapState_bind_read fun rt =>
      mapState_bind_write fun t => ?_
    rw [memWrite_setArg]
    refine mapState_bind_write fun t => ?_
    rw [memWrite_setArg]
    exact mapState_bind_write fun t => rfl

theorem uarg_setArg_ne (h : j ≠ k) : (s.setArg k v).uarg j = s.uarg j := by
  rw [State.uarg, State.arg_setArg_ne s v h, State.uarg]

theorem sarg_setArg_ne (h : j ≠ k) : (s.setArg k v).sarg j = s.sarg j := by
  rw [State.sarg, State.arg_setArg_ne s v h, State.sarg]

theorem invOperands_setLeftWindow : invOperands (s.setArg 5 v) = invOperands s := by
  simp (disch := decide) only [invOperands, uarg_setArg_ne, sarg_setArg_ne]

theorem invContext_setLeftWindow (x : Ctx) : invContext (s.setArg 5 v) x = invContext s x := by
  simp (disch := decide) only [invContext, invOperands_setLeftWindow, State.arg_setArg_ne]

/-- Settles O31: A5 is no operand of `INV`. -/
theorem inverseIgnoresLeftWindowOperand : Obligations.InverseIgnoresLeftWindowOperand := by
  intro ch s t v h
  have hcarried : execInv ch (s.setArg 5 v) = mapNext (fun t => t.setArg 5 v) (execInv ch s) :=
    execInv_setArg_of_operands invOperands_setLeftWindow (invContext_setLeftWindow _)
  rw [show execInv ch s = .next t from h] at hcarried
  exact hcarried

end Sys2Proof.Machine
end

section
/-! # What the commands of the inverse direction deliver in a row: O34, O35, O36

A command that ends with `OK` has run its own rule, so its state is the one of `invState_dm`, `invState_ov`,
`drainState_dm`, `drainState_ov` or `peekState_dm`. -/

namespace Sys2Proof.Machine

variable {ch : Chan} {s t : State} {k : Nat} {v : Word}

/-! ## Commands that end with `OK` -/

/-- A refusal and the entry into the fatal state have codes of their own. -/
theorem effectOf_of_ok {i : Instr} (h : exec i s = .next t) (hc : t.status.code = .ok) :
    ∃ u, EffectOf i s u .ok ∧ t = finish (opcode i) (chanBits i) .ok u := by
  rcases exec_cases h with ⟨c, hrefusal, -, rfl⟩ | ⟨-, -, rfl, -⟩ | ⟨-, u, c, hu, -, -, -, rfl⟩
  · obtain rfl : c = .ok := hc
    exact absurd hrefusal (by decide)
  · cases hc
  · obtain rfl : c = .ok := hc
    exact ⟨u, hu, rfl⟩

theorem inv_of_ok (h : exec (.inv ch) s = .next t) (hc : t.status.code = .ok) :
    ContextReady ch s ∧ InvOk ch s ∧ t = finish 0x1A#8 (BitVec.ofFin ch) .ok (invState ch s) := by
  obtain ⟨u, ⟨-, rfl, hr, hok⟩, rfl⟩ := effectOf_of_ok h hc
  exact ⟨hr, hok, rfl⟩

theorem drain_of_ok (h : exec (.drain ch) s = .next t) (hc : t.status.code = .ok) :
    ContextReady ch s ∧ DrainOk ch s ∧ t = finish 0x1B#8 (BitVec.ofFin ch) .ok (drainState ch s) := by
  obtain ⟨u, ⟨-, rfl, hr, hok⟩, rfl⟩ := effectOf_of_ok h hc
  exact ⟨hr, hok, rfl⟩

theorem peek_of_ok (h : exec (.peek ch) s = .next t) (hc : t.status.code = .ok) :
    ContextReady ch s ∧ PeekOk ch s ∧ t = finish 0x1C#8 (BitVec.ofFin ch) .ok (peekState ch s) := by
  obtain ⟨u, ⟨-, rfl, hr, hok⟩, rfl⟩ := effectOf_of_ok h hc
  exact ⟨hr, hok, rfl⟩

/-! ## Counts -/

theorem toNat_w32n {n : Nat} (h : n < 2 ^ 32) : (w32n n).toNat = n :=
  (BitVec.toNat_ofNat n 32).trans (Nat.mod_eq_of_lt h)

/-- `ndel` is the count that `INV` answers, and the rest of the samples stays pending. -/
theorem invState_counts (h : InvOk ch s) :
    (invState ch s).ret.toNat = invDelivered (invOperands s) (s.ctx ch) ∧
      ((invState ch s).ctx ch).fill.toNat =
        invTotal (invOperands s) (s.ctx ch) - invDelivered (invOperands s) (s.ctx ch) := by
  obtain ⟨-, -, -, -, ⟨-, -, hnout⟩, -, -, -, hroom⟩ := h
  have hsize := (s.ctx ch).ovSize.isLt
  have hdel : invDelivered (invOperands s) (s.ctx ch) ≤ (invOperands s).nout := min_le_left _ _
  have hlt : (invOperands s).nout < 2 ^ 31 := hnout
  rw [invState_ctx, if_pos rfl]
  exact ⟨toNat_w32n (by omega), toNat_w32n (by omega)⟩

theorem drainState_counts (ch : Chan) (s : State) :
    (drainState ch s).ret.toNat = drainCount ch s ∧
      ((drainState ch s).ctx ch).fill.toNat = (s.ctx ch).fill.toNat - drainCount ch s := by
  have hfill := (s.ctx ch).fill.isLt
  have hcount := drainCount_le_fill ch s
  rw [drainState_ctx, if_pos rfl]
  exact ⟨toNat_w32n (by omega), toNat_w32n (by omega)⟩

theorem peekState_ret (h : PeekOk ch s) : (peekState ch s).ret.toNat = peekCount ch s := by
  obtain ⟨-, hcount, -⟩ := h
  have hlt : (copyOperands s).count < 2 ^ 31 := hcount
  have hle : peekCount ch s ≤ (copyOperands s).count := min_le_left _ _
  exact toNat_w32n (by omega)

/-- The samples of the call (R109 check 8), with the half block that stays as carry. -/
theorem invTotal_add_half (h : InvOk ch s) :
    invTotal (invOperands s) (s.ctx ch) + (invOperands s).tl / 2 =
      (s.ctx ch).fill.toNat + (s.ctx ch).prevTl.toNat / 2 + (invOperands s).nspec * (invOperands s).tl := by
  obtain ⟨-, ⟨heven, -⟩, -, -, ⟨hpos, -⟩, -⟩ := h
  obtain ⟨n, hn⟩ : ∃ n, (invOperands s).nspec = n + 1 := ⟨_, (Nat.succ_pred_eq_of_pos hpos).symm⟩
  rw [invTotal, hn, Nat.add_sub_cancel, Nat.succ_mul]
  omega

/-- Settles O34: what is delivered and what stays pending are the two parts of `total`, or of the pending
samples. -/
theorem samplesAreConserved : Obligations.SamplesAreConserved := by
  intro ch s t _
  refine ⟨fun h hc => ?inv, fun h hc => ?drain⟩
  case inv =>
    obtain ⟨-, hok, rfl⟩ := inv_of_ok h hc
    obtain ⟨hret, hfill⟩ := invState_counts hok
    have htotal := invTotal_add_half hok
    have hle : invDelivered (invOperands s) (s.ctx ch) ≤ invTotal (invOperands s) (s.ctx ch) := min_le_right _ _
    rw [State.ctx_finish, hfill, finish_ok_ret, hret, Nat.add_sub_cancel' hle]
    exact htotal
  case drain =>
    obtain ⟨-, -, rfl⟩ := drain_of_ok h hc
    obtain ⟨hret, hfill⟩ := drainState_counts ch s
    rw [State.ctx_finish, hfill, finish_ok_ret, hret, Nat.add_sub_cancel' (drainCount_le_fill ch s)]

/-! ## What `PEEK` shows -/

theorem State.ctx_withArgs (t : State) (args : Vector Word 16) (c : Chan) :
    ({ t with args := args } : State).ctx c = t.ctx c := rfl

theorem State.byteAt_withArgs (t : State) (args : Vector Word 16) (sp : Space) (b : Nat) :
    ({ t with args := args } : State).byteAt sp b = t.byteAt sp b := by
  cases sp <;> rfl

/-- `shownWord` reads one context and OVMEM only. -/
theorem shownWord_congr (hctx : t.ctx ch = s.ctx ch) (hov : SameBytes .ov s t) (k : Nat) :
    shownWord ch t k = shownWord ch s k := by
  simp only [shownWord, flatTailRaw, hctx, hov.word]

/-- The first `prevNr` samples of the first block depend on no operand of `INV`: they are its carry turned
around (R114 item (a)). -/
theorem invQ_eq_shownWord (hi : s.CtxInv ch (s.ctx ch)) (hdir : (s.ctx ch).dir = .inv)
    (hk : k < (s.ctx ch).fill.toNat + (s.ctx ch).prevNr.toNat) : w32 (invQ s ch k) = shownWord ch s k := by
  obtain ⟨hnr, hptl⟩ := prevNr_le_ovSize hi hdir
  unfold invQ shownWord
  dsimp only
  split_ifs with hfill
  · exact BitVec.ofInt_toInt
  · have hplace : invPlace s ch (k - (s.ctx ch).fill.toNat) = (0, k - (s.ctx ch).fill.toNat) :=
      if_pos (by simp only [invCount, invPrev, if_true]; omega)
    have hraw : invSampleRaw s ch 0 (k - (s.ctx ch).fill.toNat) =
        flatTailRaw ch s (k - (s.ctx ch).fill.toNat) := by
      simp only [invSampleRaw, invPrev, invCarry, if_true, flatTailRaw]
      rw [if_pos (by omega)]
      congr 4
      omega
    rw [hplace, hraw]

theorem drainState_shows (hk : k < drainCount ch s) :
    (drainState ch s).wordAt .dm ((copyOperands s).out + k) = shownWord ch s k := by
  obtain ⟨hdm, -⟩ := drainState_dm ch s
  rw [hdm k hk, shownWord_pending (lt_of_lt_of_le hk (drainCount_le_fill ch s))]

theorem invState_shows (hi : s.CtxInv ch (s.ctx ch)) (h : InvOk ch s)
    (hk : k < invDelivered (invOperands s) (s.ctx ch))
    (hshown : k < (s.ctx ch).fill.toNat + (s.ctx ch).prevNr.toNat) :
    (invState ch s).wordAt .dm ((invOperands s).out + k) = shownWord ch s k := by
  have g := h.geometry hi
  obtain ⟨hdm, -⟩ := invState_dm g
  rw [hdm k hk, invQ_eq_shownWord hi h.1 hshown]

/-- Settles O35: all three commands deliver `shownWord`, which neither `PEEK` nor a write of the arguments
changes. -/
theorem peekShowsWhatIsDelivered : Obligations.PeekShowsWhatIsDelivered := by
  intro ch s t u r args _ hpeek hpeekOk hu
  obtain ⟨⟨-, -, hi⟩, hpok, ht⟩ := peek_of_ok hpeek hpeekOk
  obtain ⟨hdm, -⟩ := peekState_dm hi hpok.1
  have hctx : u.ctx ch = s.ctx ch := by
    rw [hu, State.ctx_withArgs, ht, State.ctx_finish, peekState_ctx]
  have hov : SameBytes .ov s u := fun b => by
    rw [hu, State.byteAt_withArgs, ht, State.byteAt_finish, peekState_sameBytes (by decide) b]
  have hshown (k : Nat) (hk : k < t.ret.toNat) :
      k < peekCount ch s ∧ t.wordAt .dm (s.uarg 0 + k) = shownWord ch u k := by
    rw [ht, finish_ok_ret, peekState_ret hpok] at hk
    rw [ht, State.wordAt_finish, shownWord_congr hctx hov]
    exact ⟨hk, hdm k hk⟩
  refine ⟨fun h hc k _ hkt hkr => ?drain, fun h hc k hkt hkr => ?inv⟩
  case drain =>
    obtain ⟨-, -, rfl⟩ := drain_of_ok h hc
    obtain ⟨hret, -⟩ := drainState_counts ch u
    obtain ⟨-, hword⟩ := hshown k hkt
    rw [finish_ok_ret, hret] at hkr
    rw [hword, State.wordAt_finish]
    exact drainState_shows hkr
  case inv =>
    obtain ⟨⟨-, -, hiu⟩, hok, rfl⟩ := inv_of_ok h hc
    obtain ⟨hret, -⟩ := invState_counts hok
    obtain ⟨hcount, hword⟩ := hshown k hkt
    rw [finish_ok_ret, hret] at hkr
    rw [hword, State.wordAt_finish]
    exact invState_shows hiu hok hkr (by rw [hctx]; exact lt_of_lt_of_le hcount (peekCount_le ch s))

/-! ## Delivery in two parts -/

theorem invOperands_setNout : invOperands (s.setArg 3 v) = { invOperands s with nout := v.toNat } := by
  have hnout : (s.setArg 3 v).uarg 3 = v.toNat := by rw [State.uarg, State.arg_setArg_self]
  simp (disch := decide) only [invOperands, uarg_setArg_ne, sarg_setArg_ne, hnout]

theorem invTc_setNout : invTc (s.setArg 3 v) = invTc s := by
  funext w k
  have hX : invX (s.setArg 3 v) w = invX s w := funext fun n => by
    simp only [invX, invOperands_setNout, State.wordAt_setArg]
  simp only [invTc, invTcRaw, invShift, hX, invOperands_setNout, State.wordAt_setArg]

/-- The samples do not depend on how many of them are delivered. -/
theorem invQ_setNout (k : Nat) : invQ (s.setArg 3 v) ch k = invQ s ch k := by
  simp only [invQ, invPlace, invSampleRaw, invCount, invPrev, invCarry, invTable, invTc_setNout,
    invOperands_setNout, State.ctx_setArg, State.wordAt_setArg]

/-- `INV` with `nout = n` and at least `n` samples there: the first `n` of them are at `OUT`, the others
pending. -/
theorem invState_setNout {n : Nat} (h : InvOk ch (s.setArg 3 (w32n n)))
    (hi : (s.setArg 3 (w32n n)).CtxInv ch ((s.setArg 3 (w32n n)).ctx ch))
    (hn : n ≤ invTotal (invOperands s) (s.ctx ch)) (hlt : n < 2 ^ 32) :
    (∀ k < n, (invState ch (s.setArg 3 (w32n n))).wordAt .dm (s.uarg 11 + k) = w32 (invQ s ch k)) ∧
    (∀ k < invTotal (invOperands s) (s.ctx ch) - n,
      (invState ch (s.setArg 3 (w32n n))).wordAt .ov ((s.ctx ch).ovBase.toNat + k) =
        w32 (invQ s ch (n + k))) ∧
    ((invState ch (s.setArg 3 (w32n n))).ctx ch).fill.toNat = invTotal (invOperands s) (s.ctx ch) - n ∧
    s.uarg 11 + n ≤ s.cfg.dmWords := by
  have g := h.geometry hi
  obtain ⟨hdm, -⟩ := invState_dm g
  obtain ⟨hov, -⟩ := invState_ov g h
  obtain ⟨-, hfill⟩ := invState_counts h
  have hdel : invDelivered (invOperands (s.setArg 3 (w32n n))) (s.ctx ch) = n := by
    rw [invOperands_setNout, toNat_w32n hlt]
    exact min_eq_left hn
  have htotal : invTotal (invOperands (s.setArg 3 (w32n n))) (s.ctx ch) =
      invTotal (invOperands s) (s.ctx ch) := by
    rw [invOperands_setNout]
    rfl
  have hout : (invOperands (s.setArg 3 (w32n n))).out = s.uarg 11 := by
    rw [invOperands_setNout]
    rfl
  obtain ⟨-, -, -, -, -, -, -, hroom, -⟩ := h
  simp only [State.ctx_setArg, State.setArg_cfg, hdel, htotal, hout, invQ_setNout] at hdm hov hfill hroom
  exact ⟨hdm, hov, hfill, hroom⟩

theorem copyOperands_setArgs (t : State) (a b : Word) :
    copyOperands ((t.setArg 0 a).setArg 1 b) = ⟨a.toNat, b.toNat⟩ := by
  rw [copyOperands, State.uarg, State.uarg, State.arg_setArg_self, State.arg_setArg_ne _ _ (by decide),
    State.arg_setArg_self]

/-- `DRAIN` of all that is pending to `out`. -/
theorem drainState_all {out : Nat} (hout : out < 2 ^ 32) :
    (∀ k < (t.ctx ch).fill.toNat,
      (drainState ch ((t.setArg 0 (w32n out)).setArg 1 (t.ctx ch).fill)).wordAt .dm (out + k) =
        t.wordAt .ov ((t.ctx ch).ovBase.toNat + k)) ∧
    ∀ a < out, (drainState ch ((t.setArg 0 (w32n out)).setArg 1 (t.ctx ch).fill)).wordAt .dm a =
      t.wordAt .dm a := by
  have hcount : drainCount ch ((t.setArg 0 (w32n out)).setArg 1 (t.ctx ch).fill) = (t.ctx ch).fill.toNat := by
    rw [drainCount, copyOperands_setArgs]
    exact min_self _
  obtain ⟨hin, hkeep⟩ := drainState_dm ch ((t.setArg 0 (w32n out)).setArg 1 (t.ctx ch).fill)
  simp only [hcount, copyOperands_setArgs, toNat_w32n hout, State.ctx_setArg, State.wordAt_setArg] at hin hkeep
  refine ⟨hin, fun a ha => ?_⟩
  rw [hkeep.word (.inl ha), State.wordAt_setArg, State.wordAt_setArg]

/-- Settles O36: the first part stays in DMEM where `INV` put it, and behind it `DRAIN` puts the pending
part. -/
theorem splittingDeliveryKeepsSamples : Obligations.SplittingDeliveryKeepsSamples := by
  intro ch s t r all n hv hr hn hlt hinv hinvOk hdrain hdrainOk hall hallOk k hk
  obtain ⟨⟨-, -, hi⟩, hok, rfl⟩ := inv_of_ok hinv hinvOk
  obtain ⟨⟨-, -, hiAll⟩, hokAll, rfl⟩ := inv_of_ok hall hallOk
  obtain ⟨-, -, rfl⟩ := drain_of_ok hdrain hdrainOk
  obtain ⟨hdm, hov, hfill, hroom⟩ := invState_setNout hok hi hn (by omega)
  obtain ⟨hdmAll, -⟩ := invState_setNout hokAll hiAll le_rfl (by omega)
  have hout : s.uarg 11 + n < 2 ^ 32 := by
    have hsize := words_le_of_valid hv .dm
    change s.cfg.dmWords ≤ _ at hsize
    omega
  rw [State.wordAt_finish, State.wordAt_finish, hdmAll k hk, ← hfill, w32n_toNat]
  obtain ⟨hrest, hfirst⟩ := drainState_all (ch := ch)
    (t := finish 0x1A#8 (BitVec.ofFin ch) .ok (invState ch (s.setArg 3 (w32n n)))) hout
  simp only [State.ctx_finish, State.wordAt_finish] at hrest hfirst
  rcases lt_or_ge k n with hkn | hkn
  · rw [hfirst _ (by omega), hdm k hkn]
  · obtain ⟨j, rfl⟩ := Nat.exists_eq_add_of_le hkn
    rw [← Nat.add_assoc]
    have hj : j < invTotal (invOperands s) (s.ctx ch) - n := by omega
    have hbase : ((invState ch (s.setArg 3 (w32n n))).ctx ch).ovBase = (s.ctx ch).ovBase := by
      rw [invState_ctx, if_pos rfl]
      rfl
    rw [hrest j (by rwa [hfill]), hbase, hov j hj]

end Sys2Proof.Machine
end

section
/-! # The bit reservoir: O37, O38, O39, O40 -/

namespace Sys2Proof.Machine

variable {m : Bool} {s : State} {r : RateCtl} {f : Flags} {v w lo hi : Int} {level : Word} {how : Nat} {c : Code}

/-! ## The allowance of R126 -/

/-- Between ordered bounds, `clamp` (R7) is a maximum of a minimum. -/
theorem clamp_eq_max_min (h : lo ≤ hi) : clamp v lo hi = max lo (min v hi) := by
  rcases lt_or_ge v lo with hlo | hlo
  · rw [clamp_of_lt hlo, min_eq_left (hlo.le.trans h), max_eq_left hlo.le]
  · rcases lt_or_ge hi v with hhi | hhi
    · rw [clamp_of_gt hlo hhi, min_eq_right hhi.le, max_eq_right h]
    · rw [clamp_of_mem hlo hhi, min_eq_left hhi, max_eq_right hlo]

theorem le_clamp (h : lo ≤ hi) : lo ≤ clamp v lo hi := by
  rw [clamp_eq_max_min h]
  exact le_max_left _ _

theorem clamp_le (h : lo ≤ hi) : clamp v lo hi ≤ hi := by
  rw [clamp_eq_max_min h]
  exact max_le h (min_le_right _ _)

theorem clamp_le_clamp (h : lo ≤ hi) (hvw : v ≤ w) : clamp v lo hi ≤ clamp w lo hi := by
  rw [clamp_eq_max_min h, clamp_eq_max_min h]
  exact max_le_max le_rfl (min_le_min hvw le_rfl)

/-- `RcInv` (R25) makes the clamp of R126 well formed. -/
theorem RateCtl.Ok.min_le_max (h : r.Ok) (hv : r.valid = true) : (r.min.toNat : Int) ≤ r.max.toNat := by
  obtain ⟨-, ⟨hmin, hmax⟩, -⟩ := h hv
  exact Int.ofNat_le.2 (hmin.trans hmax)

/-- The allowance grows with the budget and with the level, in one statement. -/
theorem allowedBits_mono {b b' : Nat} {l' : Word} (h : (r.min.toNat : Int) ≤ r.max.toNat) (hb : b ≤ b')
    (hl : r.level.toNat ≤ l'.toNat) : allowedBits r b ≤ allowedBits { r with level := l' } b' := by
  have hsum : b + min r.level.toNat r.borrow.toNat ≤ b' + min l'.toNat r.borrow.toNat :=
    Nat.add_le_add hb (min_le_min hl le_rfl)
  exact clamp_le_clamp h (Int.ofNat_le.2 hsum)

/-- Settles O39: the allowance is a clamp between bounds that `RcInv` orders. -/
theorem allowanceIsBoundedAndMonotone : Obligations.AllowanceIsBoundedAndMonotone := by
  intro r b b' l' hv hok hb hl
  have horder := hok.min_le_max hv
  exact ⟨le_clamp horder, clamp_le horder, allowedBits_mono (l' := r.level) horder hb le_rfl,
    allowedBits_mono horder le_rfl hl⟩

/-! ## `RCUPD` -/

theorem rcupdOutcome_of_neg (h : v < 0) : rcupdOutcome v r f = (0#32, f.raiseUf, 1, .wResUf) := if_pos h

theorem rcupdOutcome_of_size_lt (h0 : ¬ v < 0) (h : (r.size.toNat : Int) < v) :
    rcupdOutcome v r f = (r.size, f.raiseOf, 2, .wResOf) := (if_neg h0).trans (if_pos h)

theorem rcupdOutcome_of_mem (h0 : ¬ v < 0) (h : ¬ (r.size.toNat : Int) < v) :
    rcupdOutcome v r f = (w32 v, f, 0, .ok) := (if_neg h0).trans (if_neg h)

/-- The events of R139 are no refusals: `RET` keeps what the rule wrote. -/
theorem rcupdOutcome_keeps_ret (v : Int) (r : RateCtl) (f : Flags) :
    (rcupdOutcome v r f).2.2.2.zeroesRet = false := by
  rw [rcupdOutcome_code]
  split_ifs <;> rfl

theorem rcupdState_arg_two (m : Bool) (s : State) :
    (rcupdState m s).arg 2 = w32n (rcupdOutcome (rcupdLevel m s) s.rc s.flags).2.2.1 := by
  rw [rcupdState, State.arg_setRet, State.arg_setArg_self]

theorem rcupdState_sameArgs (m : Bool) (s : State) : SameArgsBut [2] s (rcupdState m s) := fun j hj => by
  have hj2 : j ≠ 2 := by simpa using hj
  rw [rcupdState, State.arg_setRet, State.arg_setArg_ne _ _ hj2, State.arg_setFlags, State.arg_setRc]

theorem rcupdState_sameMemories (m : Bool) (s : State) : SameMemories s (rcupdState m s) := fun sp b => by
  rw [rcupdState, State.byteAt_setRet, State.byteAt_setArg, State.byteAt_setFlags, State.byteAt_setRc]

/-- The code, level, indicator and flags that `RCUPD` leaves are the outcome of R127. -/
theorem rcupdState_of_outcome (h : rcupdOutcome (rcupdLevel m s) s.rc s.flags = (level, f, how, c)) :
    (rcupdOutcome (rcupdLevel m s) s.rc s.flags).2.2.2 = c ∧
      (rcupdOutcome (rcupdLevel m s) s.rc s.flags).1 = level ∧
      (rcupdState m s).arg 2 = w32n how ∧ (rcupdState m s).flags = f := by
  rw [rcupdState_arg_two, rcupdState, h]
  exact ⟨rfl, rfl, rfl, rfl⟩

/-- Settles O40: the three cases of R127 are those of `rcupdOutcome`, and `rcupdState` writes what it says. -/
theorem rcupdResult : Obligations.RcupdResult := by
  intro m s hf hv hb ha
  have hret := rcupdOutcome_keeps_ret (rcupdLevel m s) s.rc s.flags
  refine ⟨_, _, _, execRcupd_eq hf hv hb ha, EffectOf.completes (i := .rcupd m) ⟨rfl, rfl, hv⟩, ?ret, rfl,
    rcupdState_sameArgs m s, fun _ => rfl, fun sp b => ?memory, fun h => ?underflow, fun h0 h => ?overflow,
    fun h0 h => ?within⟩
  case ret => rw [finish_ret, hret]; rfl
  case memory => rw [State.byteAt_finish, rcupdState_sameMemories m s sp b]
  case underflow => exact rcupdState_of_outcome (rcupdOutcome_of_neg h)
  case overflow => exact rcupdState_of_outcome (rcupdOutcome_of_size_lt h0 h)
  case within => exact rcupdState_of_outcome (rcupdOutcome_of_mem h0 h)

/-! ## `RCINIT` and `RCALLOW` -/

theorem rcinitState_sameMemories (s : State) : SameMemories s (rcinitState s) := fun sp b => by
  rw [rcinitState, State.byteAt_setRet, State.byteAt_setRc]

/-- Settles O37: `rcinitState` writes the record of R125 and `RET`, nothing else. -/
theorem rcinitResult : Obligations.RcinitResult := by
  intro s hf h
  refine ⟨_, execRcinit_eq hf h, EffectOf.completes (i := .rcinit) ⟨rfl, rfl, h⟩, rfl, rfl, rfl, rfl,
    fun _ => rfl, fun sp b => ?memory⟩
  case memory => rw [State.byteAt_finish, rcinitState_sameMemories s sp b]

/-- Settles O38: the query writes `RET` only. -/
theorem rcallowResult : Obligations.RcallowResult := by
  intro m s hf hv hb
  refine ⟨_, execRcallow_eq hf hv hb, EffectOf.completes (i := .rcallow m) ⟨rfl, rfl⟩, rfl, rfl, rfl, rfl,
    fun _ => rfl, fun sp b => ?memory⟩
  case memory => rw [State.byteAt_finish, State.byteAt_setRet]

end Sys2Proof.Machine
end

section
/-! # Refusals, the codes of the commands and the fatal state: O8, O15, O17, O18, O56

`exec_cases` and `complete_cases` say what a command can do; what is added here is what the fatal state does to
every command, and the one place of a step where `STATUS.FATAL` rises and the two where it falls
(spec/60_exceptions.md R137, R140, R146, R147). -/

namespace Sys2Proof.Machine

variable {i : Instr} {s t : State}

/-! ## Codes -/

/-- Settles O15: each of the three ways to complete carries its code's row of the table. -/
theorem codesOfEachCommand : Obligations.CodesOfEachCommand := by
  intro i s t h
  rcases exec_cases h with ⟨c, -, hc, rfl⟩ | ⟨-, hc, rfl, -⟩ | ⟨-, u, c, -, hc, -, -, rfl⟩
  · exact hc
  · exact hc
  · exact hc

/-! ## The whole state after a refusal -/

/-- A complete step that ends with a refusal is `refuse` with that code. -/
theorem complete_eq_refuse (h : complete s = .next t) (hc : t.status.code.isRefusal = true) :
    t = refuse (opcField s.latch) (chField s.latch) t.status.code s := by
  rcases complete_cases h with ⟨c, -, rfl⟩ | ⟨-, rfl, -⟩ | ⟨-, i, u, c, -, -, hn, -, rfl⟩
  · rfl
  · cases hc
  · exact absurd hc (Bool.eq_false_iff.1 hn)

/-- Settles O8: only `refuse` ends with a refusal code, and it changes what R137 lists; `issue` counts. -/
theorem refusalChangesNothingElse : Obligations.RefusalChangesNothingElse :=
  ⟨fun s _ h hc => (complete_eq_refuse h hc).trans (refuse_of_isRefusal hc _ _ s), fun _ _ => rfl⟩

/-! ## Commands in the fatal state -/

/-- A command without a channel runs through `runGlobal`. -/
theorem exec_of_no_chan (h : i.chan? = none) (s : State) :
    ∃ checks effect, exec i s = runGlobal (opcode i) checks effect s := by
  cases i <;> cases h
  case nop | gain | rcinit | rcallow | rcupd => exact ⟨_, _, rfl⟩

/-- R56 step 1: the fatal state refuses before anything of the command is looked at. -/
theorem exec_fatal (i : Instr) (hf : s.status.fatal = true) :
    exec i s = .next (refuse (opcode i) (chanBits i) .eFatal s) := by
  cases hch : i.chan? with
  | none =>
    obtain ⟨checks, effect, he⟩ := exec_of_no_chan hch s
    rw [he, runGlobal_fatal hf, chanBits, hch]
  | some ch => rw [exec_chan_fatal hch hf, chanBits, hch]

theorem complete_fatal (hf : s.status.fatal = true) :
    complete s = .next (refuse (opcField s.latch) (chField s.latch) .eFatal s) := by
  cases hd : decode s.latch with
  | ok i =>
    obtain ⟨hop, hch⟩ := decode_fields hd
    rw [complete_of_decode hd, exec_fatal i hf, hop, hch]
  | error e => rw [complete_of_decode_error hd, completeIllegal, if_pos hf]

/-! ## Entering the fatal state -/

/-- The whole state after `E_INTERNAL` (R146). -/
theorem enterFatal_eq (op : BitVec 8) (cb : BitVec 4) (s : State) :
    enterFatal op cb s = { s with
      status := { code := .eInternal, lastOp := op, lastCh := cb, fatal := true, busy := false }
      ret := 0#32
      irqStat := { done := s.irqStat.done, err := true } } := by
  have hirq : s.irqStat.raise .eInternal = { done := s.irqStat.done, err := true } := by
    simp [IrqBits.raise, show Code.eInternal.setsDone = false from rfl,
      show Code.eInternal.setsErr = true from rfl]
  rw [enterFatal, finish, ← hirq]
  rfl

/-- A complete step that ends with `E_INTERNAL` is `enterFatal`. -/
theorem complete_eq_enterFatal (h : complete s = .next t) (hc : t.status.code = .eInternal) :
    t = enterFatal (opcField s.latch) (chField s.latch) s := by
  rcases complete_cases h with ⟨c, hr, rfl⟩ | ⟨-, rfl, -⟩ | ⟨-, i, u, c, -, -, -, hn, rfl⟩
  · rw [show c = .eInternal from hc] at hr
    cases hr
  · rfl
  · exact absurd hc hn

/-- Settles O17: in the fatal state every word is refused with `E_FATAL`, and `E_INTERNAL` is `enterFatal`. -/
theorem fatalStateRefusesCommands : Obligations.FatalStateRefusesCommands := by
  refine ⟨fun s hf => ?_, fun s t h hc => (complete_eq_enterFatal h hc).trans (enterFatal_eq _ _ s)⟩
  rw [complete_fatal hf, refuse_of_isRefusal rfl, hf]
  rfl

/-! ## Where `STATUS.FATAL` changes -/

/-- The fatal state is entered at a broken context (R56 step 5), with `E_INTERNAL`. -/
def EntersFatal (s t : State) : Prop :=
  s.Broken ∧ t.status.fatal = true ∧ t.status.code = .eInternal

/-- A complete step leaves `FATAL` alone or enters the fatal state. -/
theorem complete_fatal_cases (h : complete s = .next t) :
    t.status.fatal = s.status.fatal ∨ EntersFatal s t := by
  rcases complete_cases h with ⟨c, -, rfl⟩ | ⟨-, rfl, hb⟩ | ⟨-, i, u, c, -, hu, -, -, rfl⟩
  · exact .inl rfl
  · exact .inr ⟨hb, rfl, rfl⟩
  · obtain ⟨hstatus, -, -⟩ := hu.status
    exact .inl (by rw [finish_status, hstatus])

theorem engineTurn_fatal_cases (h : engineTurn s = .next t) :
    t.status.fatal = s.status.fatal ∨ EntersFatal s t := by
  cases hb : s.status.busy
  · rw [engineTurn_idle hb] at h
    cases h
    exact .inl rfl
  · rw [engineTurn_busy hb] at h
    exact complete_fatal_cases h

/-- Of the writes of the host, only that of `CTRL` with bit 0 set can change `FATAL`: the soft reset. -/
theorem writeLoc_fatal_cases (s : State) (l : Loc) (v : Word) :
    (writeLoc s l v).status.fatal = s.status.fatal ∨
      (l = .ctrl ∧ v.getLsbD 0 = true ∧ (writeLoc s l v).status.fatal = false) := by
  cases l with
  | ctrl =>
    cases hb : bitOf v 0
    · exact .inl (by simp [writeLoc, hb])
    · exact .inr ⟨rfl, hb, by simp [writeLoc, hb]⟩
  | mem sp a => exact .inl (by rw [writeLoc, State.setWord, State.setMem_status])
  | _ => exact .inl rfl

/-- The access that resets the engine (spec/70_reset_and_hazards.md R161): an idle engine's `CTRL` is written
with bit 0 set. -/
def SoftResets (a : HostAccess) (s : State) : Prop :=
  ∃ v, a = .write 0x3C#32 4 v ∧ v.getLsbD 0 = true ∧ s.status.busy = false

theorem serve_fatal_cases (a : HostAccess) (s : State) :
    (serve a s).status.fatal = s.status.fatal ∨ (SoftResets a s ∧ (serve a s).status.fatal = false) := by
  rcases serve_cases a s with ⟨r, e⟩ | ⟨hb, addr, v, l, rfl, hl, e⟩ <;> rw [e]
  · exact .inl rfl
  · rcases writeLoc_fatal_cases s l v with hsame | ⟨rfl, hv, hreset⟩
    · exact .inl hsame
    · have haddr : addr = 0x3C#32 := BitVec.eq_of_toNat_eq (locate_ctrl hl)
      exact .inr ⟨⟨v, by rw [haddr], hv, hb⟩, hreset⟩

/-- The next turn is one of the two resets (R160, R161). -/
def NextTurnResets (s : State) : Prop :=
  (∃ rest, s.turns = .rst :: rest) ∨ ∃ a rest, s.turns = .host a :: rest ∧ SoftResets a s

/-- Everything a step can do to `FATAL`: nothing, raise it at a broken context, or clear it at a reset. -/
theorem step_fatal_cases (h : step s = .next t) :
    t.status.fatal = s.status.fatal ∨ EntersFatal s t ∨ (NextTurnResets s ∧ t.status.fatal = false) := by
  rcases ht : s.turns with _ | ⟨turn, rest⟩
  · rw [step_no_turn ht] at h
    exact (engineTurn_fatal_cases h).imp_right .inl
  · cases turn with
    | host a =>
      rw [step_host ht] at h
      cases h
      exact (serve_fatal_cases a { s with turns := rest }).imp_right fun ⟨hreset, hf⟩ =>
        .inr ⟨.inr ⟨a, rest, ht, hreset⟩, hf⟩
    | engine =>
      rw [step_engine ht] at h
      exact (engineTurn_fatal_cases h).imp_right .inl
    | rst =>
      rw [step_rst ht] at h
      cases h
      exact .inr (.inr ⟨.inl ⟨rest, ht⟩, rfl⟩)

/-- Settles O18: entering and leaving are the second and the third case of `step_fatal_cases`. -/
theorem fatalStateLeftOnlyByReset : Obligations.FatalStateLeftOnlyByReset := by
  intro s t h
  rcases step_fatal_cases h with hsame | ⟨-, hraised, hcode⟩ | ⟨hreset, hcleared⟩
  · refine ⟨fun h0 h1 => ?_, fun h1 h0 => ?_⟩
    · exact absurd (h1.symm.trans (hsame.trans h0)) (by decide)
    · exact absurd (h1.symm.trans (hsame.symm.trans h0)) (by decide)
  · exact ⟨fun _ _ => hcode, fun _ h0 => absurd (hraised.symm.trans h0) (by decide)⟩
  · refine ⟨fun _ h1 => absurd (h1.symm.trans hcleared) (by decide), fun _ _ => ?_⟩
    rcases hreset with hrst | ⟨a, rest, ht, v, rfl, hv, hb⟩
    · exact .inl hrst
    · exact .inr ⟨v, rest, ht, hv, hb⟩

/-! ## The fatal state is unreachable -/

/-- The invariant is what R56 step 5 re-checks: it leaves no context broken. -/
theorem State.Inv.not_broken (hs : s.Inv) : ¬ s.Broken := by
  obtain ⟨-, ⟨hctx, -, -⟩, -, -⟩ := hs
  exact fun ⟨ch, hn, hv, hi⟩ => hi (hctx ch hn hv)

/-- Settles O56: a step enters the fatal state only at a broken context, and the invariant excludes one. -/
theorem fatalStateIsUnreachable : Obligations.FatalStateIsUnreachable := by
  intro s t hs hf h
  rcases step_fatal_cases h with hsame | ⟨hbroken, -⟩ | ⟨-, hcleared⟩
  · exact hsame.trans hf
  · exact absurd hbroken hs.not_broken
  · exact hcleared

end Sys2Proof.Machine
end

section
/-! # The two resets: O49, O50 -/

namespace Sys2Proof.Machine

variable {s t : State} {v : Word}

/-! ## The registers -/

/-- Every register at its value of spec/70_reset_and_hazards.md R160. -/
def RegistersZero (t : State) : Prop :=
  (∀ i, t.arg i = 0#32) ∧ t.ret = 0#32 ∧ t.status.word = 0#32 ∧ t.flags.word = 0#32 ∧
    t.irqEn.word = 0#32 ∧ t.irqStat.word = 0#32 ∧ t.irq = false ∧ t.cmdCnt = 0#32 ∧
    t.latch = 0#32 ∧ (∀ c, t.ctx c = Ctx.blank) ∧ t.rc = RateCtl.blank

theorem registersZero_resetWith (c : Config) : RegistersZero (State.resetWith c) :=
  ⟨State.resetWith_arg c, rfl, by rw [State.resetWith_status]; decide,
    by rw [State.resetWith_flags]; decide, by rw [State.resetWith_irqEn]; decide,
    by rw [State.resetWith_irqStat]; decide, rfl, rfl, rfl, State.resetWith_ctx c, rfl⟩

/-- The registers after a soft reset are those of `State.resetWith`. -/
theorem registersZero_softReset (s : State) : RegistersZero (softReset s) := registersZero_resetWith s.cfg

/-- The registers after a hard reset are those of `State.resetWith`. -/
theorem registersZero_hardReset (s : State) : RegistersZero (hardReset s) := registersZero_resetWith s.cfg

/-- The port's last answer is no register. -/
theorem RegistersZero.setResp (h : RegistersZero t) (r : Option HostResponse) :
    RegistersZero { t with resp := r } := h

/-! ## Soft reset -/

theorem writeLoc_ctrl_set (s : State) (hv : v.getLsbD 0 = true) : writeLoc s .ctrl v = softReset s :=
  if_pos hv

theorem writeLoc_ctrl_clear (s : State) (hv : v.getLsbD 0 = false) : writeLoc s .ctrl v = s :=
  if_neg (by rw [bitOf, hv]; decide)

theorem serve_write_ctrl (hb : s.status.busy = false) (v : Word) :
    serve (.write 0x3C#32 4 v) s = { writeLoc s .ctrl v with resp := some .okay } :=
  serve_write_low (k := 15) hb (by decide) v

theorem sameMemories_softReset (s : State) (r : Option HostResponse) :
    SameMemories s { softReset s with resp := r } := fun sp b => by
  rw [byteAt_resp, State.byteAt_softReset]

/-- Settles O49: an idle write of `CTRL` is `softReset` or nothing, as bit 0 says; a busy port refuses it. -/
theorem softResetKeepsMemories : Obligations.SoftResetKeepsMemories := by
  intro s v
  refine ⟨fun hb hv => ?_, fun hb hv => ?_, fun hb => ?_⟩
  · have hreg := (registersZero_softReset s).setResp (some .okay)
    have hkept := sameMemories_softReset s (some .okay)
    refine ⟨_, by rw [serve_write_ctrl hb, writeLoc_ctrl_set s hv], rfl, ?_⟩
    simpa only [RegistersZero, and_assoc] using And.intro hreg ⟨hkept, softReset_cfg s, softReset_turns s⟩
  · rw [serve_write_ctrl hb, writeLoc_ctrl_clear s hv]
  · exact serve_busy_error hb (by simp)

/-! ## Hard reset -/

/-- Nothing is known of the memories: every byte is the free value of the epoch (R160). -/
def MemoriesFree (t : State) : Prop := ∀ sp b, t.byteAt sp b = Config.freeByte sp t.epoch b

/-- A memory that lists nothing reads as its free value. -/
theorem memoriesFree_of_mem_nil (h : ∀ sp, t.mem sp = []) : MemoriesFree t := fun sp b => by
  rw [State.byteAt, h sp]
  rfl

theorem memoriesFree_resetWith (c : Config) : MemoriesFree (State.resetWith c) :=
  memoriesFree_of_mem_nil fun sp => by cases sp <;> rfl

theorem memoriesFree_hardReset (s : State) : MemoriesFree (hardReset s) :=
  memoriesFree_of_mem_nil fun sp => by cases sp <;> rfl

/-- Settles O50: a reset turn is `hardReset`, whatever the state; `State.reset` is `State.resetWith`. -/
theorem hardResetClearsRegisters : Obligations.HardResetClearsRegisters := by
  unfold Obligations.HardResetClearsRegisters
  intro cleared
  have hcleared : ∀ t, RegistersZero t → MemoriesFree t → cleared t := fun t hreg hfree => by
    simpa only [cleared, RegistersZero, MemoriesFree, and_assoc] using And.intro hreg hfree
  refine ⟨fun s t rest ht h => ?_, hcleared _ (registersZero_resetWith _) (memoriesFree_resetWith _)⟩
  rw [step_rst ht] at h
  cases h
  exact ⟨hcleared _ (registersZero_hardReset _) (memoriesFree_hardReset _), hardReset_epoch _⟩

end Sys2Proof.Machine
end

section
/-! # The checks and the result of `FWD`: O11, O27 -/

namespace Sys2Proof.Machine

variable {ch : Chan} {s : State} {k : Nat}

/-! ## The checks of R95 -/

/-- R95 check 4 bounds the exponent by the greatest 32-bit value. -/
theorem exponentAboveMax_iff (e : Int) : decide (i32Max < e) = true ↔ (2 : Int) ^ 31 - 1 < e := by
  rw [decide_eq_true_iff]
  norm_num

/-- The chain of R95. -/
theorem getD_firstFailure_fwdChecks (ch : Chan) (s : State) :
    (firstFailure (fwdChecks ch s)).getD .ok =
      if (s.ctx ch).dir = .inv then .eDir
      else if ¬ LegalTl (fwdOperands s).tl (s.ctx ch).tlMax.toNat then .eTl
      else if (fwdOperands s).fr % 2 = 1 ∨ (fwdOperands s).tl < (fwdOperands s).fr ∨
          (fwdOperands s).nr ≠ ((fwdOperands s).tl - (fwdOperands s).fr) / 2 ∨
          (fwdOperands s).tl < (s.ctx ch).prevFr.toNat then .eGeom
      else if (2 : Int) ^ 31 - 1 < (fwdOperands s).eIn + hs (fwdOperands s).tl then .eExp
      else if s.cfg.wmWords < (fwdOperands s).wrs + (fwdOperands s).fr then .eWmem
      else if s.cfg.dmWords < (fwdOperands s).inp + (fwdOperands s).tl ∨
          s.cfg.dmWords < (fwdOperands s).out + (fwdOperands s).tl then .eDmem
      else .ok := by
  rw [fwdChecks, getD_firstFailure_cons decide_eq_true_iff, getD_firstFailure_cons badTl_eq_true,
    getD_firstFailure_cons decide_eq_true_iff, getD_firstFailure_cons (exponentAboveMax_iff _),
    getD_firstFailure_cons decide_eq_true_iff, getD_firstFailure_cons decide_eq_true_iff, firstFailure_nil,
    Option.getD_none]

/-- Settles O11: the code is that of the first failing check, and the chain is that of R95. -/
theorem forwardChecksInOrder : Obligations.ForwardChecksInOrder := by
  intro ch s hr
  obtain ⟨-, -, hi⟩ := id hr
  rw [← getD_firstFailure_fwdChecks]
  exact runContext_code hr fun h => ⟨_, fwdEffect_of_pass hi (fwdChecks_pass.1 h)⟩

/-! ## The state that `FWD` leaves -/

/-- The words of the spectrum (R98). -/
def fwdSpectrumWords (ch : Chan) (s : State) : List Word := (fwdSpectrum ch s).map fun p => w32 p.1

theorem length_fwdSpectrumWords (ch : Chan) (s : State) :
    (fwdSpectrumWords ch s).length = (fwdOperands s).tl := by
  rw [fwdSpectrumWords, List.length_map, length_fwdSpectrum]

theorem fwdSpectrumWords_getElem (g : FwdGeometry ch s) (h : k < (fwdSpectrumWords ch s).length) :
    (fwdSpectrumWords ch s)[k] = w32 (sat32 (rshr (fwdY s ch k) (31 + hs (fwdOperands s).tl))) := by
  have hk : k < (fwdOperands s).tl := by rwa [length_fwdSpectrumWords] at h
  simp only [fwdSpectrumWords, List.getElem_map, fwdSpectrum_getElem g hk, satPair_fst]

theorem fwdMemories_eq (ch : Chan) (s : State) :
    fwdMemories ch s = s.putBoth (fwdOperands s).out (fwdSpectrumWords ch s) (s.ctx ch).ovBase.toNat
      (fwdKept ch s) := rfl

/-- After its two stores `FWD` writes registers only, so the memories are those of `fwdMemories`. -/
theorem fwdState_byteAt (sp : Space) (b : Nat) :
    (fwdState ch s).byteAt sp b = (fwdMemories ch s).byteAt sp b := by
  rw [fwdState, State.byteAt_setRet, State.byteAt_setFlags, State.byteAt_setArg, State.byteAt_setCtx]

theorem fwdState_wordAt (sp : Space) (a : Nat) :
    (fwdState ch s).wordAt sp a = (fwdMemories ch s).wordAt sp a := by
  rw [fwdState, State.wordAt_setRet, State.wordAt_setFlags, State.wordAt_setArg, State.wordAt_setCtx]

/-- The spectrum goes to DMEM (R98). -/
theorem fwdState_dm (g : FwdGeometry ch s) :
    (∀ k < (fwdOperands s).tl, (fwdState ch s).wordAt .dm ((fwdOperands s).out + k) =
      w32 (sat32 (rshr (fwdY s ch k) (31 + hs (fwdOperands s).tl)))) ∧
    SameBytesOutside .dm (fwdOperands s).out (fwdOperands s).tl s (fwdState ch s) := by
  obtain ⟨⟨hin, hout⟩, -⟩ := s.putBoth_spec (fwdOperands s).out (fwdSpectrumWords ch s)
    (s.ctx ch).ovBase.toNat (fwdKept ch s)
  rw [length_fwdSpectrumWords] at hout
  refine ⟨fun k hk => ?_, fun b hb => ?_⟩
  · rw [fwdState_wordAt, fwdMemories_eq, hin k (by rwa [length_fwdSpectrumWords]), fwdSpectrumWords_getElem g]
  · rw [fwdState_byteAt, fwdMemories_eq, hout b hb]

/-- The samples for the next block stay in the region (R99). -/
theorem fwdState_ov (hi : s.CtxInv ch (s.ctx ch)) (h : FwdOk ch s) :
    (∀ k < (fwdOperands s).fr / 2 + (s.ctx ch).tlMax.toNat / 2,
      (fwdState ch s).wordAt .ov ((s.ctx ch).ovBase.toNat + k) =
        w32 (fwdLine s ch
          ((fwdOperands s).tl + (s.ctx ch).prevFr.toNat / 2 - (fwdOperands s).fr / 2 + k))) ∧
    SameBytesOutside .ov (s.ctx ch).ovBase.toNat ((fwdOperands s).fr / 2 + (s.ctx ch).tlMax.toNat / 2) s
      (fwdState ch s) := by
  have g := h.geometry hi
  have hlen := length_fwdKept hi h.1 g.fr_le
  obtain ⟨-, hin, hout⟩ := s.putBoth_spec (fwdOperands s).out (fwdSpectrumWords ch s)
    (s.ctx ch).ovBase.toNat (fwdKept ch s)
  rw [hlen] at hout
  refine ⟨fun k hk => ?_, fun b hb => ?_⟩
  · have hk' : k < (fwdKept ch s).length := by rwa [hlen]
    rw [fwdState_wordAt, fwdMemories_eq, hin k hk', ← getD_eq_of_lt (d := 0#32) hk', fwdKept_getD g hk]
  · rw [fwdState_byteAt, fwdMemories_eq, hout b hb]

/-- `FWD` writes the exponent of the spectrum to A1 (R95) and no other argument register. -/
theorem fwdState_args (ch : Chan) (s : State) :
    (fwdState ch s).arg 1 = w32 ((fwdOperands s).eIn + hs (fwdOperands s).tl) ∧
      SameArgsBut [1] s (fwdState ch s) := by
  refine ⟨?_, fun j hj => ?_⟩
  · rw [fwdState, State.arg_setRet, State.arg_setFlags, State.arg_setArg_self]
  · have hj1 : j ≠ 1 := by simpa using hj
    rw [fwdState, State.arg_setRet, State.arg_setFlags, State.arg_setArg_ne _ _ hj1, State.arg_setCtx,
      fwdMemories_eq, State.arg, State.arg, State.putBoth_args]

/-- Settles O27: the spectrum and the kept samples by the formulas of R96 to R99 (`fwdState_dm`,
`fwdState_ov`), and the frame. -/
theorem forwardBlockResult : Obligations.ForwardBlockResult := by
  intro ch s hr h
  obtain ⟨-, -, hi⟩ := id hr
  have heffect : EffectOf (.fwd ch) s (fwdState ch s) .ok := ⟨rfl, rfl, hr, h⟩
  obtain ⟨hexponent, hargs⟩ := fwdState_args ch s
  obtain ⟨hdm, hdmOut⟩ := fwdState_dm (h.geometry hi)
  obtain ⟨hov, hovOut⟩ := fwdState_ov hi h
  have hword (sp : Space) (a : Nat) := State.wordAt_finish 0x14#8 (BitVec.ofFin ch) .ok (fwdState ch s) sp a
  have hbyte (sp : Space) (b : Nat) := State.byteAt_finish 0x14#8 (BitVec.ofFin ch) .ok (fwdState ch s) sp b
  refine ⟨_, execFwd_eq hr h, heffect.completes, ?ret, hexponent, hargs,
    fun k hk => (hword _ _).trans (hdm k hk), fun b hb => (hbyte _ _).trans (hdmOut b hb),
    fun k hk => (hword _ _).trans (hov k hk), fun b hb => (hbyte _ _).trans (hovOut b hb),
    fun b => (hbyte _ _).trans (fwdState_sameBytes (by decide) (by decide) b), ?own, fun d hd => ?other,
    ?flags, ?rc⟩
  case ret => rw [finish_ok_ret]; rfl
  case own => rw [State.ctx_finish, fwdState_ctx, if_pos rfl]; rfl
  case other => rw [State.ctx_finish, fwdState_ctx, if_neg hd]
  case flags => rw [finish_flags, fwdState_flags hi h]
  case rc => rw [finish_rc, heffect.rc_eq nofun nofun]

end Sys2Proof.Machine
end
